-- ==== Sys2Proof/Word.lean ====
section
/-! DEFINITION. The sizes the spec works in: bytes and byte sequences (00_scope.md R14), 32-bit register values and
addresses (R10), 16-byte blocks (R19), 4-byte schedule words (41_key_schedule.md R121), the 60-word schedule (10_state.md R52). -/

namespace Sys2Proof

abbrev Byte := BitVec 8

/-- A 32-bit register value or command word. -/
abbrev Word := BitVec 32

/-- A 32-bit byte address (system memory, or the host's bus). -/
abbrev Addr := BitVec 32

/-- A 16-byte block, byte 0 first. -/
abbrev Block := Vector Byte 16

/-- A word of the key schedule: a sequence of 4 bytes, distinct from a 32-bit register value (R19). -/
abbrev SWord := Vector Byte 4

/-- SCHED: the words w[0..60). -/
abbrev Schedule := Vector SWord 60

end Sys2Proof
end

