-- ==== Sys2Proof/Machine/Field.lean ====
section
/-! DEFINITION. GF(2^8) arithmetic and the S-box (40_field_and_sbox.md R100-R112). -/

namespace Sys2Proof.Machine

/-- Multiplication by x modulo x^8 + x^4 + x^3 + x + 1 (R102, R103). -/
def xtime (a : Byte) : Byte :=
  if a.getLsbD 7 then (a <<< 1) ^^^ 0x1B#8 else a <<< 1

/-- The loop of gmul (R104) from bit `i` on, for `n` more bits: `a` is the multiplicand times x^i, `r` the sum so far. -/
def gmulLoop (b : Byte) : (n i : Nat) → (a r : Byte) → Byte
  | 0, _, _, r => r
  | n + 1, i, a, r => gmulLoop b n (i + 1) (xtime a) (if b.getLsbD i then r ^^^ a else r)

/-- Multiplication in GF(2^8), total (R104). -/
def gmul (a b : Byte) : Byte := gmulLoop b 8 0 a 0#8

/-- The multiplicative inverse, with inv(0) = 0 (R105): the byte c with gmul(a, c) = 1. -/
def gfInv (a : Byte) : Byte :=
  (((List.range 256).map (BitVec.ofNat 8)).find? fun c => gmul a c == 1#8).getD 0#8

/-- Bit i of Affine(b) (R106). -/
def affineBit (b : Byte) (i : Nat) : Bool :=
  (b.getLsbD i).xor ((b.getLsbD ((i + 4) % 8)).xor ((b.getLsbD ((i + 5) % 8)).xor
    ((b.getLsbD ((i + 6) % 8)).xor ((b.getLsbD ((i + 7) % 8)).xor ((0x63#8).getLsbD i)))))

/-- The affine map of the S-box's derivation (R106). -/
def affine (b : Byte) : Byte :=
  (List.range 8).foldl (fun acc i => if affineBit b i then acc ||| (1#8 <<< i) else acc) 0#8

/-- The rows of the SBOX table, row = high nibble, columns 0..f from left to right (R107). -/
def sboxRows : List (BitVec 128) :=
  [0x637c777bf26b6fc53001672bfed7ab76#128,
   0xca82c97dfa5947f0add4a2af9ca472c0#128,
   0xb7fd9326363ff7cc34a5e5f171d83115#128,
   0x04c723c31896059a071280e2eb27b275#128,
   0x09832c1a1b6e5aa0523bd6b329e32f84#128,
   0x53d100ed20fcb15b6acbbe394a4c58cf#128,
   0xd0efaafb434d338545f9027f503c9fa8#128,
   0x51a3408f929d38f5bcb6da2110fff3d2#128]
  ++
  [0xcd0c13ec5f974417c4a77e3d645d1973#128,
   0x60814fdc222a908846eeb814de5e0bdb#128,
   0xe0323a0a4906245cc2d3ac629195e479#128,
   0xe7c8376d8dd54ea96c56f4ea657aae08#128,
   0xba78252e1ca6b4c6e8dd741f4bbd8b8a#128,
   0x703eb5664803f60e613557b986c11d9e#128,
   0xe1f8981169d98e949b1e87e9ce5528df#128,
   0x8ca1890dbfe6426841992d0fb054bb16#128]

/-- The rows of the INV_SBOX table (R108). -/
def invSboxRows : List (BitVec 128) :=
  [0x52096ad53036a538bf40a39e81f3d7fb#128,
   0x7ce339829b2fff87348e4344c4dee9cb#128,
   0x547b9432a6c2233dee4c950b42fac34e#128,
   0x082ea16628d924b2765ba2496d8bd125#128,
   0x72f8f66486689816d4a45ccc5d65b692#128,
   0x6c704850fdedb9da5e154657a78d9d84#128,
   0x90d8ab008cbcd30af7e45805b8b34506#128,
   0xd02c1e8fca3f0f02c1afbd0301138a6b#128]
  ++
  [0x3a9111414f67dcea97f2cfcef0b4e673#128,
   0x96ac7422e7ad3585e2f937e81c75df6e#128,
   0x47f11a711d29c5896fb7620eaa18be1b#128,
   0xfc563e4bc6d279209adbc0fe78cd5af4#128,
   0x1fdda8338807c731b11210592780ec5f#128,
   0x60517fa919b54a0d2de57a9f93c99cef#128,
   0xa0e03b4dae2af5b0c8ebbb3c83539961#128,
   0x172b047eba77d626e169146355210c7d#128]

/-- The entry of a table at row = high nibble and column = low nibble of x (R107). -/
def tableEntry (rows : List (BitVec 128)) (x : Byte) : Byte :=
  ((rows.getD (x.toNat / 16) 0#128) >>> (8 * (15 - x.toNat % 16))).setWidth 8

/-- SBOX (R107). -/
def sbox (x : Byte) : Byte := tableEntry sboxRows x

/-- INV_SBOX (R108). -/
def invSbox (x : Byte) : Byte := tableEntry invSboxRows x

end Sys2Proof.Machine
end

