-- ==== Sys2Proof/Machine/KeySchedule.lean ====
section
/-! DEFINITION. The key scheduler's functions (41_key_schedule.md R120-R124, 10_state.md R52). -/

namespace Sys2Proof.Machine

/-- The word of four zero bytes. -/
def zeroWord : SWord := #v[0#8, 0#8, 0#8, 0#8]

/-- Exclusive-or of words (R121). -/
def xorWord (a b : SWord) : SWord := Vector.zipWith (fun x y => x ^^^ y) a b

/-- RotWord: one byte toward index 0 (R121). -/
def rotWord (a : SWord) : SWord := #v[a[1], a[2], a[3], a[0]]

/-- SubWord: SBOX on each byte (R121). -/
def subWord (a : SWord) : SWord := a.map sbox

/-- rc_j: rc_1 = 0x01, rc_j = xtime(rc_{j-1}) (R122); j = 0 is not used. -/
def rcByte : Nat → Byte
  | 0 => 0#8
  | 1 => 0x01#8
  | n + 2 => xtime (rcByte (n + 1))

/-- Rcon[j] = [rc_j, 0x00, 0x00, 0x00] (R122). -/
def rcon (j : Nat) : SWord := #v[rcByte j, 0#8, 0#8, 0#8]

/-- The value added to w[i-Nk], made from the previous word `t` (R123; the AES-256 branch is 90_conflicts.md C2). -/
def scheduleMix (nk i : Nat) (t : SWord) : SWord :=
  if i % nk = 0 then xorWord (subWord (rotWord t)) (rcon (i / nk))
  else if nk = 8 ∧ i % nk = 4 then subWord t
  else t

/-- The root key as the first Nk words (R123). -/
def keyWords (k : List Byte) (nk : Nat) : List SWord :=
  (List.range nk).map fun i =>
    #v[k.getD (4 * i) 0#8, k.getD (4 * i + 1) 0#8, k.getD (4 * i + 2) 0#8, k.getD (4 * i + 3) 0#8]

/-- `n` more words, each from the words before it: w[i] = w[i-Nk] xor the mixed previous word (R123). -/
def extendSchedule (nk : Nat) : Nat → List SWord → List SWord
  | 0, w => w
  | n + 1, w =>
    extendSchedule nk n
      (w ++ [xorWord (w.getD (w.length - nk) zeroWord)
        (scheduleMix nk w.length (w.getD (w.length - 1) zeroWord))])

/-- Nk = n div 4 (R120). -/
def wordsOfKeyLen (n : Nat) : Nat := n / 4

/-- Nr = Nk + 6 (R120, R123). -/
def roundsOfKeyLen (n : Nat) : Nat := wordsOfKeyLen n + 6

/-- KeyExpansion(K) (R123): the words w[0 .. 4(Nr+1)). -/
def keyExpansion (k : List Byte) : List SWord :=
  let nk := wordsOfKeyLen k.length
  extendSchedule nk (4 * (roundsOfKeyLen k.length + 1) - nk) (keyWords k nk)

/-- The schedule storage (R125, 10_state.md R52): the expanded words, then zero words. -/
def storeSchedule (w : List SWord) : Schedule := Vector.ofFn fun i => w.getD i.val zeroWord

/-- SCHED with every word zero. -/
def zeroSchedule : Schedule := Vector.replicate 60 (Vector.replicate 4 0#8)

/-- RoundKey(w, r) = w[4r] ‖ w[4r+1] ‖ w[4r+2] ‖ w[4r+3] (R124). Every use has r ≤ Nr ≤ 14, so every word read is one of the
60 (DEDUCED, log 7). -/
def roundKey (w : Schedule) (r : Nat) : Block :=
  Vector.ofFn fun i => ((w[4 * r + i.val / 4]?).getD zeroWord)[i.val % 4]

end Sys2Proof.Machine
end

