-- ==== Sys2Proof/Machine/Cipher.lean ====
section
/-! DEFINITION. The round transforms and the ciphers (42_block_cipher.md R140-R149). Row r, column c of the state is byte r + 4c (R140). -/

namespace Sys2Proof.Machine

/-- Byte-wise exclusive-or of blocks (00_scope.md R14). -/
def xorBlock (a b : Block) : Block := Vector.zipWith (fun x y => x ^^^ y) a b

/-- SubBytes (R141). -/
def subBytes (s : Block) : Block := s.map sbox

/-- InvSubBytes (R145). -/
def invSubBytes (s : Block) : Block := s.map invSbox

/-- ShiftRows: row r rotates left by r (R142). -/
def shiftRows (s : Block) : Block :=
  Vector.ofFn fun i => s[i.val % 4 + 4 * ((i.val / 4 + i.val % 4) % 4)]

/-- InvShiftRows: row r rotates right by r (R146); (c - r) mod 4 is (c + 4 - r) mod 4 on natural numbers. -/
def invShiftRows (s : Block) : Block :=
  Vector.ofFn fun i => s[i.val % 4 + 4 * ((i.val / 4 + 4 - i.val % 4) % 4)]

/-- A column times the circulant matrix with first row m0 m1 m2 m3, at row r: the coefficient of a_k is m_((k - r) mod 4). -/
def mixRow (m0 m1 m2 m3 : Byte) (s : Block) (i : Fin 16) : Byte :=
  gmul m0 s[4 * (i.val / 4) + i.val % 4]
    ^^^ gmul m1 s[4 * (i.val / 4) + (i.val % 4 + 1) % 4]
    ^^^ gmul m2 s[4 * (i.val / 4) + (i.val % 4 + 2) % 4]
    ^^^ gmul m3 s[4 * (i.val / 4) + (i.val % 4 + 3) % 4]

/-- MixColumns: the matrix 02 03 01 01 (R143; a coefficient 1 is the byte itself, R104). -/
def mixColumns (s : Block) : Block := Vector.ofFn (mixRow 0x02#8 0x03#8 0x01#8 0x01#8 s)

/-- InvMixColumns: the matrix 0e 0b 0d 09 (R147). -/
def invMixColumns (s : Block) : Block := Vector.ofFn (mixRow 0x0e#8 0x0b#8 0x0d#8 0x09#8 s)

/-- AddRoundKey (R144). -/
def addRoundKey (s k : Block) : Block := xorBlock s k

/-- A middle round of Cipher with round key r (R148). -/
def encRound (w : Schedule) (r : Nat) (s : Block) : Block :=
  addRoundKey (mixColumns (shiftRows (subBytes s))) (roundKey w r)

/-- The middle rounds r = 1 .. n, in that order (R148). -/
def encRounds (w : Schedule) : Nat → Block → Block
  | 0, s => s
  | n + 1, s => encRound w (n + 1) (encRounds w n s)

/-- Cipher(B, W, Nr) (R148). -/
def cipher (b : Block) (w : Schedule) (nr : Nat) : Block :=
  addRoundKey (shiftRows (subBytes (encRounds w (nr - 1) (addRoundKey b (roundKey w 0))))) (roundKey w nr)

/-- A middle round of InvCipher with round key r (R149). -/
def decRound (w : Schedule) (r : Nat) (s : Block) : Block :=
  invMixColumns (addRoundKey (invSubBytes (invShiftRows s)) (roundKey w r))

/-- The middle rounds r = n downto 1 (R149). -/
def decRounds (w : Schedule) : Nat → Block → Block
  | 0, s => s
  | n + 1, s => decRounds w n (decRound w (n + 1) s)

/-- InvCipher(B, W, Nr), the direct inverse cipher (R149, 90_conflicts.md C1). -/
def invCipher (b : Block) (w : Schedule) (nr : Nat) : Block :=
  addRoundKey (invSubBytes (invShiftRows (decRounds w (nr - 1) (addRoundKey b (roundKey w nr))))) (roundKey w 0)

end Sys2Proof.Machine
end

