-- ==== Sys2Proof/Machine/Padding.lean ====
section
/-! DEFINITION. The padding codec (43_padding.md R160-R165). -/

namespace Sys2Proof.Machine

/-- N = 16 - (len mod 16), the number of pad bytes (R160). -/
def padCount (n : Nat) : Nat := 16 - n % 16

/-- Pad(D) (R160). -/
def pad (d : List Byte) : List Byte :=
  d ++ List.replicate (padCount d.length) (BitVec.ofNat 8 (padCount d.length))

/-- Unpad(D) (R162); `none` is `raise InvalidPadding`. -/
def unpad (d : List Byte) : Option (List Byte) :=
  match d.getLast? with
  | none => none
  | some b =>
    if b.toNat < 1 ∨ 16 < b.toNat then none
    else if d.length < b.toNat then none
    else if (d.drop (d.length - b.toNat)).all (fun x => x == b) then some (d.take (d.length - b.toNat))
    else none

end Sys2Proof.Machine
end

