-- ==== Sys2Proof/Machine/Chaining.lean ====
section
/-! DEFINITION. The CBC functions (44_cbc.md R170-R172). -/

namespace Sys2Proof.Machine

/-- The first 16 bytes of a sequence as a block (sequences here have at least 16). -/
def blockOfList (l : List Byte) : Block := Vector.ofFn fun i => l.getD i.val 0#8

/-- The blocks C[1] .. C[n] of R170: each plaintext block xor the ciphertext block before it, through Cipher. -/
def cbcEncBlocks (w : Schedule) (nr : Nat) : Nat → Block → List Byte → List Block
  | 0, _, _ => []
  | n + 1, prev, pp =>
    let c := cipher (xorBlock (blockOfList pp) prev) w nr
    c :: cbcEncBlocks w nr n c (pp.drop 16)

/-- CbcEncCore(W, Nr, V, P) = C[0] ‖ C[1] ‖ ... ‖ C[n] with C[0] = V (R170). -/
def cbcEncCore (w : Schedule) (nr : Nat) (v : Block) (p : List Byte) : List Byte :=
  (v :: cbcEncBlocks w nr ((pad p).length / 16) v (pad p)).flatMap Vector.toList

/-- The plaintext blocks of R171: InvCipher of each ciphertext block, xor the ciphertext block before it. -/
def cbcDecBlocks (w : Schedule) (nr : Nat) : Nat → Block → List Byte → List Block
  | 0, _, _ => []
  | n + 1, prev, c =>
    xorBlock (invCipher (blockOfList c) w nr) prev :: cbcDecBlocks w nr n (blockOfList c) (c.drop 16)

/-- CbcDecCore(W, Nr, C) (R171): the first block is the IV, the others are deciphered. -/
def cbcDecCore (w : Schedule) (nr : Nat) (c : List Byte) : List Byte :=
  (cbcDecBlocks w nr ((c.length - 16) / 16) (blockOfList c) (c.drop 16)).flatMap Vector.toList

/-- OL = 16 + 16·(L div 16 + 1), the length of the ciphertext of L plaintext bytes (R172, R174). -/
def cipherLen (l : Nat) : Nat := 16 + 16 * (l / 16 + 1)

end Sys2Proof.Machine
end

