-- ==== Sys2Proof/Config.lean ====
section
/-! DEFINITION. What a launch fixes (00_scope.md R10, R11, R12) and the values the spec leaves under no law (R17, 44_cbc.md
R173). The free values are opaque constants: no proof can see what they are. -/

namespace Sys2Proof

/-- The kind of a DMA access (R12). -/
inductive Access where
  | read
  | write
deriving DecidableEq, Repr

/-- A stretch of system memory that answers DMA accesses without a bus error. -/
structure Region where
  base : Nat
  size : Nat
  readable : Bool
  writable : Bool
deriving DecidableEq, Repr, Inhabited

/-- The open parameters of R11 that a launch fixes. BASE is a multiple of 256, so only its bits [31:8] are kept.
MemAdmit is a finite list of regions: the address space is finite, so every predicate of R12 is one (DESIGN CHOICE, log 5). -/
structure Platform where
  basePage : BitVec 24
  regions : List Region
  dmaCoherent : Bool
deriving DecidableEq, Repr, Inhabited

/-- The launch's parameters (DESIGN CHOICE, log 5). "no rule fixes its value" (R11). -/
opaque Config.platform : Platform

/-- EntropyDraw: the 16 bytes of the n-th draw, under no law (R11, 44_cbc.md R173; DESIGN CHOICE, log 2). -/
opaque Config.entropyDraw : Nat → Block

/-- The bytes Havoc leaves, one independent value each, under no law (R17; DESIGN CHOICE, log 3). -/
opaque Config.havocByte : Nat → Byte

/-- The bytes an access meets where DMA is not coherent and the cache maintenance of 20_memory.md R68 was left out, one
independent value each: no rule gives them (DESIGN CHOICE, log 22). -/
opaque Config.cacheByte : Nat → Byte

namespace Config

/-- The number of system-memory addresses, 2^32 (R10, R13). -/
def addrSpace : Nat := 4294967296

/-- The ID register's constant, "AESC" (R5, 10_state.md R36). -/
def idValue : Word := 0x41455343#32

end Config
end Sys2Proof
end

