-- ==== Sys2Proof/Syntax.lean ====
section
/-! DEFINITION. The command words' abstract syntax (30_encoding.md R80, R81), the accesses a host performs (20_memory.md R61,
R66, R68) and the host notation (30_encoding.md R86, R87). -/

namespace Sys2Proof

/-- The five commands, one constructor per row of spec/opcode_table.json. No command word has an operand field (R80). -/
inductive Instr where
  | keyExpand
  | encBlock
  | decBlock
  | cbcEncrypt
  | cbcDecrypt
deriving DecidableEq, Repr

/-- The registers of the map 10_state.md R33. -/
inductive RegName where
  | id
  | ctrl
  | status
  | cmd
  | keyLen
  | nr
  | len
  | outLen
  | srcAddr
  | dstAddr
  | rkSel
  | rk (j : Fin 4)
  | key (j : Fin 8)
  | iv (j : Fin 4)
  | din (j : Fin 4)
  | dout (j : Fin 4)
deriving DecidableEq, Repr

/-- Widths of an access on the host's bus (20_memory.md R61). -/
inductive Width where
  | w8
  | w16
  | w32
  | w64
deriving DecidableEq, Repr

/-- One access of the host (or of another bus master, 60_exceptions.md R202). Register accesses carry their bus address;
`wait` is the polling loop of R87; the memory accesses are those 20_memory.md R66 speaks of, one byte each; the cache
operations are the host's maintenance of R68. -/
inductive HostOp where
  | write (width : Width) (addr : Addr) (data : Word)
  | read (width : Width) (addr : Addr)
  | wait
  | memWrite (addr : Addr) (data : Byte)
  | memRead (addr : Addr)
  | cacheClean (addr : Addr) (n : Nat)
  | cacheInvalidate (addr : Addr) (n : Nat)
deriving DecidableEq, Repr

/-- Who moves next: the host, the engine, or the reset input; `resetWithAccess` is a reset during which the host's next
access arrives (70_reset_and_hazards.md R210, 93_implementation_defined.md row 9). -/
inductive Turn where
  | host
  | engine
  | reset
  | resetWithAccess
deriving DecidableEq, Repr

/-- `reg` of R86: a register's name or an offset. -/
inductive RegRef where
  | named (r : RegName)
  | offset (off : BitVec 8)
deriving DecidableEq, Repr

/-- One line of the host notation (R86, R87), labels and comments left out. -/
inductive HostLine where
  | wr (reg : RegRef) (imm : Word)
  | rd (reg : RegRef)
  | command (i : Instr)
  | clrDone
  | wait
deriving DecidableEq, Repr

end Sys2Proof
end

