-- ==== Sys2Proof/WellFormed.lean ====
section
/-! DEFINITION. Well-formedness as decidable checks. A command has no operand field, so every term of `Instr` is well formed
(30_encoding.md R80); the checks that can fail are those on a register access (20_memory.md R61) and on a line's offset (30_encoding.md R86). -/

namespace Sys2Proof

/-- No field of a command can be out of range (R80: "The word has no register, immediate or mode field"). -/
def Instr.wellFormed : Instr → Bool
  | .keyExpand | .encBlock | .decBlock | .cbcEncrypt | .cbcDecrypt => true

/-- An access the register port accepts: 32 bits wide at an offset that is a multiple of 4 (R61). -/
def Width.acceptedAt (w : Width) (off : BitVec 8) : Bool :=
  w == .w32 && off.toNat % 4 == 0

/-- A reference of R86 that names an aligned offset of the window. -/
def RegRef.wellFormed : RegRef → Bool
  | .named _ => true
  | .offset off => off.toNat % 4 == 0

/-- A line all of whose references are well formed. -/
def HostLine.wellFormed : HostLine → Bool
  | .wr r _ => r.wellFormed
  | .rd r => r.wellFormed
  | .command i => i.wellFormed
  | .clrDone | .wait => true

end Sys2Proof
end

