-- ==== Sys2Proof/Decode.lean ====
section
/-! DEFINITION. The command decoder, total on all 2^32 words (30_encoding.md R82, R84), the encoder (R81), and the register map's
offsets (10_state.md R33) with the host notation's expansion (30_encoding.md R86, R87). -/

namespace Sys2Proof

/-- Why a command word is illegal (R84). -/
inductive DecodeError where
  | reservedBits
  | illegalOpcode
deriving DecidableEq, Repr

/-- RSVD, bits [31:4] of a command word (R80). -/
def rsvdField (w : Word) : BitVec 28 := w.extractLsb' 4 28

/-- OP, bits [3:0] of a command word (R80). -/
def opField (w : Word) : BitVec 4 := w.extractLsb' 0 4

/-- The decoding half of Execute(w) (R82): the reserved bits first, then the opcode. -/
def decode (w : Word) : Except DecodeError Instr :=
  if rsvdField w ≠ 0#28 then .error .reservedBits
  else match (opField w).toNat with
    | 1 => .ok .keyExpand
    | 2 => .ok .encBlock
    | 3 => .ok .decBlock
    | 4 => .ok .cbcEncrypt
    | 5 => .ok .cbcDecrypt
    | _ => .error .illegalOpcode

/-- The exact word that selects each command (R81). -/
def encode : Instr → Word
  | .keyExpand => 0x00000001#32
  | .encBlock => 0x00000002#32
  | .decBlock => 0x00000003#32
  | .cbcEncrypt => 0x00000004#32
  | .cbcDecrypt => 0x00000005#32

/-- The command read from a word numbered as spec/opcode_table.json numbers it. Every command is exactly one 32-bit word
(R85), so a number with a bit above bit 31 is none. -/
def decodeTableWord (nbits w : Nat) : Option Instr :=
  if nbits ≤ 32 ∧ w < 4294967296 then (decode (BitVec.ofNat 32 w)).toOption else none

/-- The offset of a register (10_state.md R33). -/
def RegName.offset : RegName → BitVec 8
  | .id => 0x00#8
  | .ctrl => 0x04#8
  | .status => 0x08#8
  | .cmd => 0x0C#8
  | .keyLen => 0x10#8
  | .nr => 0x14#8
  | .len => 0x18#8
  | .outLen => 0x1C#8
  | .srcAddr => 0x20#8
  | .dstAddr => 0x24#8
  | .rkSel => 0x28#8
  | .rk j => BitVec.ofNat 8 (0x30 + 4 * j.val)
  | .key j => BitVec.ofNat 8 (0x40 + 4 * j.val)
  | .iv j => BitVec.ofNat 8 (0x60 + 4 * j.val)
  | .din j => BitVec.ofNat 8 (0x70 + 4 * j.val)
  | .dout j => BitVec.ofNat 8 (0x80 + 4 * j.val)

/-- The register at an offset of the window; none where R33 lists "(none)" and at unaligned offsets. -/
def decodeOffset (off : BitVec 8) : Option RegName :=
  if off.toNat % 4 ≠ 0 then none
  else match off.toNat / 4 with
    | 0 => some .id
    | 1 => some .ctrl
    | 2 => some .status
    | 3 => some .cmd
    | 4 => some .keyLen
    | 5 => some .nr
    | 6 => some .len
    | 7 => some .outLen
    | 8 => some .srcAddr
    | 9 => some .dstAddr
    | 10 => some .rkSel
    | 12 => some (.rk 0)
    | 13 => some (.rk 1)
    | 14 => some (.rk 2)
    | 15 => some (.rk 3)
    | 16 => some (.key 0)
    | 17 => some (.key 1)
    | 18 => some (.key 2)
    | 19 => some (.key 3)
    | 20 => some (.key 4)
    | 21 => some (.key 5)
    | 22 => some (.key 6)
    | 23 => some (.key 7)
    | 24 => some (.iv 0)
    | 25 => some (.iv 1)
    | 26 => some (.iv 2)
    | 27 => some (.iv 3)
    | 28 => some (.din 0)
    | 29 => some (.din 1)
    | 30 => some (.din 2)
    | 31 => some (.din 3)
    | 32 => some (.dout 0)
    | 33 => some (.dout 1)
    | 34 => some (.dout 2)
    | 35 => some (.dout 3)
    | _ => none

/-- BASE, the bus address of offset 0x00, a multiple of 256 (00_scope.md R11). -/
def Platform.base (p : Platform) : Addr := p.basePage ++ 0#8

/-- The bus address of an offset: BASE + offset (R86). -/
def Platform.regAddr (p : Platform) (off : BitVec 8) : Addr := p.base + off.setWidth 32

/-- The offset a bus address selects; none outside the 256-byte window (10_state.md R33). -/
def Platform.windowOffset (p : Platform) (a : Addr) : Option (BitVec 8) :=
  if a.extractLsb' 8 24 = p.basePage then some (a.extractLsb' 0 8) else none

/-- The offset a reference of the notation stands for (R86). -/
def RegRef.off : RegRef → BitVec 8
  | .named r => r.offset
  | .offset o => o

/-- The bus transactions of a line (R86, R87). -/
def HostLine.expand (p : Platform) : HostLine → HostOp
  | .wr r imm => .write .w32 (p.regAddr r.off) imm
  | .rd r => .read .w32 (p.regAddr r.off)
  | .command i => .write .w32 (p.regAddr 0x0C#8) (encode i)
  | .clrDone => .write .w32 (p.regAddr 0x08#8) 0x00000002#32
  | .wait => .wait

end Sys2Proof
end

