-- ==== Sys2Proof/Machine/State.lean ====
section
/-! DEFINITION. The machine's state as plain data: the record of 10_state.md R30, system memory (20_memory.md R60), the launch's
parameters (00_scope.md R11), the host's side, the turns, and the counters of the free values. -/

namespace Sys2Proof.Machine

/-- System memory: (address, byte) pairs in the canonical form of `Memory.wf` (Ops.lean). -/
abbrev Memory := List Host.Cell

/-- The command sequencer (10_state.md R31). -/
inductive Fsm where
  | idle
  | busy (w : Word)
deriving DecidableEq, Repr

/-- The errors a command can raise (60_exceptions.md R191); their codes are in Flags.lean. -/
inductive CommandError where
  | invalidKeyLength
  | truncatedInput
  | invalidPadding
  | noSchedule
  | illegalCommand
  | range
  | overlap
  | busError
deriving DecidableEq, Repr

/-- The DMA windows of a CBC command the host must keep off until it has read STATUS with BUSY = 0 (20_memory.md R66),
as byte addresses and lengths on natural numbers. -/
structure DmaDuty where
  src : Nat
  srcLen : Nat
  dst : Nat
  dstLen : Nat
deriving DecidableEq, Repr

/-- What an access of the host answered: the word of a register read (R53), the byte of a memory read, completion of
another access, or the bus-error response of 20_memory.md R61 (DESIGN CHOICE, log 14). -/
inductive Response where
  | data (v : Word)
  | byte (b : Byte)
  | ok
  | busError
deriving DecidableEq, Repr

/-- The host's side of the model (DESIGN CHOICE, log 4, 8, 9, 14, 22): its accesses still to come, their answers (newest first), its
duties on DMA windows, and, where DMA is not coherent, the bytes it wrote and has not cleaned, the bytes DMA wrote and it has
not invalidated, and what DMA reads for the source bytes that were uncleaned when the CBC command in progress was started. -/
structure HostSide where
  program : List HostOp
  responses : List Response
  duties : List DmaDuty
  dirty : List Addr
  stale : List Nat
  unsettled : List Host.Cell
deriving DecidableEq, Repr

/-- The state. The fields from `irqEn` to `fsm` are the components of R30 under their own names; `mem` and `platform` are
outside the block; the rest is the model's own (INVENTORY.md, State). -/
structure State where
  irqEn : Bool
  done : Bool
  wrIgnored : Bool
  errCode : BitVec 4
  keyLen : BitVec 8
  len : Word
  outLen : Word
  srcAddr : Addr
  dstAddr : Addr
  rkSel : BitVec 4
  key : Vector Byte 32
  iv : Block
  din : Block
  dout : Block
  sched : Schedule
  schedValid : Bool
  nr : BitVec 4
  fsm : Fsm
  mem : Memory
  platform : Platform
  host : HostSide
  turns : List Turn
  entropyDraws : Nat
  havocDraws : Nat
  cacheDraws : Nat
deriving DecidableEq, Repr

/-- The machine stops. -/
inductive Fault where
  /-- Raised by ENC_BLOCK, DEC_BLOCK, CBC_ENCRYPT and CBC_DECRYPT when SCHED_VALID = 1 and NR is not 10, 12 or 14, outside the
  domain of Cipher and InvCipher (42_block_cipher.md R148). R41 and R52 exclude such a state. Safe (DEDUCED, log 7). -/
  | scheduleDomain
deriving DecidableEq, Repr

/-- The run is outside the model. -/
inductive Refusal where
  /-- Raised by an arm of `exec` whose instruction has no meaning yet. Safe. -/
  | notModelled (mnemonic : String)
  /-- Raised by a host memory access that breaks the duty of 20_memory.md R66: "a model refuses it". Safe (DEDUCED, log 8). -/
  | dmaDutyBroken
  /-- Raised by a register access that arrives while reset is asserted (70_reset_and_hazards.md R210,
  93_implementation_defined.md row 9: refuse). Safe (DEDUCED, log 11). -/
  | accessDuringReset
  /-- Raised by a register access whose bus address is outside the block's window: it reaches another device, the platform's
  (20_memory.md R75). Safe (DESIGN CHOICE, log 10). -/
  | outsideWindow
deriving DecidableEq, Repr

/-- The host's side when nothing has happened yet. -/
def HostSide.empty : HostSide :=
  { program := [], responses := [], duties := [], dirty := [], stale := [], unsettled := [] }

/-- The machine right after reset: "every component of rule R30 is 0 (every bit and byte zero), fsm = IDLE" (10_state.md R58,
70_reset_and_hazards.md R210); memory with nothing listed (DESIGN CHOICE, log 1), the launch's parameters open (DESIGN
CHOICE, log 5), no host access pending (DESIGN CHOICE, log 4, 6), the free values' counters at 0 (DESIGN CHOICE, log 17). -/
def State.reset : State :=
  { irqEn := false
    done := false
    wrIgnored := false
    errCode := 0#4
    keyLen := 0#8
    len := 0#32
    outLen := 0#32
    srcAddr := 0#32
    dstAddr := 0#32
    rkSel := 0#4
    key := Vector.replicate 32 0#8
    iv := Vector.replicate 16 0#8
    din := Vector.replicate 16 0#8
    dout := Vector.replicate 16 0#8
    sched := Vector.replicate 60 (Vector.replicate 4 0#8)
    schedValid := false
    nr := 0#4
    fsm := .idle
    mem := []
    platform := Config.platform
    host := HostSide.empty
    turns := []
    entropyDraws := 0
    havocDraws := 0
    cacheDraws := 0 }

end Sys2Proof.Machine
end

