-- ==== Sys2Proof/Machine/Flags.lean ====
section
/-! DEFINITION. The flags (10_state.md R38, R55, R56) and the error codes (60_exceptions.md R191). -/

namespace Sys2Proof.Machine

/-- The code written to STATUS.ERR_CODE (R191); 0 is success, 9 .. 15 are never produced. -/
def CommandError.code : CommandError → BitVec 4
  | .invalidKeyLength => 1#4
  | .truncatedInput => 2#4
  | .invalidPadding => 3#4
  | .noSchedule => 4#4
  | .illegalCommand => 5#4
  | .range => 6#4
  | .overlap => 7#4
  | .busError => 8#4

/-- BUSY reads 1 exactly when fsm ≠ IDLE (R38). -/
def State.busy (s : State) : Bool :=
  match s.fsm with
  | .idle => false
  | .busy _ => true

/-- ERR reads 1 exactly when ERR_CODE ≠ 0 (R38). -/
def State.err (s : State) : Bool := s.errCode != 0#4

/-- The interrupt output, a level: irq = DONE AND IRQ_EN (R55, R196). -/
def State.irq (s : State) : Bool := s.done && s.irqEn

/-- A flag as bit 0 of a register word. -/
def bitWord (b : Bool) : Word := if b then 1#32 else 0#32

/-- The STATUS word (R53): BUSY, DONE, ERR, SCHED_VALID, WR_IGNORED in bits 0 .. 4, ERR_CODE in bits [11:8]. -/
def State.statusWord (s : State) : Word :=
  bitWord s.busy ||| (bitWord s.done <<< 1) ||| (bitWord s.err <<< 2) ||| (bitWord s.schedValid <<< 3)
    ||| (bitWord s.wrIgnored <<< 4) ||| (s.errCode.setWidth 32 <<< 8)

/-- A write to STATUS: a 1 in bit 1 clears DONE, a 1 in bit 4 clears WR_IGNORED, nothing else (R54, R70). -/
def State.clearStatus (s : State) (v : Word) : State :=
  { s with
    done := s.done && !v.getLsbD 1
    wrIgnored := s.wrIgnored && !v.getLsbD 4 }

end Sys2Proof.Machine
end

