-- ==== Sys2Proof/Machine/Ops.lean ====
section
/-! DEFINITION. The named operations over memory and registers: system memory (20_memory.md R62), DMA windows (R63, R65), the
tracking of cache maintenance (R68) and the free values where it was left out, how a command ends (60_exceptions.md R190,
R193), and reset (70_reset_and_hazards.md R210). -/

namespace Sys2Proof.Machine

/-- What a byte of system memory that nothing has written reads as (DESIGN CHOICE, unsafe: log 1; 95_test_vectors.md section 8
takes 0x00 in its common start state). -/
def Memory.background : Byte := 0x00#8

/-- The byte at an address. -/
def Memory.read (m : Memory) (a : Nat) : Byte :=
  match m with
  | [] => Memory.background
  | (k, b) :: rest => if k = a then b else Memory.read rest a

/-- Write one byte, keeping the canonical form: addresses strictly rising, no entry equal to the background. -/
def Memory.write (m : Memory) (a : Nat) (v : Byte) : Memory :=
  match m with
  | [] => if v = Memory.background then [] else [(a, v)]
  | (k, b) :: rest =>
    if a < k then (if v = Memory.background then (k, b) :: rest else (a, v) :: (k, b) :: rest)
    else if a = k then (if v = Memory.background then rest else (a, v) :: rest)
    else (k, b) :: Memory.write rest a v

/-- The canonical form: strictly rising addresses, no entry equal to the background. -/
abbrev Memory.wf (m : Memory) : Prop :=
  m.Pairwise (fun x y => x.1 < y.1) ∧ ∀ x ∈ m, x.2 ≠ Memory.background

/-- Every listed address is a 32-bit address (R62). -/
abbrev Memory.inSpace (m : Memory) : Prop := ∀ x ∈ m, x.1 < Config.addrSpace

/-- MemRead(a, n) = M[a] ‖ ... ‖ M[a+n-1] (R62). -/
def Memory.readRange (m : Memory) (a : Nat) : Nat → List Byte
  | 0 => []
  | n + 1 => m.read a :: Memory.readRange m (a + 1) n

/-- MemWrite(a, len B, B): byte B[i] to address a + i (R62). -/
def Memory.writeRange (m : Memory) (a : Nat) : List Byte → Memory
  | [] => m
  | b :: bs => Memory.writeRange (m.write a b) (a + 1) bs

/-- Write a list of (address, byte) pairs, in order. -/
def Memory.writeCells (m : Memory) : List Host.Cell → Memory
  | [] => m
  | c :: cs => Memory.writeCells (m.write c.1 c.2) cs

/-- Each of these addresses with a free value of its own, the draws from `k` on (DESIGN CHOICE, log 22). -/
def freshCells (k : Nat) : List Addr → List Host.Cell
  | [] => []
  | a :: as => (a.toNat, Config.cacheByte k) :: freshCells (k + 1) as

/-- Havoc on memory (00_scope.md R17): of the `n` bytes from `a` on, each admitted one takes the free value of its index. -/
def Memory.havoc (allow : Nat → Bool) (fresh : Nat → Byte) : (n a k : Nat) → Memory → Memory
  | 0, _, _, m => m
  | n + 1, a, k, m =>
    Memory.havoc allow fresh n (a + 1) (k + 1) (if allow a then m.write a (fresh k) else m)

/-- x is in the window [a, a+n) (R63). -/
def inWindow (a n x : Nat) : Bool := a ≤ x && x < a + n

/-- InRange(a, n): no wrap past 0xFFFFFFFF (R63; DEDUCED, log 21). -/
def inRange (a n : Nat) : Bool := a + n ≤ Config.addrSpace

/-- Overlaps(a, n, b, m) (R63). -/
def overlaps (a n b m : Nat) : Bool := 0 < n && 0 < m && a < b + m && b < a + n

/-- Whether a region answers an access of this kind to byte x. -/
def Region.admits (r : Region) (k : Access) (x : Nat) : Bool :=
  inWindow r.base r.size x && (match k with | .read => r.readable | .write => r.writable)

/-- MemAdmit(x, k) (00_scope.md R12). -/
def memAdmit (p : Platform) (k : Access) (x : Nat) : Bool := p.regions.any fun r => Region.admits r k x

/-- ReadOK and WriteOK: every byte of the window admits the access (R63). -/
def windowOk (p : Platform) (k : Access) (a : Nat) : Nat → Bool
  | 0 => true
  | n + 1 => memAdmit p k a && windowOk p k (a + 1) n

/-- ReadOK(a, n) (R63). -/
def readOk (p : Platform) (a n : Nat) : Bool := windowOk p .read a n

/-- WriteOK(a, n) (R63). -/
def writeOk (p : Platform) (a n : Nat) : Bool := windowOk p .write a n

/-- The host's side after DMA has written these bytes: where DMA is not coherent, they are stale in the host's caches
(R68; DESIGN CHOICE, log 9). -/
def HostSide.noteDmaWrite (h : HostSide) (p : Platform) (l : List Nat) : HostSide :=
  if p.dmaCoherent then h else { h with stale := l ∪ h.stale }

/-- The bytes of [a, a+n) that admit a DMA write (00_scope.md R12). -/
def writableBytes (p : Platform) (a n : Nat) : List Nat := (List.range' a n).filter fun x => memAdmit p .write x

/-- A DMA write of a byte sequence (R62). -/
def State.dmaWrite (s : State) (a : Nat) (b : List Byte) : State :=
  { s with
    mem := s.mem.writeRange a b
    host := s.host.noteDmaWrite s.platform (List.range' a b.length) }

/-- Havoc(a, n) (00_scope.md R17, R65): every write-admitted byte of the window takes a free value, one draw per byte (DESIGN
CHOICE, log 3). The rules do not say which bytes of the window count as written by DMA for the host's caches (R68): the model
counts each write-admitted byte as written, and so as stale, and no byte that refuses the write (DESIGN CHOICE, log 24). -/
def State.havoc (s : State) (a n : Nat) : State :=
  { s with
    mem := s.mem.havoc (memAdmit s.platform .write) Config.havocByte n a s.havocDraws
    host := s.host.noteDmaWrite s.platform (writableBytes s.platform a n)
    havocDraws := s.havocDraws + n }

/-- The bytes of [a, a+n) that the host wrote and has not cleaned; none where DMA is coherent (R68; DESIGN CHOICE, log 9). -/
def State.dirtyIn (s : State) (a n : Nat) : List Addr :=
  if s.platform.dmaCoherent then [] else s.host.dirty.filter fun x => inWindow a n x.toNat

/-- DMA wrote byte x and the host has not invalidated it; never where DMA is coherent (R68; DESIGN CHOICE, log 9). -/
def State.staleAt (s : State) (x : Nat) : Bool := !s.platform.dmaCoherent && s.host.stale.contains x

/-- These bytes of memory take free values: a clean or an invalidate left open which of two values they hold
(DESIGN CHOICE, log 9, 22). -/
def State.unsettle (s : State) (l : List Addr) : State :=
  { s with
    mem := s.mem.writeCells (freshCells s.cacheDraws l)
    cacheDraws := s.cacheDraws + l.length }

/-- The uncleaned bytes of the source window at a CMD write: DMA reads a free value for each, whatever is cleaned later,
since R68 asks for the clean before the CMD write (DESIGN CHOICE, log 9, 22). -/
def State.recordUncleaned (s : State) : State :=
  { s with
    host := { s.host with unsettled := freshCells s.cacheDraws (s.dirtyIn s.srcAddr.toNat s.len.toNat) }
    cacheDraws := s.cacheDraws + (s.dirtyIn s.srcAddr.toNat s.len.toNat).length }

/-- System memory as DMA reads it: memory itself where DMA is coherent or the source was cleaned (R68; DESIGN CHOICE, log 9). -/
def State.dmaView (s : State) : Memory :=
  if s.platform.dmaCoherent then s.mem else s.mem.writeCells s.host.unsettled

/-- The host's side of the model replaced (DESIGN CHOICE, log 4). -/
def State.setHost (s : State) (h : HostSide) : State := { s with host := h }

/-- A write that arrives while BUSY is dropped and recorded (10_state.md R54). -/
def State.ignoreWrite (s : State) : State := { s with wrIgnored := true }

/-- A write of OUT_LEN (10_state.md R43). -/
def State.setOutLen (s : State) (v : Word) : State := { s with outLen := v }

/-- A write of IV (R49). -/
def State.setIv (s : State) (v : Block) : State := { s with iv := v }

/-- IV <- V for a V drawn from the entropy input: the draw is used up (44_cbc.md R173; DESIGN CHOICE, log 2). -/
def State.takeDraw (s : State) (v : Block) : State := { s with iv := v, entropyDraws := s.entropyDraws + 1 }

/-- A write of DOUT (R51). -/
def State.setDout (s : State) (v : Block) : State := { s with dout := v }

/-- A write of SCHED, SCHED_VALID and NR (41_key_schedule.md R125). -/
def State.setSchedule (s : State) (w : Schedule) (valid : Bool) (nr : BitVec 4) : State :=
  { s with sched := w, schedValid := valid, nr := nr }

/-- The end of every command (10_state.md R31, 60_exceptions.md R193): the outcome's code, DONE, and back to IDLE. -/
def State.finish (s : State) (code : BitVec 4) : State :=
  { s with errCode := code, done := true, fsm := .idle }

/-- Taking an error, `raise Error(CODE)` (00_scope.md R17, 60_exceptions.md R193): the writes made before stay, then ERR_CODE,
DONE and fsm. -/
def raiseError (e : CommandError) (s : State) : Host.Outcome State Fault Refusal := .next (s.finish e.code)

/-- `complete()`: the command ends with ERR_CODE = 0 (R17; DEDUCED, log 13). -/
def complete (s : State) : Host.Outcome State Fault Refusal := .next (s.finish 0#4)

/-- The command words' start (10_state.md R54, row 0x0C): DONE and ERR_CODE are cleared and the word is kept in fsm. With
`State.clearStatus` it is the way out of an error (60_exceptions.md R194). -/
def State.startCommand (s : State) (w : Word) : State :=
  { s with done := false, errCode := 0#4, fsm := .busy w }

/-- Every component of R30 at its reset value; what is outside the block stays (70_reset_and_hazards.md R210;
DEDUCED, log 18). -/
def State.resetBlock (s : State) : State :=
  { State.reset with
    mem := s.mem
    platform := s.platform
    host := s.host
    turns := s.turns
    entropyDraws := s.entropyDraws
    havocDraws := s.havocDraws
    cacheDraws := s.cacheDraws }

end Sys2Proof.Machine
end

