-- ==== Sys2Proof/Machine/Operands.lean ====
section
/-! DEFINITION. Operand forms (30_encoding.md R83): register lanes (10_state.md R34), the root-key bytes (R48), the schedule a
cipher command uses (R52), and the DMA windows of the CBC commands (44_cbc.md R174, R175). -/

namespace Sys2Proof.Machine

/-- Four bytes in the lanes of a register word, the first in bits [7:0] (R34). -/
def packWord (b0 b1 b2 b3 : Byte) : Word :=
  b0.setWidth 32 ||| (b1.setWidth 32 <<< 8) ||| (b2.setWidth 32 <<< 16) ||| (b3.setWidth 32 <<< 24)

/-- Word(X, j) (R34). -/
def laneWord {n : Nat} (x : Vector Byte n) (j : Nat) (h : 4 * j + 3 < n) : Word :=
  packWord x[4 * j] x[4 * j + 1] x[4 * j + 2] x[4 * j + 3]

/-- SetWord(X, j, v): byte 4j+i takes v[8i+7:8i] (R34). -/
def setLaneWord {n : Nat} (x : Vector Byte n) (j : Nat) (v : Word) : Vector Byte n :=
  Vector.ofFn fun i => if i.val / 4 = j then v.extractLsb' (8 * (i.val % 4)) 8 else x[i]

/-- KEY[0..n) (R48). -/
def keyBytes (s : State) (n : Nat) : List Byte := s.key.toList.take n

/-- Nr of a valid schedule (10_state.md R41). -/
def validRounds (nr : Nat) : Bool := nr == 10 || nr == 12 || nr == 14

/-- The check every cipher command starts with (60_exceptions.md R192): NO_SCHEDULE when SCHED_VALID = 0; else the rest of the
command with Nr. The fault is for states R41 and R52 exclude (DEDUCED, log 7). -/
def withSchedule (s : State) (k : Nat → Host.Outcome State Fault Refusal) : Host.Outcome State Fault Refusal :=
  if s.schedValid then
    if validRounds s.nr.toNat then k s.nr.toNat else .fault .scheduleDomain
  else raiseError .noSchedule s

/-- The length of the destination window a command claims for LEN = l (44_cbc.md R174, R175; 70_reset_and_hazards.md R211);
0 for a command without DMA and for a CBC_DECRYPT with LEN < 16. -/
def claimedLen (i : Instr) (l : Nat) : Nat :=
  match i with
  | .keyExpand | .encBlock | .decBlock => 0
  | .cbcEncrypt => cipherLen l
  | .cbcDecrypt => l - 16

/-- The bytes of its source window a CBC command reads, MemRead(SRC_ADDR, LEN) (R174, R175; R68). -/
def sourceBytes (s : State) : List Byte := s.dmaView.readRange s.srcAddr.toNat s.len.toNat

/-- The checks of a CBC command's windows before and at its source read, in the order of R192: RANGE, OVERLAP, BUS_ERROR. -/
def dmaCheck (s : State) (l ol : Nat) : Option CommandError :=
  if !inRange s.srcAddr.toNat l || !inRange s.dstAddr.toNat ol then some .range
  else if overlaps s.srcAddr.toNat l s.dstAddr.toNat ol then some .overlap
  else if !readOk s.platform s.srcAddr.toNat l then some .busError
  else none

/-- The end of a CBC command (R174, R175): the output to [DST_ADDR, DST_ADDR + ol) and OUT_LEN, or, where a byte of the window
refuses the write, Havoc of the window and BUS_ERROR. -/
def storeOutput (s : State) (ol : Nat) (out : List Byte) : Host.Outcome State Fault Refusal :=
  if writeOk s.platform s.dstAddr.toNat ol then
    complete ((s.dmaWrite s.dstAddr.toNat out).setOutLen (BitVec.ofNat 32 ol))
  else raiseError .busError (s.havoc s.dstAddr.toNat ol)

end Sys2Proof.Machine
end

