-- ==== Sys2Proof/Machine/BlockCommands.lean ====
section
/-! DEFINITION. The meanings of ENC_BLOCK and DEC_BLOCK (42_block_cipher.md R151, R152). -/

namespace Sys2Proof.Machine

/-- ENC_BLOCK: DOUT <- Cipher(DIN, SCHED, NR) (R151). -/
def execEncBlock (s : State) : Host.Outcome State Fault Refusal :=
  withSchedule s fun nr => complete (s.setDout (cipher s.din s.sched nr))

/-- DEC_BLOCK: DOUT <- InvCipher(DIN, SCHED, NR) (R152). -/
def execDecBlock (s : State) : Host.Outcome State Fault Refusal :=
  withSchedule s fun nr => complete (s.setDout (invCipher s.din s.sched nr))

end Sys2Proof.Machine
end

