-- ==== Sys2Proof/Machine/CbcCommands.lean ====
section
/-! DEFINITION. The meanings of CBC_ENCRYPT and CBC_DECRYPT (44_cbc.md R174, R175). -/

namespace Sys2Proof.Machine

/-- CBC_ENCRYPT with the draw V (R174). The draw is taken, and IV set, once the source read has succeeded. -/
def cbcEncryptWith (v : Block) (s : State) : Host.Outcome State Fault Refusal :=
  withSchedule (s.setOutLen 0#32) fun nr =>
    match dmaCheck s s.len.toNat (cipherLen s.len.toNat) with
    | some e => raiseError e (s.setOutLen 0#32)
    | none =>
      storeOutput ((s.setOutLen 0#32).takeDraw v) (cipherLen s.len.toNat)
        (cbcEncCore s.sched nr v (sourceBytes s))

/-- CBC_ENCRYPT (R174): V is the next value of the entropy input, under no law (R173; DESIGN CHOICE, log 2). -/
def execCbcEncrypt (s : State) : Host.Outcome State Fault Refusal :=
  cbcEncryptWith (Config.entropyDraw s.entropyDraws) s

/-- A ciphertext length CBC_DECRYPT refuses with TRUNCATED_INPUT (R175). -/
def truncated (l : Nat) : Bool := l < 16 || (l - 16) % 16 != 0

/-- CBC_DECRYPT (R175). IV is set once the source read has succeeded; the padding is checked before the first write. -/
def execCbcDecrypt (s : State) : Host.Outcome State Fault Refusal :=
  withSchedule (s.setOutLen 0#32) fun nr =>
    if truncated s.len.toNat then raiseError .truncatedInput (s.setOutLen 0#32)
    else
      match dmaCheck s s.len.toNat (s.len.toNat - 16) with
      | some e => raiseError e (s.setOutLen 0#32)
      | none =>
        let s' := (s.setOutLen 0#32).setIv (blockOfList (sourceBytes s))
        match unpad (cbcDecCore s.sched nr (sourceBytes s)) with
        | none => raiseError .invalidPadding s'
        | some pt => storeOutput s' pt.length pt

/-- The length of the output window [DST_ADDR, DST_ADDR + OL) a command started now writes (R174, R175; 20_memory.md R66).
CBC_DECRYPT's OL is its plaintext's length, and it has no output window when it raises an error before its write stage; the
window of CBC_ENCRYPT is given by LEN alone (DEDUCED, log 8). -/
def outputLen (i : Instr) (s : State) : Nat :=
  match i with
  | .keyExpand | .encBlock | .decBlock => 0
  | .cbcEncrypt => cipherLen s.len.toNat
  | .cbcDecrypt =>
    if s.schedValid && validRounds s.nr.toNat && !truncated s.len.toNat
        && (dmaCheck s s.len.toNat (s.len.toNat - 16)).isNone then
      ((unpad (cbcDecCore s.sched s.nr.toNat (sourceBytes s))).getD []).length
    else 0

end Sys2Proof.Machine
end

