-- ==== Sys2Proof/Machine/KeyCommand.lean ====
section
/-! DEFINITION. The meaning of KEY_EXPAND (41_key_schedule.md R125). -/

namespace Sys2Proof.Machine

/-- A root-key length KEY_EXPAND accepts (R120, R125). -/
def validKeyLen (n : Nat) : Bool := n == 16 || n == 24 || n == 32

/-- KEY_EXPAND (R125). A failure discards the previous schedule. -/
def execKeyExpand (s : State) : Host.Outcome State Fault Refusal :=
  if validKeyLen s.keyLen.toNat then
    complete (s.setSchedule (storeSchedule (keyExpansion (keyBytes s s.keyLen.toNat))) true
      (BitVec.ofNat 4 (roundsOfKeyLen s.keyLen.toNat)))
  else raiseError .invalidKeyLength (s.setSchedule zeroSchedule false 0#4)

end Sys2Proof.Machine
end

