-- ==== Sys2Proof/Machine/RegPort.lean ====
section
/-! DEFINITION. The register slave port: RegRead and RegWrite (10_state.md R53, R54), the accesses it accepts (20_memory.md R61). -/

namespace Sys2Proof.Machine

/-- RK_SEL.IDX ≤ NR and SCHED_VALID = 1: the round key RK0..RK3 show exists (R47). -/
def State.rkVisible (s : State) : Bool := s.schedValid && s.rkSel.toNat ≤ s.nr.toNat

/-- RegRead of a named register (R53; R36-R51 field by field). -/
def readReg (r : RegName) (s : State) : Word :=
  match r with
  | .id => Config.idValue
  | .ctrl => bitWord s.irqEn
  | .status => s.statusWord
  | .cmd => 0#32
  | .keyLen => s.keyLen.setWidth 32
  | .nr => s.nr.setWidth 32
  | .len => s.len
  | .outLen => s.outLen
  | .srcAddr => s.srcAddr
  | .dstAddr => s.dstAddr
  | .rkSel => s.rkSel.setWidth 32
  | .rk j => if s.rkVisible then laneWord (roundKey s.sched s.rkSel.toNat) j.val (by omega) else 0#32
  | .key j => laneWord s.key j.val (by omega)
  | .iv j => laneWord s.iv j.val (by omega)
  | .din j => laneWord s.din j.val (by omega)
  | .dout j => laneWord s.dout j.val (by omega)

/-- RegRead(off) (R53): an unused offset reads 0 (R35). -/
def regRead (off : BitVec 8) (s : State) : Word :=
  match decodeOffset off with
  | some r => readReg r s
  | none => 0#32

/-- RegWrite of a named register while IDLE (R54). Read-only registers ignore the write. -/
def writeReg (r : RegName) (v : Word) (s : State) : State :=
  match r with
  | .ctrl => { s with irqEn := v.getLsbD 0 }
  | .cmd => s.startCommand v
  | .keyLen => { s with keyLen := v.extractLsb' 0 8 }
  | .len => { s with len := v }
  | .srcAddr => { s with srcAddr := v }
  | .dstAddr => { s with dstAddr := v }
  | .rkSel => { s with rkSel := v.extractLsb' 0 4 }
  | .key j => { s with key := setLaneWord s.key j.val v }
  | .din j => { s with din := setLaneWord s.din j.val v }
  | .id | .status | .nr | .outLen | .rk _ | .iv _ | .dout _ => s

/-- RegWrite(off, v) (R54): STATUS is written even while BUSY; every other write while BUSY is dropped and sets WR_IGNORED. -/
def regWrite (off : BitVec 8) (v : Word) (s : State) : State :=
  if off = 0x08#8 then s.clearStatus v
  else if s.busy then s.ignoreWrite
  else
    match decodeOffset off with
    | some r => writeReg r v s
    | none => s

end Sys2Proof.Machine
end

