-- ==== Sys2Proof/Machine/HostPort.lean ====
section
/-! DEFINITION. The host agent: its register accesses (20_memory.md R61, 60_exceptions.md R195), its accesses to system memory under
the duty of R66, its cache maintenance (R68), and the WAIT loop (30_encoding.md R87). -/

namespace Sys2Proof.Machine

/-- The answer of an access, newest first (DESIGN CHOICE, log 14). -/
def State.respond (s : State) (r : Response) : State :=
  s.setHost { s.host with responses := r :: s.host.responses }

/-- The host's accesses still to come. -/
def State.setProgram (s : State) (p : List HostOp) : State := s.setHost { s.host with program := p }

/-- A STATUS read that returns BUSY = 0 ends the host's duties (R66, R67). -/
def State.endDuties (s : State) : State :=
  if s.busy then s else s.setHost { s.host with duties := [] }

/-- The command a CMD write at this offset would start: none at another offset, while BUSY, or for an illegal word. -/
def startedCommand (s : State) (off : BitVec 8) (v : Word) : Option Instr :=
  if off = 0x0C#8 ∧ s.busy = false then (decode v).toOption else none

/-- A command that reads and writes system memory (R60). -/
def Instr.usesDma : Instr → Bool
  | .keyExpand | .encBlock | .decBlock => false
  | .cbcEncrypt | .cbcDecrypt => true

/-- The windows a command puts under the host's duty: its source window and its output window (R66; DEDUCED, log 8). -/
def dutyOf (s : State) (i : Instr) : DmaDuty :=
  { src := s.srcAddr.toNat
    srcLen := s.len.toNat
    dst := s.dstAddr.toNat
    dstLen := outputLen i s }

/-- The duty of a command started now is added (R66). -/
def State.addDuty (s : State) (i : Instr) : State :=
  s.setHost { s.host with duties := dutyOf s i :: s.host.duties }

/-- What a CMD write that starts a CBC command does on the host's side: the uncleaned source bytes are recorded (R68), and the
duty begins (R66). -/
def State.beginDuty (s : State) (i : Option Instr) : State :=
  match i with
  | some c => if Instr.usesDma c then s.recordUncleaned.addDuty c else s
  | none => s

/-- A host register read (R53, R61). -/
def hostRead (w : Width) (a : Addr) (s : State) : Host.Outcome State Fault Refusal :=
  match s.platform.windowOffset a with
  | none => .refused .outsideWindow
  | some off =>
    if w.acceptedAt off then
      let s' := s.respond (.data (regRead off s))
      .next (if off = 0x08#8 then s'.endDuties else s')
    else .next (s.respond .busError)

/-- A host register write (R54, R61). -/
def hostWrite (w : Width) (a : Addr) (v : Word) (s : State) : Host.Outcome State Fault Refusal :=
  match s.platform.windowOffset a with
  | none => .refused .outsideWindow
  | some off =>
    if w.acceptedAt off then
      .next (((regWrite off v s).beginDuty (startedCommand s off v)).respond .ok)
    else .next (s.respond .busError)

/-- One poll of WAIT (R87): read STATUS; while bit 0 of the result is 1 the loop stays in the program (DESIGN CHOICE, log 15). -/
def hostWait (s : State) : Host.Outcome State Fault Refusal :=
  match hostRead .w32 (s.platform.regAddr 0x08#8) s with
  | .next t =>
    .next (if s.statusWord.getLsbD 0 then t.setProgram (.wait :: t.host.program) else t)
  | .fault f => .fault f
  | .refused r => .refused r

/-- The host's side after it wrote byte a: where DMA is not coherent the byte needs cleaning, and the host sees its own write
(R68; DESIGN CHOICE, log 9). -/
def HostSide.noteHostWrite (h : HostSide) (p : Platform) (a : Addr) : HostSide :=
  if p.dmaCoherent then h else { h with dirty := h.dirty.insert a, stale := h.stale.filter fun x => x != a.toNat }

/-- A host write of a byte of system memory. -/
def State.hostStore (s : State) (a : Addr) (b : Byte) : State :=
  { s with
    mem := s.mem.write a.toNat b
    host := s.host.noteHostWrite s.platform a }

/-- A free value of a stale byte is used up (DESIGN CHOICE, log 22). -/
def State.takeCacheDraw (s : State) : State := { s with cacheDraws := s.cacheDraws + 1 }

/-- x is in a destination window under duty. -/
def HostSide.dutyDst (h : HostSide) (x : Nat) : Bool := h.duties.any fun d => inWindow d.dst d.dstLen x

/-- x is in a source window under duty. -/
def HostSide.dutySrc (h : HostSide) (x : Nat) : Bool := h.duties.any fun d => inWindow d.src d.srcLen x

/-- A host read of a byte of system memory: not of a destination window under duty (R66). Of a byte its caches may hold stale it
reads a free value (R68; DESIGN CHOICE, log 9, 16, 22). -/
def hostMemRead (a : Addr) (s : State) : Host.Outcome State Fault Refusal :=
  if s.host.dutyDst a.toNat then .refused .dmaDutyBroken
  else if s.staleAt a.toNat then .next (s.takeCacheDraw.respond (.byte (Config.cacheByte s.cacheDraws)))
  else .next (s.respond (.byte (s.mem.read a.toNat)))

/-- A host write of a byte of system memory: to no window under duty (R66); where DMA is not coherent the byte needs cleaning (R68). -/
def hostMemWrite (a : Addr) (b : Byte) (s : State) : Host.Outcome State Fault Refusal :=
  if s.host.dutyDst a.toNat || s.host.dutySrc a.toNat then .refused .dmaDutyBroken
  else .next ((s.hostStore a b).respond .ok)

/-- Cleaning the host's caches over [a, a+n) (R68): the uncleaned bytes there reach memory. One that DMA has written since may put
the old byte back, and takes a free value (DESIGN CHOICE, log 9, 22). R66 and R68 do not say whether cleaning a byte of a
window under duty is a write of that window; the model lets the clean through and counts it as none (DESIGN CHOICE, log 23). -/
def hostClean (a : Addr) (n : Nat) (s : State) : Host.Outcome State Fault Refusal :=
  let t := s.unsettle ((s.dirtyIn a.toNat n).filter fun x => s.staleAt x.toNat)
  .next ((t.setHost { t.host with dirty := t.host.dirty.filter fun x => !inWindow a.toNat n x.toNat }).respond .ok)

/-- An invalidate over [a, a+n) settles byte x: it is in the window, and not a stale byte of a destination window under duty,
since R68 asks for the invalidate after the STATUS read of R67 (DESIGN CHOICE, log 9). -/
def HostSide.settledBy (h : HostSide) (a n x : Nat) : Bool := inWindow a n x && !(h.dutyDst x && h.stale.contains x)

/-- Invalidating the host's caches over [a, a+n) (R68): the bytes DMA wrote there are seen from now on, whether or not the host
had written them before. A byte the host wrote that was neither cleaned nor written by DMA since may be lost, and takes a free
value (DESIGN CHOICE, log 9, 22). Over a window under duty it counts as no access of that window (DESIGN CHOICE, log 23). -/
def hostInvalidate (a : Addr) (n : Nat) (s : State) : Host.Outcome State Fault Refusal :=
  let t := s.unsettle ((s.dirtyIn a.toNat n).filter fun x => !s.staleAt x.toNat)
  .next ((t.setHost
    { t.host with
      dirty := t.host.dirty.filter fun x => !t.host.settledBy a.toNat n x.toNat
      stale := t.host.stale.filter fun x => !t.host.settledBy a.toNat n x }).respond .ok)

/-- One access of the host. -/
def hostOp (o : HostOp) (s : State) : Host.Outcome State Fault Refusal :=
  match o with
  | .write w a v => hostWrite w a v s
  | .read w a => hostRead w a s
  | .wait => hostWait s
  | .memWrite a b => hostMemWrite a b s
  | .memRead a => hostMemRead a s
  | .cacheClean a n => hostClean a n s
  | .cacheInvalidate a n => hostInvalidate a n s

/-- The host's turn: its next access, in program order (00_scope.md R7); nothing when it has none (DESIGN CHOICE, log 4). -/
def hostStep (s : State) : Host.Outcome State Fault Refusal :=
  match s.host.program with
  | [] => .next s
  | o :: rest => hostOp o (s.setProgram rest)

end Sys2Proof.Machine
end

