-- ==== Sys2Proof/Machine/Engine.lean ====
section
/-! DEFINITION. The engine agent (10_state.md R31, 30_encoding.md R82), the reset event (70_reset_and_hazards.md R210, R211), and whose
turn it is (60_exceptions.md R197, 70_reset_and_hazards.md R219). -/

namespace Sys2Proof.Machine

/-- EngineStep() (R31), enabled exactly when fsm = BUSY(w): a legal word runs its command, any other raises ILLEGAL_COMMAND
(R82, R84; DEDUCED, log 20). A turn of the engine while IDLE changes nothing. -/
def engineStep (s : State) : Host.Outcome State Fault Refusal :=
  match s.fsm with
  | .idle => .next s
  | .busy w =>
    match decode w with
    | .ok i => exec i s
    | .error _ => raiseError .illegalCommand s

/-- The command in progress, if its word is legal. -/
def State.running (s : State) : Option Instr :=
  match s.fsm with
  | .idle => none
  | .busy w => (decode w).toOption

/-- System memory when a command in progress is abandoned (R211): the admitted bytes of a CBC command's claimed window, where
that window is in range, take free values (DESIGN CHOICE, log 3, 12). -/
def State.abandon (s : State) : State :=
  match s.running with
  | none => s
  | some i =>
    if inRange s.dstAddr.toNat (claimedLen i s.len.toNat) then s.havoc s.dstAddr.toNat (claimedLen i s.len.toNat) else s

/-- The reset event (R210, R211). -/
def State.assertReset (s : State) : State := s.abandon.resetBlock

/-- A register access, as against an access to system memory or the caches. -/
def HostOp.isRegisterAccess : HostOp → Bool
  | .write _ _ _ | .read _ _ | .wait => true
  | .memWrite _ _ | .memRead _ | .cacheClean _ _ | .cacheInvalidate _ _ => false

/-- A reset during which the host's next access arrives: a register access is outside the model (R210; DEDUCED, log 11). -/
def resetWithAccess (s : State) : Host.Outcome State Fault Refusal :=
  match s.host.program with
  | [] => .next s.assertReset
  | o :: _ => if HostOp.isRegisterAccess o then .refused .accessDuringReset else .next s.assertReset

/-- Who moves next: the listed turn; with none listed the engine if a command is in progress, else the host. So the engine
step comes after finitely many host steps (R219; DESIGN CHOICE, log 4). -/
def State.nextTurn (s : State) : Turn :=
  match s.turns with
  | t :: _ => t
  | [] => if s.busy then .engine else .host

/-- The state once the turn at the head of the list is used up. -/
def State.dropTurn (s : State) : State := { s with turns := s.turns.tail }

/-- One step of the machine: the agent whose turn it is moves. -/
def takeTurn (s : State) : Host.Outcome State Fault Refusal :=
  match s.nextTurn with
  | .host => hostStep s.dropTurn
  | .engine => engineStep s.dropTurn
  | .reset => .next s.dropTurn.assertReset
  | .resetWithAccess => resetWithAccess s.dropTurn

/-- The command word w in progress and the engine's turn next: what a CMD write of w leads to (DESIGN CHOICE, log 6). -/
def placeCommand (s : State) (w : Word) : State := { s with fsm := .busy w, turns := .engine :: s.turns }

end Sys2Proof.Machine
end

