-- ==== Sys2Proof/Machine/Step.lean ====
section
/-! DEFINITION. The step function, and where a command word is fetched from: fsm (10_state.md R39, "the word is kept in fsm"). -/

namespace Sys2Proof.Machine

/-- One step (Engine.lean: `takeTurn`). -/
def step (s : State) : Host.Outcome State Fault Refusal := takeTurn s

/-- s with the command word w in fsm and the engine's turn next (Engine.lean: `placeCommand`; DESIGN CHOICE, log 6). A command is one 32-bit
word whatever `nbits` is (30_encoding.md R85). -/
def State.withFetchWord (s : State) (_nbits w : Nat) : State := placeCommand s (BitVec.ofNat 32 w)

end Sys2Proof.Machine
end

