-- ==== Sys2Proof/Safety.lean ====
section
/-! DEFINITION. What counts as a good state, in the terms the statements use. -/

namespace Sys2Proof.Machine

/-- The schedule storage is in one of the two forms of 10_state.md R52 and R41: valid with NR in 10, 12, 14 and zero words past
4(NR+1), or invalid and all zero. -/
structure State.ScheduleForm (s : State) : Prop where
  valid_rounds : s.schedValid = true → s.nr = 10#4 ∨ s.nr = 12#4 ∨ s.nr = 14#4
  valid_tail : s.schedValid = true → ∀ (i : Nat) (h : i < 60), 4 * (s.nr.toNat + 1) ≤ i → s.sched[i] = zeroWord
  invalid_zero : s.schedValid = false → s.nr = 0#4 ∧ s.sched = zeroSchedule

/-- SCHED holds "the schedule of a successful KEY_EXPAND" (R30): the expansion of some root key. -/
def State.ScheduleOfKey (s : State) : Prop :=
  s.schedValid = true → ∃ k : List Byte, validKeyLen k.length = true ∧
    s.sched = storeSchedule (keyExpansion k) ∧ s.nr = BitVec.ofNat 4 (roundsOfKeyLen k.length)

/-- The invariant of every run: memory in its canonical form and inside the address space, ERR_CODE one of the codes of
60_exceptions.md R191, no outcome pending while BUSY (10_state.md R54), and the schedule in form (R52). -/
structure State.Inv (s : State) : Prop where
  mem_wf : s.mem.wf
  mem_inSpace : s.mem.inSpace
  errCode_produced : s.errCode.toNat ≤ 8
  busy_clear : s.busy = true → s.done = false ∧ s.errCode = 0#4
  schedule : s.ScheduleForm

/-- The conditions under which a cipher command finds a schedule (60_exceptions.md R192): SCHED_VALID = 1, and NR as R41 has it. -/
def State.HasSchedule (s : State) : Prop :=
  s.schedValid = true ∧ (s.nr = 10#4 ∨ s.nr = 12#4 ∨ s.nr = 14#4)

/-- Every byte of [a, a+n) admits accesses of kind k (20_memory.md R63). -/
def AdmitsAll (p : Platform) (k : Access) (a n : Nat) : Prop := ∀ x, a ≤ x → x < a + n → memAdmit p k x = true

/-- The windows of a CBC command pass its checks up to and with the source read (R63, R192): both in range, no byte in common,
every source byte admitted. -/
structure State.WindowsOk (s : State) (l ol : Nat) : Prop where
  src_inRange : s.srcAddr.toNat + l ≤ 4294967296
  dst_inRange : s.dstAddr.toNat + ol ≤ 4294967296
  apart : ∀ x, s.srcAddr.toNat ≤ x → x < s.srcAddr.toNat + l → s.dstAddr.toNat ≤ x → x < s.dstAddr.toNat + ol → False
  src_admitted : AdmitsAll s.platform .read s.srcAddr.toNat l

/-- The components of R30, the block's own state. -/
structure BlockState where
  irqEn : Bool
  done : Bool
  wrIgnored : Bool
  errCode : BitVec 4
  keyLen : BitVec 8
  len : Word
  outLen : Word
  srcAddr : Addr
  dstAddr : Addr
  rkSel : BitVec 4
  key : Vector Byte 32
  iv : Block
  din : Block
  dout : Block
  sched : Schedule
  schedValid : Bool
  nr : BitVec 4
  fsm : Fsm
deriving DecidableEq, Repr

/-- The block's own state (R30). -/
def State.block (s : State) : BlockState :=
  { irqEn := s.irqEn, done := s.done, wrIgnored := s.wrIgnored, errCode := s.errCode, keyLen := s.keyLen, len := s.len,
    outLen := s.outLen, srcAddr := s.srcAddr, dstAddr := s.dstAddr, rkSel := s.rkSel, key := s.key, iv := s.iv, din := s.din,
    dout := s.dout, sched := s.sched, schedValid := s.schedValid, nr := s.nr, fsm := s.fsm }

/-- "every component of rule R30 is 0 (every bit and byte zero), fsm = IDLE" (R58). -/
def BlockState.zero : BlockState :=
  { irqEn := false, done := false, wrIgnored := false, errCode := 0#4, keyLen := 0#8, len := 0#32, outLen := 0#32,
    srcAddr := 0#32, dstAddr := 0#32, rkSel := 0#4, key := Vector.replicate 32 0#8, iv := Vector.replicate 16 0#8,
    din := Vector.replicate 16 0#8, dout := Vector.replicate 16 0#8, sched := Vector.replicate 60 (Vector.replicate 4 0#8),
    schedValid := false, nr := 0#4, fsm := .idle }

/-- These accesses of the host, in order, up to the first that answers no next state. -/
def hostOps : List HostOp → State → Host.Outcome State Fault Refusal
  | [], s => .next s
  | o :: rest, s =>
    match hostOp o s with
    | .next t => hostOps rest t
    | .fault f => .fault f
    | .refused r => .refused r

/-- `n` steps of the machine, up to the first that answers no next state. -/
def stepTimes : Nat → State → Host.Outcome State Fault Refusal
  | 0, s => .next s
  | n + 1, s =>
    match step s with
    | .next t => stepTimes n t
    | .fault f => .fault f
    | .refused r => .refused r

end Sys2Proof.Machine
end

