-- ==== Sys2Proof/Certificates/Slice0/Obligations.lean ====
section
/-! DEFINITION. The statements for the provers. Each docstring says which rule of spec/ the statement formalises. -/

open Sys2Proof Sys2Proof.Machine

/-- The five words of R81 decode to their commands; 0x00000000 and 0x00000006 are illegal by opcode, 0x00000011 and
0x80000001 by a reserved bit (R84). [30_encoding.md section 1, R81, 30_encoding.md section 3, R84] -/
def Obligations.DecodeSampleWords : Prop :=
  decode 0x00000001#32 = .ok .keyExpand ∧ decode 0x00000002#32 = .ok .encBlock ∧ decode 0x00000003#32 = .ok .decBlock ∧
  decode 0x00000004#32 = .ok .cbcEncrypt ∧ decode 0x00000005#32 = .ok .cbcDecrypt ∧
  decode 0x00000000#32 = .error .illegalOpcode ∧ decode 0x00000006#32 = .error .illegalOpcode ∧
  decode 0x00000011#32 = .error .reservedBits ∧ decode 0x80000001#32 = .error .reservedBits

/-- For every 32-bit word w and command i: the decoder reads i from w if and only if w is the word R81 gives for i, and
the encoder gives that word. [R81] -/
def Obligations.DecodeReadsExactlyTheTableWords : Prop :=
  ∀ (w : Word) (i : Instr),
    (decode w = .ok i ↔
      match i with
      | .keyExpand => w = 0x00000001#32
      | .encBlock => w = 0x00000002#32
      | .decBlock => w = 0x00000003#32
      | .cbcEncrypt => w = 0x00000004#32
      | .cbcDecrypt => w = 0x00000005#32) ∧
    (decode w = .ok i ↔ encode i = w)

/-- BASE is a multiple of 256, and a bus address a selects the window's offset off if and only if a = BASE + off.
[00_scope.md section 3, R11, 10_state.md section 2, R33, 30_encoding.md section 4, R86] -/
def Obligations.WindowOffsetIsBasePlusOffset : Prop :=
  ∀ (p : Platform) (a : Addr) (off : BitVec 8),
    p.base.toNat % 256 = 0 ∧ (p.windowOffset a = some off ↔ a = p.base + off.setWidth 32)

/-- WR is one 32-bit write and RD one 32-bit read at BASE + offset, the offset given or that of the named register, and
each register's offset decodes to that register. Each pseudo-instruction of R87 is the bus transaction the table
gives, at BASE + offset; one poll of WAIT answers the STATUS word, changes nothing of the block, and leaves the loop
exactly when bit 0 of the word is 0. That WAIT is one access which polls once a turn and stays at the head of the
program, and that answers stand in host.responses, are the model's choices, logs 15 and 14. [30_encoding.md section 4,
R86, 30_encoding.md section 4, R87, 10_state.md section 2, R33] -/
def Obligations.HostNotationExpands : Prop :=
  (∀ r : RegName, decodeOffset r.offset = some r) ∧
  (∀ (p : Platform) (r : RegName) (off : BitVec 8) (v : Word),
    (HostLine.wr (.named r) v).expand p = .write .w32 (p.base + r.offset.setWidth 32) v ∧
    (HostLine.rd (.named r)).expand p = .read .w32 (p.base + r.offset.setWidth 32) ∧
    (HostLine.wr (.offset off) v).expand p = .write .w32 (p.base + off.setWidth 32) v ∧
    (HostLine.rd (.offset off)).expand p = .read .w32 (p.base + off.setWidth 32)) ∧
  ∀ (p : Platform) (s : State),
    (HostLine.command .keyExpand).expand p = .write .w32 (p.base + 0x0C#32) 0x00000001#32 ∧
    (HostLine.command .encBlock).expand p = .write .w32 (p.base + 0x0C#32) 0x00000002#32 ∧
    (HostLine.command .decBlock).expand p = .write .w32 (p.base + 0x0C#32) 0x00000003#32 ∧
    (HostLine.command .cbcEncrypt).expand p = .write .w32 (p.base + 0x0C#32) 0x00000004#32 ∧
    (HostLine.command .cbcDecrypt).expand p = .write .w32 (p.base + 0x0C#32) 0x00000005#32 ∧
    HostLine.clrDone.expand p = .write .w32 (p.base + 0x08#32) 0x00000002#32 ∧
    HostLine.wait.expand p = .wait ∧
    ∃ t, hostOp .wait s = .next t ∧ t.block = s.block ∧ t.mem = s.mem ∧
      t.host.responses = .data (regRead 0x08#8 s) :: s.host.responses ∧
      t.host.program = if (regRead 0x08#8 s).getLsbD 0 then .wait :: s.host.program else s.host.program

/-- If fsm = BUSY(w), w decodes to the command i, and the engine moves next (its turn heads the list, or none is listed),
then step is exec of i on the state with that turn used up. The list of turns, and the default that the engine moves
while BUSY with no turn listed, are the model's choice, log 4; R31 and R82 give neither. [10_state.md section 1, R31,
30_encoding.md section 1, R82] -/
def Obligations.StepRunsDecodedCommand : Prop :=
  ∀ (s : State) (w : Word) (i : Instr), s.fsm = .busy w → decode w = .ok i →
    (s.turns = [] ∨ ∃ us, s.turns = .engine :: us) → step s = exec i { s with turns := s.turns.tail }

/-- For every state s and command i, the step after placing i's word runs exec of i with that word in fsm and all else as
in s (the placing is the model's, log 6). [10_state.md section 3, R39, 10_state.md section 1, R31] -/
def Obligations.PlacedWordRunsNext : Prop :=
  ∀ (s : State) (i : Instr),
    step (s.withFetchWord 32 (encode i).toNat) = exec i { s with fsm := .busy (encode i) }

/-- If fsm = BUSY(w) with a reserved bit of w set or OP in 0x0, 0x6 .. 0xF, the engine step completes with ERR_CODE = 5,
DONE = 1, fsm = IDLE and nothing else changed. [R84] -/
def Obligations.IllegalWordOnlyReports : Prop :=
  ∀ (s : State) (w : Word), s.fsm = .busy w →
    (w.extractLsb' 4 28 ≠ 0#28 ∨ w.extractLsb' 0 4 = 0#4 ∨ 6 ≤ (w.extractLsb' 0 4).toNat) →
    engineStep s = .next { s with errCode := 5#4, done := true, fsm := .idle }

/-- In the reset state each component of R30 is 0 and fsm = IDLE, so irq = 0, STATUS reads 0 and ID reads 0x41455343.
[R58] -/
def Obligations.ResetStateIsAllZero : Prop :=
  State.reset.block = BlockState.zero ∧ State.reset.irq = false ∧ regRead 0x08#8 State.reset = 0x00000000#32 ∧
  regRead 0x00#8 State.reset = 0x41455343#32

/-- From every state the reset turn is one step to a state whose block components are all 0 with fsm = IDLE and irq = 0; a
reset during which a register access (a read, a write or a WAIT poll) arrives is refused, as row 9 asks; that it is a
turn of its own kind is the model's form, log 11. [70_reset_and_hazards.md section 1, R210,
93_implementation_defined.md section 1, row 9] -/
def Obligations.ResetEventZeroesTheBlock : Prop :=
  ∀ s : State,
    (s.nextTurn = .reset → ∃ t, step s = .next t ∧ t.block = BlockState.zero ∧ t.irq = false) ∧
    (∀ (w : Width) (a : Addr) (v : Word) (rest : List HostOp), s.nextTurn = .resetWithAccess →
      (s.host.program = .read w a :: rest ∨ s.host.program = .write w a v :: rest ∨ s.host.program = .wait :: rest) →
      step s = .refused .accessDuringReset)

/-- A reset while fsm = BUSY(w): for CBC_ENCRYPT, and CBC_DECRYPT with LEN ≥ 16, with the window in range, each write-
admitted byte of the window takes a free value and every other byte is unchanged; otherwise all memory is unchanged.
DONE is not set. (Source bytes inside the destination window: the model's reading, log 12.) [70_reset_and_hazards.md
section 1, R211, 00_scope.md section 4, R17] -/
def Obligations.ResetAbandonsRunningCommand : Prop :=
  ∀ (s : State) (w : Word), s.mem.wf → s.fsm = .busy w → s.nextTurn = .reset →
    ∃ t, step s = .next t ∧ t.done = false ∧ t.fsm = .idle ∧
      (∀ n : Nat,
        (w = 0x00000004#32 ∧ n = 16 + 16 * (s.len.toNat / 16 + 1)) ∨
          (w = 0x00000005#32 ∧ 16 ≤ s.len.toNat ∧ n = s.len.toNat - 16) →
        s.dstAddr.toNat + n ≤ 4294967296 →
        ∀ x : Nat, t.mem.read x =
          if (s.dstAddr.toNat ≤ x ∧ x < s.dstAddr.toNat + n) ∧ memAdmit s.platform .write x = true
          then Config.havocByte (s.havocDraws + (x - s.dstAddr.toNat)) else s.mem.read x) ∧
      ((w = 0x00000004#32 → 4294967296 < s.dstAddr.toNat + (16 + 16 * (s.len.toNat / 16 + 1))) →
        (w = 0x00000005#32 → s.len.toNat < 16 ∨ 4294967296 < s.dstAddr.toNat + (s.len.toNat - 16)) →
        t.mem = s.mem)

/-- For every state and offset, RegRead returns the value R53 gives: the ID constant, the flags and STATUS fields in their
bits, the stored registers zero-extended, the lane words of KEY, IV, DIN, DOUT, the round-key words, and 0 elsewhere.
RegRead returns a word and no state. [R53] -/
def Obligations.RegReadFollowsTheMap : Prop :=
  ∀ s : State,
    regRead 0x00#8 s = 0x41455343#32 ∧
    regRead 0x04#8 s = (if s.irqEn then 1#32 else 0#32) ∧
    regRead 0x08#8 s = (if s.fsm = .idle then 0x0#32 else 0x1#32) ||| (if s.done then 0x2#32 else 0#32)
      ||| (if s.errCode = 0#4 then 0#32 else 0x4#32) ||| (if s.schedValid then 0x8#32 else 0#32)
      ||| (if s.wrIgnored then 0x10#32 else 0#32) ||| (s.errCode.setWidth 32 <<< 8) ∧
    regRead 0x0C#8 s = 0#32 ∧ regRead 0x10#8 s = s.keyLen.setWidth 32 ∧ regRead 0x14#8 s = s.nr.setWidth 32 ∧
    regRead 0x18#8 s = s.len ∧ regRead 0x1C#8 s = s.outLen ∧ regRead 0x20#8 s = s.srcAddr ∧
    regRead 0x24#8 s = s.dstAddr ∧ regRead 0x28#8 s = s.rkSel.setWidth 32 ∧
    (∀ (j : Nat) (h : j < 4), regRead (BitVec.ofNat 8 (0x30 + 4 * j)) s =
      if s.schedValid = true ∧ s.rkSel.toNat ≤ s.nr.toNat
      then laneWord (roundKey s.sched s.rkSel.toNat) j (by omega) else 0#32) ∧
    (∀ (j : Nat) (h : j < 8), regRead (BitVec.ofNat 8 (0x40 + 4 * j)) s = laneWord s.key j (by omega)) ∧
    (∀ (j : Nat) (h : j < 4), regRead (BitVec.ofNat 8 (0x60 + 4 * j)) s = laneWord s.iv j (by omega)) ∧
    (∀ (j : Nat) (h : j < 4), regRead (BitVec.ofNat 8 (0x70 + 4 * j)) s = laneWord s.din j (by omega)) ∧
    (∀ (j : Nat) (h : j < 4), regRead (BitVec.ofNat 8 (0x80 + 4 * j)) s = laneWord s.dout j (by omega)) ∧
    (∀ off : BitVec 8, off.toNat % 4 ≠ 0 ∨ off = 0x2C#8 ∨ 0x90 ≤ off.toNat → regRead off s = 0#32)

/-- On the host's turn, a 32-bit read at BASE + off with off a multiple of 4 answers RegRead(off); the block's components
and system memory are unchanged and the host's program moves on (the answer's place is the model's, log 14).
[10_state.md section 4, R53, 20_memory.md section 5, R74] -/
def Obligations.HostReadAnswersRegRead : Prop :=
  ∀ (s : State) (off : BitVec 8) (rest : List HostOp), s.nextTurn = .host → off.toNat % 4 = 0 →
    s.host.program = .read .w32 (s.platform.base + off.setWidth 32) :: rest →
    ∃ t, step s = .next t ∧ t.host.responses = .data (regRead off s) :: s.host.responses ∧ t.host.program = rest ∧
      t.block = s.block ∧ t.mem = s.mem ∧ t.platform = s.platform ∧ t.entropyDraws = s.entropyDraws

/-- With SCHED_VALID = 1 and RK_SEL ≤ NR (NR ≤ 14, as R41 has it), byte i of RKj is byte i of w[4·RK_SEL + j]; otherwise
RKj reads 0. A write to RKj while IDLE changes nothing. [R47] -/
def Obligations.RoundKeyReadback : Prop :=
  ∀ (s : State) (j : Nat), j < 4 →
    (∀ (i : Nat) (hs : 4 * s.rkSel.toNat + j < 60) (hi : i < 4), s.schedValid = true → s.rkSel.toNat ≤ s.nr.toNat →
      s.nr.toNat ≤ 14 →
      (regRead (BitVec.ofNat 8 (0x30 + 4 * j)) s).extractLsb' (8 * i) 8 = (s.sched[4 * s.rkSel.toNat + j])[i]) ∧
    (s.schedValid = false ∨ s.nr.toNat < s.rkSel.toNat → regRead (BitVec.ofNat 8 (0x30 + 4 * j)) s = 0#32) ∧
    (∀ v : Word, s.fsm = .idle → regWrite (BitVec.ofNat 8 (0x30 + 4 * j)) v s = s)

/-- A write to STATUS clears DONE and WR_IGNORED where bits 1 and 4 are 1, even while BUSY; any other write while BUSY
only sets WR_IGNORED; while IDLE each register takes its bits, CMD starts the command with DONE and ERR_CODE cleared,
KEY and DIN take the four lane bytes, and every other offset ignores the write. [R54] -/
def Obligations.RegWriteFollowsTheMap : Prop :=
  ∀ (s : State) (v : Word),
    regWrite 0x08#8 v s =
      { s with done := if v.getLsbD 1 then false else s.done, wrIgnored := if v.getLsbD 4 then false else s.wrIgnored } ∧
    (∀ (off : BitVec 8) (w : Word), off ≠ 0x08#8 → s.fsm = .busy w → regWrite off v s = { s with wrIgnored := true }) ∧
    (s.fsm = .idle →
      regWrite 0x04#8 v s = { s with irqEn := v.getLsbD 0 } ∧
      regWrite 0x0C#8 v s = { s with done := false, errCode := 0#4, fsm := .busy v } ∧
      regWrite 0x10#8 v s = { s with keyLen := v.extractLsb' 0 8 } ∧
      regWrite 0x18#8 v s = { s with len := v } ∧
      regWrite 0x20#8 v s = { s with srcAddr := v } ∧
      regWrite 0x24#8 v s = { s with dstAddr := v } ∧
      regWrite 0x28#8 v s = { s with rkSel := v.extractLsb' 0 4 } ∧
      (∀ j : Nat, j < 8 → ∃ k : Vector Byte 32, regWrite (BitVec.ofNat 8 (0x40 + 4 * j)) v s = { s with key := k } ∧
        ∀ (i : Nat) (h : i < 32), k[i] = if i / 4 = j then v.extractLsb' (8 * (i % 4)) 8 else s.key[i]) ∧
      (∀ j : Nat, j < 4 → ∃ d : Block, regWrite (BitVec.ofNat 8 (0x70 + 4 * j)) v s = { s with din := d } ∧
        ∀ (i : Nat) (h : i < 16), d[i] = if i / 4 = j then v.extractLsb' (8 * (i % 4)) 8 else s.din[i]) ∧
      (∀ off : BitVec 8,
        off.toNat % 4 ≠ 0 ∨ off = 0x00#8 ∨ off = 0x14#8 ∨ off = 0x1C#8 ∨ (0x2C ≤ off.toNat ∧ off.toNat < 0x40) ∨
          (0x60 ≤ off.toNat ∧ off.toNat < 0x70) ∨ 0x80 ≤ off.toNat → regWrite off v s = s))

/-- On the host's turn, a 32-bit write at BASE + off with off a multiple of 4 leaves the block's components as
RegWrite(off, v) does and memory unchanged, on every platform and whatever the host has left uncleaned; the answer ok
is the model's, log 14. [10_state.md section 4, R54, 20_memory.md section 2, R61] -/
def Obligations.HostWritePerformsRegWrite : Prop :=
  ∀ (s : State) (off : BitVec 8) (v : Word) (rest : List HostOp), s.nextTurn = .host → off.toNat % 4 = 0 →
    s.host.program = .write .w32 (s.platform.base + off.setWidth 32) v :: rest →
    ∃ t, step s = .next t ∧ t.block = (regWrite off v s).block ∧ t.mem = s.mem ∧ t.host.program = rest ∧
      t.host.responses = .ok :: s.host.responses

/-- On the host's turn, a read or write in the window of a width other than 32 bits or at an offset that is not a multiple
of 4 answers a bus error and changes nothing else (WR_IGNORED included); an accepted read is answered with
RegRead(off) and leaves the block, an accepted write is answered with ok and performs RegWrite(off, v), each in that
one step. That answers stand in a list, newest first, with ok for a write, is the model's choice, log 14.
[20_memory.md section 2, R61, 10_state.md section 4, R53, 10_state.md section 4, R54] -/
def Obligations.RejectedAccessGetsBusError : Prop :=
  ∀ (s : State) (w : Width) (off : BitVec 8) (v : Word) (o : HostOp) (rest : List HostOp), s.nextTurn = .host →
    (o = .read w (s.platform.base + off.setWidth 32) ∨ o = .write w (s.platform.base + off.setWidth 32) v) →
    s.host.program = o :: rest →
    (w ≠ .w32 ∨ off.toNat % 4 ≠ 0 →
      step s = .next { s with
        turns := s.turns.tail
        host := { s.host with program := rest, responses := .busError :: s.host.responses } }) ∧
    (w = .w32 → off.toNat % 4 = 0 → ∀ t, step s = .next t →
      t.host.responses = (if o = .read w (s.platform.base + off.setWidth 32) then .data (regRead off s) else .ok)
        :: s.host.responses ∧
      t.block = if o = .read w (s.platform.base + off.setWidth 32) then s.block else (regWrite off v s).block)

/-- For every byte array and word j inside it: bits [8i+7:8i] of Word(X, j) are byte X[4j+i]; after SetWord(X, j, v) word
j is v and every byte outside word j is unchanged. [R34] -/
def Obligations.LaneWordsHoldTheirBytes : Prop :=
  ∀ (n : Nat) (x : Vector Byte n) (j : Nat) (h : 4 * j + 3 < n) (v : Word),
    (∀ (i : Nat) (hi : i < 4), (laneWord x j h).extractLsb' (8 * i) 8 = x[4 * j + i]) ∧
    laneWord (setLaneWord x j v) j h = v ∧
    (∀ (i : Nat) (hi : i < 4), (setLaneWord x j v)[4 * j + i] = v.extractLsb' (8 * i) 8) ∧
    (∀ (k : Nat) (hk : k < n), k / 4 ≠ j → (setLaneWord x j v)[k] = x[k])

/-- irq = DONE AND IRQ_EN at all times; after any command's completion irq equals IRQ_EN; writing 1 to STATUS bit 1,
starting a command, or IRQ_EN = 0 makes it 0. [10_state.md section 4, R55, 60_exceptions.md section 2, R196] -/
def Obligations.InterruptFollowsDone : Prop :=
  (∀ s : State, s.irq = (s.done && s.irqEn)) ∧
  (∀ (i : Instr) (s t : State), exec i s = .next t → t.irq = s.irqEn) ∧
  (∀ (s : State) (v : Word), v.getLsbD 1 = true → (regWrite 0x08#8 v s).irq = false) ∧
  (∀ (s : State) (v : Word), s.fsm = .idle → (regWrite 0x0C#8 v s).irq = false)

/-- A step of the host while BUSY leaves every component of the block as it was, except WR_IGNORED and DONE, and DONE can
only be cleared. [10_state.md section 1, R31, 10_state.md section 4, R54] -/
def Obligations.HostTurnWhileBusyLeavesRegisters : Prop :=
  ∀ s t : State, s.busy = true → s.nextTurn = .host → step s = .next t →
    t.block = { s.block with done := t.done, wrIgnored := t.wrIgnored } ∧ (t.done = true → s.done = true)

/-- For KEY_LEN 16, 24 or 32 KEY_EXPAND completes with SCHED[i] = w[i] for i < 4(Nr+1) and zero after, SCHED_VALID = 1, NR
= Nr, ERR_CODE = 0; for any other length with SCHED zero, SCHED_VALID = 0, NR = 0, ERR_CODE = 1; nothing else but DONE
and fsm changes. [R125] -/
def Obligations.KeyExpandOutcome : Prop :=
  ∀ s : State,
    (s.keyLen.toNat = 16 ∨ s.keyLen.toNat = 24 ∨ s.keyLen.toNat = 32 →
      ∃ t, exec .keyExpand s = .next t ∧
        t = { s with sched := t.sched, schedValid := true, nr := t.nr, errCode := 0#4, done := true, fsm := .idle } ∧
        t.nr.toNat = s.keyLen.toNat / 4 + 6 ∧
        ∀ (i : Nat) (h : i < 60), t.sched[i] =
          if i < 4 * (s.keyLen.toNat / 4 + 7)
          then (keyExpansion (s.key.toList.take s.keyLen.toNat)).getD i zeroWord else zeroWord) ∧
    (¬ (s.keyLen.toNat = 16 ∨ s.keyLen.toNat = 24 ∨ s.keyLen.toNat = 32) →
      ∃ t, exec .keyExpand s = .next t ∧
        t = { s with sched := t.sched, schedValid := false, nr := 0#4, errCode := 1#4, done := true, fsm := .idle } ∧
        ∀ (i : Nat) (h : i < 60), t.sched[i] = zeroWord)

/-- For a key of 16, 24 or 32 bytes the expansion has 4(Nr+1) words; the first Nk are the key's bytes in order; every
later word is w[i-Nk] xor t, with t from w[i-1] by SubWord(RotWord) xor Rcon at multiples of Nk, by SubWord at i mod 8
= 4 for AES-256, and unchanged otherwise. RotWord moves each byte one place toward index 0, SubWord is SBOX on each
byte, and the xor of words is bytewise. [R123, R121] -/
def Obligations.KeyExpansionFollowsRecurrence : Prop :=
  (∀ a b : SWord,
    ((rotWord a)[0] = a[1] ∧ (rotWord a)[1] = a[2] ∧ (rotWord a)[2] = a[3] ∧ (rotWord a)[3] = a[0]) ∧
    ∀ (i : Nat) (h : i < 4), (subWord a)[i] = sbox a[i] ∧ (xorWord a b)[i] = a[i] ^^^ b[i]) ∧
  ∀ k : List Byte, k.length = 16 ∨ k.length = 24 ∨ k.length = 32 →
    let nk := k.length / 4
    let w : Nat → SWord := fun i => (keyExpansion k).getD i zeroWord
    (keyExpansion k).length = 4 * (nk + 7) ∧
    (∀ (i b : Nat) (hb : b < 4), i < nk → (w i)[b] = k.getD (4 * i + b) 0#8) ∧
    (∀ i : Nat, nk ≤ i → i < 4 * (nk + 7) →
      w i = xorWord (w (i - nk))
        (if i % nk = 0 then xorWord (subWord (rotWord (w (i - 1)))) (rcon (i / nk))
         else if nk = 8 ∧ i % nk = 4 then subWord (w (i - 1)) else w (i - 1)))

/-- Two states with the same KEY_LEN that agree on KEY[0 .. KEY_LEN) get the same SCHED, SCHED_VALID, NR and ERR_CODE from
KEY_EXPAND. [R127] -/
def Obligations.KeyExpandDependsOnKeyBytesOnly : Prop :=
  ∀ s s' : State, s.keyLen = s'.keyLen → (∀ (i : Nat) (h : i < 32), i < s.keyLen.toNat → s.key[i] = s'.key[i]) →
    ∃ t t', exec .keyExpand s = .next t ∧ exec .keyExpand s' = .next t' ∧
      t.sched = t'.sched ∧ t.schedValid = t'.schedValid ∧ t.nr = t'.nr ∧ t.errCode = t'.errCode

/-- If a step changes SCHED, SCHED_VALID or NR, it is a reset, or the engine step of a KEY_EXPAND word in fsm. [R126] -/
def Obligations.ScheduleChangesOnlyAtKeyExpandOrReset : Prop :=
  ∀ s t : State, step s = .next t → (t.sched ≠ s.sched ∨ t.schedValid ≠ s.schedValid ∨ t.nr ≠ s.nr) →
    s.nextTurn = .reset ∨ s.nextTurn = .resetWithAccess ∨ (s.nextTurn = .engine ∧ s.fsm = .busy 0x00000001#32)

/-- The property that a valid SCHED is the stored expansion of a key with NR its round count holds at reset and is kept by
every step. [10_state.md section 3, R52, 41_key_schedule.md section 3, R126] -/
def Obligations.ScheduleIsAlwaysAnExpansion : Prop :=
  State.reset.ScheduleOfKey ∧ ∀ s t : State, s.ScheduleOfKey → step s = .next t → t.ScheduleOfKey

/-- For r ≤ 14 (every round key the schedule holds), byte 4c+i of RoundKey(w, r) is byte i of w[4r+c]. [R124] -/
def Obligations.RoundKeyIsFourWords : Prop :=
  ∀ (w : Schedule) (r c i : Nat) (hr : r ≤ 14) (hc : c < 4) (hi : i < 4),
    (roundKey w r)[4 * c + i] = (w[4 * r + c])[i]

/-- Rcon[j] = [rc_j, 0, 0, 0] with rc_1 .. rc_10 = 01 02 04 08 10 20 40 80 1b 36 and rc_j = xtime(rc_(j-1)). [R122] -/
def Obligations.RoundConstants : Prop :=
  ((List.range 10).map fun j => (rcon (j + 1)).toList) =
    [0x01#8, 0x02#8, 0x04#8, 0x08#8, 0x10#8, 0x20#8, 0x40#8, 0x80#8, 0x1b#8, 0x36#8].map (fun b => [b, 0#8, 0#8, 0#8]) ∧
  ∀ j : Nat, 2 ≤ j → rcByte j = xtime (rcByte (j - 1))

/-- For every byte x, INV_SBOX(SBOX(x)) = x and SBOX(INV_SBOX(x)) = x. [R109] -/
def Obligations.SboxTablesInvertEachOther : Prop :=
  ∀ x : Byte, invSbox (sbox x) = x ∧ sbox (invSbox x) = x

/-- For every byte x and bit i, bit i of SBOX(x) is b[i] xor b[i+4] xor b[i+5] xor b[i+6] xor b[i+7] xor c[i] (indices mod
8) with b = inv(x) and c = 0x63. [R106] -/
def Obligations.SboxIsAffineOfInverse : Prop :=
  ∀ (x : Byte) (i : Nat), i < 8 →
    let b := gfInv x
    (sbox x).getLsbD i = (b.getLsbD i ^^ b.getLsbD ((i + 4) % 8) ^^ b.getLsbD ((i + 5) % 8) ^^ b.getLsbD ((i + 6) % 8)
      ^^ b.getLsbD ((i + 7) % 8) ^^ (0x63#8).getLsbD i)

/-- inv(0) = 0; for a ≠ 0 gmul(a, inv(a)) = 1, and any c with gmul(a, c) = 1 is inv(a). [R105] -/
def Obligations.FieldInverseIsUnique : Prop :=
  gfInv 0#8 = 0#8 ∧ ∀ a : Byte, a ≠ 0#8 → gmul a (gfInv a) = 1#8 ∧ ∀ c : Byte, gmul a c = 1#8 → c = gfInv a

/-- For all bytes: gmul(a,b) = gmul(b,a); gmul(gmul(a,b),c) = gmul(a,gmul(b,c)); gmul(a, b xor c) = gmul(a,b) xor
gmul(a,c); gmul(a,1) = a; gmul(a,0) = 0. [40_field_and_sbox.md section 1, R104] -/
def Obligations.FieldMultiplicationLaws : Prop :=
  ∀ a b c : Byte, gmul a b = gmul b a ∧ gmul (gmul a b) c = gmul a (gmul b c) ∧
    gmul a (b ^^^ c) = gmul a b ^^^ gmul a c ∧ gmul a 1#8 = a ∧ gmul a 0#8 = 0#8

/-- For each column c with bytes a0..a3, the bytes of MixColumns are b0..b3 of R143. [R143] -/
def Obligations.MixColumnsMultipliesByTheMatrix : Prop :=
  ∀ (s : Block) (c : Nat) (h : c < 4),
    let a0 := s[4 * c]
    let a1 := s[1 + 4 * c]
    let a2 := s[2 + 4 * c]
    let a3 := s[3 + 4 * c]
    (mixColumns s)[4 * c] = gmul 2#8 a0 ^^^ gmul 3#8 a1 ^^^ a2 ^^^ a3 ∧
    (mixColumns s)[1 + 4 * c] = a0 ^^^ gmul 2#8 a1 ^^^ gmul 3#8 a2 ^^^ a3 ∧
    (mixColumns s)[2 + 4 * c] = a0 ^^^ a1 ^^^ gmul 2#8 a2 ^^^ gmul 3#8 a3 ∧
    (mixColumns s)[3 + 4 * c] = gmul 3#8 a0 ^^^ a1 ^^^ a2 ^^^ gmul 2#8 a3

/-- For each column c with bytes a0..a3, the bytes of InvMixColumns are b0..b3 of R147. [R147] -/
def Obligations.InvMixColumnsMultipliesByTheMatrix : Prop :=
  ∀ (s : Block) (c : Nat) (h : c < 4),
    let a0 := s[4 * c]
    let a1 := s[1 + 4 * c]
    let a2 := s[2 + 4 * c]
    let a3 := s[3 + 4 * c]
    (invMixColumns s)[4 * c] = gmul 0x0e#8 a0 ^^^ gmul 0x0b#8 a1 ^^^ gmul 0x0d#8 a2 ^^^ gmul 0x09#8 a3 ∧
    (invMixColumns s)[1 + 4 * c] = gmul 0x09#8 a0 ^^^ gmul 0x0e#8 a1 ^^^ gmul 0x0b#8 a2 ^^^ gmul 0x0d#8 a3 ∧
    (invMixColumns s)[2 + 4 * c] = gmul 0x0d#8 a0 ^^^ gmul 0x09#8 a1 ^^^ gmul 0x0e#8 a2 ^^^ gmul 0x0b#8 a3 ∧
    (invMixColumns s)[3 + 4 * c] = gmul 0x0b#8 a0 ^^^ gmul 0x0d#8 a1 ^^^ gmul 0x09#8 a2 ^^^ gmul 0x0e#8 a3

/-- For rows and columns 0..3: ShiftRows(s)[r+4c] = s[r+4((c+r) mod 4)] and InvShiftRows(s)[r+4c] = s[r+4((c-r) mod 4)].
[R142, R146] -/
def Obligations.ShiftRowsRotateRows : Prop :=
  ∀ (s : Block) (r c : Nat) (hr : r < 4) (hc : c < 4),
    (shiftRows s)[r + 4 * c] = s[r + 4 * ((c + r) % 4)] ∧
    ∀ (d : Nat) (hd : d < 4), (d + r) % 4 = c → (invShiftRows s)[r + 4 * c] = s[r + 4 * d]

/-- For every block and round key the inverse transforms undo the forward ones and the forward ones the inverse ones, and
AddRoundKey undoes itself; for every schedule, round count and block, InvCipher(Cipher(B, W, Nr), W, Nr) = B and
Cipher(InvCipher(B, W, Nr), W, Nr) = B. [R150] -/
def Obligations.CipherAndInvCipherInvert : Prop :=
  (∀ s k : Block, invSubBytes (subBytes s) = s ∧ invShiftRows (shiftRows s) = s ∧ invMixColumns (mixColumns s) = s ∧
    addRoundKey (addRoundKey s k) k = s ∧ subBytes (invSubBytes s) = s ∧ shiftRows (invShiftRows s) = s ∧
    mixColumns (invMixColumns s) = s) ∧
  ∀ (b : Block) (w : Schedule) (nr : Nat),
    invCipher (cipher b w nr) w nr = b ∧ cipher (invCipher b w nr) w nr = b

/-- With a valid schedule (NR 10, 12 or 14, as R41 has it) ENC_BLOCK completes with DOUT = Cipher(DIN, SCHED, NR) and
ERR_CODE = 0; with SCHED_VALID = 0 with ERR_CODE = 4; nothing else but DONE and fsm changes, DIN included. [R151] -/
def Obligations.EncBlockOutcome : Prop :=
  ∀ s : State,
    (s.HasSchedule → exec .encBlock s =
      .next { s with dout := cipher s.din s.sched s.nr.toNat, errCode := 0#4, done := true, fsm := .idle }) ∧
    (s.schedValid = false → exec .encBlock s = .next { s with errCode := 4#4, done := true, fsm := .idle })

/-- With a valid schedule (NR 10, 12 or 14, as R41 has it) DEC_BLOCK completes with DOUT = InvCipher(DIN, SCHED, NR) and
ERR_CODE = 0; with SCHED_VALID = 0 with ERR_CODE = 4; nothing else but DONE and fsm changes. [R152] -/
def Obligations.DecBlockOutcome : Prop :=
  ∀ s : State,
    (s.HasSchedule → exec .decBlock s =
      .next { s with dout := invCipher s.din s.sched s.nr.toNat, errCode := 0#4, done := true, fsm := .idle }) ∧
    (s.schedValid = false → exec .decBlock s = .next { s with errCode := 4#4, done := true, fsm := .idle })

/-- From every state with a schedule, ENC_BLOCK completes, and DEC_BLOCK on its result with DIN set to DOUT completes with
DOUT the original DIN. [42_block_cipher.md section 5, R152, 42_block_cipher.md section 4, R150] -/
def Obligations.DecryptingTheOutputReturnsTheInput : Prop :=
  ∀ s : State, s.HasSchedule →
    ∃ t u, exec .encBlock s = .next t ∧ exec .decBlock { t with din := t.dout } = .next u ∧ u.dout = s.din ∧ u.errCode = 0#4

/-- For every D: Pad(D) is D followed by N bytes of value N with N = 16 - (len mod 16); its length is a multiple of 16,
above len(D), at most len(D) + 16, and equal to 16·(len(D) div 16 + 1). [R161, R160] -/
def Obligations.PadLengthLaw : Prop :=
  ∀ d : List Byte,
    (∃ n : Nat, n = 16 - d.length % 16 ∧ 1 ≤ n ∧ n ≤ 16 ∧ pad d = d ++ List.replicate n (BitVec.ofNat 8 n)) ∧
    (pad d).length % 16 = 0 ∧ d.length < (pad d).length ∧ (pad d).length ≤ d.length + 16 ∧
    (pad d).length = 16 * (d.length / 16 + 1)

/-- Unpad(D) = R if and only if D is R followed by N bytes of value N for some N from 1 to 16; on all other data, the
empty sequence included, it raises. [R162] -/
def Obligations.UnpadAcceptsExactlyPaddedData : Prop :=
  ∀ d r : List Byte,
    (unpad d = some r ↔ ∃ n : Nat, 1 ≤ n ∧ n ≤ 16 ∧ d = r ++ List.replicate n (BitVec.ofNat 8 n)) ∧ unpad [] = none

/-- For every byte sequence, unpadding its padding gives it back and raises nothing. [R164] -/
def Obligations.UnpadUndoesPad : Prop :=
  ∀ d : List Byte, unpad (pad d) = some d

/-- For every schedule, round count, IV and plaintext of L bytes, the output has 16 + 16·(L div 16 + 1) bytes, starts with
the IV, and byte i of each later block is that of Cipher(padded plaintext block xor previous output block). [R170,
R172] -/
def Obligations.CbcEncCoreChains : Prop :=
  ∀ (w : Schedule) (nr : Nat) (v : Block) (p : List Byte),
    let c := cbcEncCore w nr v p
    c.length = 16 + 16 * (p.length / 16 + 1) ∧ c.take 16 = v.toList ∧
    ∀ i : Nat, i < p.length / 16 + 1 →
      ((c.drop (16 * (i + 1))).take 16) =
        (cipher (xorBlock (blockOfList ((pad p).drop (16 * i))) (blockOfList (c.drop (16 * i)))) w nr).toList

/-- For a buffer of 16(n+1) bytes the padded plaintext has 16n bytes, and its block i is InvCipher(ciphertext block i+1)
xor ciphertext block i. [R171] -/
def Obligations.CbcDecCoreChains : Prop :=
  ∀ (w : Schedule) (nr n : Nat) (c : List Byte), c.length = 16 * (n + 1) →
    (cbcDecCore w nr c).length = 16 * n ∧
    ∀ i : Nat, i < n →
      ((cbcDecCore w nr c).drop (16 * i)).take 16 =
        (xorBlock (invCipher (blockOfList (c.drop (16 * (i + 1)))) w nr) (blockOfList (c.drop (16 * i)))).toList

/-- With a schedule, both windows in range and apart, every source byte read-admitted and every destination byte write-
admitted: CBC_ENCRYPT completes with ERR_CODE = 0, OUT_LEN = OL, IV the drawn value (whatever it is), byte i of
CbcEncCore at DST_ADDR + i, every other byte of memory and every other register unchanged. [44_cbc.md section 2, R174,
20_memory.md section 3, R62, 44_cbc.md section 1, R173] -/
def Obligations.CbcEncryptCompletes : Prop :=
  ∀ s : State, s.mem.wf → s.HasSchedule → s.WindowsOk s.len.toNat (16 + 16 * (s.len.toNat / 16 + 1)) →
    AdmitsAll s.platform .write s.dstAddr.toNat (16 + 16 * (s.len.toNat / 16 + 1)) →
    ∃ t, exec .cbcEncrypt s = .next t ∧
      t.outLen.toNat = 16 + 16 * (s.len.toNat / 16 + 1) ∧ t.iv = Config.entropyDraw s.entropyDraws ∧
      (∀ i : Nat, i < 16 + 16 * (s.len.toNat / 16 + 1) → t.mem.read (s.dstAddr.toNat + i) =
        (cbcEncCore s.sched s.nr.toNat (Config.entropyDraw s.entropyDraws) (sourceBytes s)).getD i 0#8) ∧
      (∀ x : Nat, ¬ (s.dstAddr.toNat ≤ x ∧ x < s.dstAddr.toNat + (16 + 16 * (s.len.toNat / 16 + 1))) →
        t.mem.read x = s.mem.read x) ∧
      t = { s with
        mem := t.mem
        host := { s.host with stale := t.host.stale }
        iv := t.iv
        outLen := t.outLen
        errCode := 0#4
        done := true
        fsm := .idle
        entropyDraws := s.entropyDraws + 1 }

/-- Each check of CBC_ENCRYPT that needs no write, in the order of R192: the first that fails gives its code, OUT_LEN = 0,
DONE = 1, fsm = IDLE, with memory, IV and every other register unchanged. [44_cbc.md section 2, R174, 60_exceptions.md
section 1, R192] -/
def Obligations.CbcEncryptReportsFirstError : Prop :=
  ∀ s : State,
    let l := s.len.toNat
    let ol := 16 + 16 * (l / 16 + 1)
    let src := s.srcAddr.toNat
    let dst := s.dstAddr.toNat
    let reports : BitVec 4 → Prop := fun c =>
      exec .cbcEncrypt s = .next { s with outLen := 0#32, errCode := c, done := true, fsm := .idle }
    let inBoth : Nat → Prop := fun x => (src ≤ x ∧ x < src + l) ∧ (dst ≤ x ∧ x < dst + ol)
    (s.schedValid = false → reports 4#4) ∧
    (s.HasSchedule →
      (4294967296 < src + l ∨ 4294967296 < dst + ol → reports 6#4) ∧
      (src + l ≤ 4294967296 → dst + ol ≤ 4294967296 →
        ((∃ x, inBoth x) → reports 7#4) ∧
        ((¬ ∃ x, inBoth x) → ¬ AdmitsAll s.platform .read src l → reports 8#4)))

/-- With a schedule, LEN ≥ 16 and LEN - 16 a multiple of 16, windows in range and apart, the source read-admitted, the
deciphered data well padded, and every byte of the plaintext's window write-admitted: CBC_DECRYPT completes with
ERR_CODE = 0, OUT_LEN the plaintext's length, IV the first 16 source bytes, the plaintext at DST_ADDR, every other
byte and register unchanged. [44_cbc.md section 2, R175, 20_memory.md section 3, R62] -/
def Obligations.CbcDecryptCompletes : Prop :=
  ∀ (s : State) (pt : List Byte), s.mem.wf → s.HasSchedule → 16 ≤ s.len.toNat → (s.len.toNat - 16) % 16 = 0 →
    s.WindowsOk s.len.toNat (s.len.toNat - 16) →
    unpad (cbcDecCore s.sched s.nr.toNat (sourceBytes s)) = some pt →
    AdmitsAll s.platform .write s.dstAddr.toNat pt.length →
    ∃ t, exec .cbcDecrypt s = .next t ∧ t.outLen.toNat = pt.length ∧
      (∀ (i : Nat) (h : i < 16), t.iv[i] = (sourceBytes s).getD i 0#8) ∧
      (∀ i : Nat, i < pt.length → t.mem.read (s.dstAddr.toNat + i) = pt.getD i 0#8) ∧
      (∀ x : Nat, ¬ (s.dstAddr.toNat ≤ x ∧ x < s.dstAddr.toNat + pt.length) → t.mem.read x = s.mem.read x) ∧
      t = { s with
        mem := t.mem
        host := { s.host with stale := t.host.stale }
        iv := t.iv
        outLen := t.outLen
        errCode := 0#4
        done := true
        fsm := .idle }

/-- Each check of CBC_DECRYPT that needs no write, in the order of R192: the first that fails gives its code and OUT_LEN =
0 with memory unchanged; IV is unchanged before the source read and holds the first 16 source bytes on
INVALID_PADDING. [44_cbc.md section 2, R175, 60_exceptions.md section 1, R192] -/
def Obligations.CbcDecryptReportsFirstError : Prop :=
  ∀ s : State,
    let l := s.len.toNat
    let wl := l - 16
    let src := s.srcAddr.toNat
    let dst := s.dstAddr.toNat
    let reports : BitVec 4 → Prop := fun c =>
      exec .cbcDecrypt s = .next { s with outLen := 0#32, errCode := c, done := true, fsm := .idle }
    let inBoth : Nat → Prop := fun x => (src ≤ x ∧ x < src + l) ∧ (dst ≤ x ∧ x < dst + wl)
    (s.schedValid = false → reports 4#4) ∧
    (s.HasSchedule →
      (l < 16 ∨ (l - 16) % 16 ≠ 0 → reports 2#4) ∧
      (16 ≤ l → (l - 16) % 16 = 0 →
        (4294967296 < src + l ∨ 4294967296 < dst + wl → reports 6#4) ∧
        (src + l ≤ 4294967296 → dst + wl ≤ 4294967296 →
          ((∃ x, inBoth x) → reports 7#4) ∧
          ((¬ ∃ x, inBoth x) →
            (¬ AdmitsAll s.platform .read src l → reports 8#4) ∧
            (AdmitsAll s.platform .read src l →
              unpad (cbcDecCore s.sched s.nr.toNat (sourceBytes s)) = none →
              ∃ t, exec .cbcDecrypt s = .next t ∧
                t = { s with iv := t.iv, outLen := 0#32, errCode := 3#4, done := true, fsm := .idle } ∧
                ∀ (i : Nat) (h : i < 16), t.iv[i] = (sourceBytes s).getD i 0#8)))))

/-- With the earlier checks passed: if a source byte refuses the read, BUS_ERROR, with memory and every register but
OUT_LEN, ERR_CODE, DONE and fsm unchanged; else, if a byte of the output window [DST_ADDR, DST_ADDR + n) refuses the
write, BUS_ERROR with DONE = 1, fsm = IDLE, OUT_LEN = 0, IV the drawn value (CBC_ENCRYPT) or the first 16 source bytes
(CBC_DECRYPT), each admitted byte of the window takes a free value and every byte outside it and every other register
is unchanged; for CBC_ENCRYPT n = OL, for CBC_DECRYPT n is the unpadded plaintext's length (IV: R174, R175, R193).
[R65] -/
def Obligations.WriteBusErrorHavocsTheWindow : Prop :=
  ∀ (s : State) (i : Instr) (wl : Nat), s.mem.wf → s.HasSchedule →
    (i = .cbcEncrypt ∧ wl = 16 + 16 * (s.len.toNat / 16 + 1) ∨
      i = .cbcDecrypt ∧ 16 ≤ s.len.toNat ∧ (s.len.toNat - 16) % 16 = 0 ∧ wl = s.len.toNat - 16) →
    s.srcAddr.toNat + s.len.toNat ≤ 4294967296 → s.dstAddr.toNat + wl ≤ 4294967296 →
    overlaps s.srcAddr.toNat s.len.toNat s.dstAddr.toNat wl = false →
    (¬ AdmitsAll s.platform .read s.srcAddr.toNat s.len.toNat →
      exec i s = .next { s with outLen := 0#32, errCode := 8#4, done := true, fsm := .idle }) ∧
    (∀ n : Nat, AdmitsAll s.platform .read s.srcAddr.toNat s.len.toNat →
      (i = .cbcEncrypt ∧ n = wl ∨ i = .cbcDecrypt ∧ ∃ pt : List Byte, n = pt.length ∧
        unpad (cbcDecCore s.sched s.nr.toNat (sourceBytes s)) = some pt) →
      ¬ AdmitsAll s.platform .write s.dstAddr.toNat n →
      ∃ t, exec i s = .next t ∧
        t = { s with
          mem := t.mem
          host := { s.host with stale := t.host.stale }
          iv := t.iv
          outLen := 0#32
          errCode := 8#4
          done := true
          fsm := .idle
          entropyDraws := t.entropyDraws
          havocDraws := t.havocDraws } ∧
        (i = .cbcEncrypt → t.iv = Config.entropyDraw s.entropyDraws) ∧
        (i = .cbcDecrypt → ∀ (j : Nat) (h : j < 16), t.iv[j] = (sourceBytes s).getD j 0#8) ∧
        ∀ x : Nat, t.mem.read x =
          if (s.dstAddr.toNat ≤ x ∧ x < s.dstAddr.toNat + n) ∧ memAdmit s.platform .write x = true
          then Config.havocByte (s.havocDraws + (x - s.dstAddr.toNat)) else s.mem.read x)

/-- If a CBC command ends in NO_SCHEDULE, TRUNCATED_INPUT, RANGE, OVERLAP, INVALID_PADDING or a BUS_ERROR with a source
byte refused, memory is unchanged and OUT_LEN = 0; if it ends in any error and a byte changed, the error is BUS_ERROR
and the byte is a write-admitted byte of the output window, whose length is OL for CBC_ENCRYPT and the unpadded
plaintext's for CBC_DECRYPT. [R178] -/
def Obligations.NoPartialOutput : Prop :=
  ∀ (s t : State) (i : Instr), (i = .cbcEncrypt ∨ i = .cbcDecrypt) → exec i s = .next t → t.errCode ≠ 0#4 →
    t.outLen = 0#32 ∧
    (t.errCode ≠ 8#4 ∨ ¬ AdmitsAll s.platform .read s.srcAddr.toNat s.len.toNat → t.mem = s.mem) ∧
    ∀ x : Nat, t.mem.read x ≠ s.mem.read x →
      t.errCode = 8#4 ∧ memAdmit s.platform .write x = true ∧ s.dstAddr.toNat ≤ x ∧
      x < s.dstAddr.toNat + (if i = .cbcEncrypt then 16 + 16 * (s.len.toNat / 16 + 1)
        else ((unpad (cbcDecCore s.sched s.nr.toNat (sourceBytes s))).getD []).length)

/-- Let CBC_ENCRYPT on s succeed, giving t. If u has the same schedule, LEN = OUT_LEN of t, a copy of t's output as its
source bytes, windows in range and apart with the source read-admitted and LEN(s) destination bytes write-admitted,
then CBC_DECRYPT on u succeeds with OUT_LEN = LEN of s and writes at DST_ADDR the bytes CBC_ENCRYPT read; for every
key, draw and length. [R176] -/
def Obligations.CbcRoundTrip : Prop :=
  ∀ s t u : State, s.mem.wf → exec .cbcEncrypt s = .next t → t.errCode = 0#4 →
    u.mem.wf → u.sched = s.sched → u.nr = s.nr → u.schedValid = s.schedValid → u.len = t.outLen →
    (∀ i : Nat, i < t.outLen.toNat → (sourceBytes u).getD i 0#8 = t.mem.read (s.dstAddr.toNat + i)) →
    u.WindowsOk u.len.toNat (u.len.toNat - 16) → AdmitsAll u.platform .write u.dstAddr.toNat s.len.toNat →
    ∃ v, exec .cbcDecrypt u = .next v ∧ v.errCode = 0#4 ∧ v.outLen = s.len ∧
      ∀ i : Nat, i < s.len.toNat → v.mem.read (u.dstAddr.toNat + i) = (sourceBytes s).getD i 0#8

/-- Whenever KEY_EXPAND, ENC_BLOCK or DEC_BLOCK answers a next state, every byte of memory reads as before and every
component is unchanged except SCHED, SCHED_VALID, NR (KEY_EXPAND only), DOUT (a successful block command only),
ERR_CODE, DONE and fsm. [30_encoding.md section 2, R83, 41_key_schedule.md section 3, R125, 42_block_cipher.md section
5, R151] -/
def Obligations.RegisterCommandsFrame : Prop :=
  ∀ (s t : State) (i : Instr), (i = .keyExpand ∨ i = .encBlock ∨ i = .decBlock) → exec i s = .next t →
    t = { s with
      sched := t.sched
      schedValid := t.schedValid
      nr := t.nr
      dout := t.dout
      errCode := t.errCode
      done := true
      fsm := .idle } ∧
    (i ≠ .keyExpand → t.sched = s.sched ∧ t.schedValid = s.schedValid ∧ t.nr = s.nr) ∧
    (i = .keyExpand ∨ t.errCode ≠ 0#4 → t.dout = s.dout) ∧ ∀ x : Nat, t.mem.read x = s.mem.read x

/-- Whenever CBC_ENCRYPT or CBC_DECRYPT answers a next state, every component but IV, OUT_LEN, ERR_CODE, DONE and fsm is
unchanged (the model's own counters and the host's stale bytes aside), and every byte outside [DST_ADDR, DST_ADDR + n)
reads as before, n being OL for CBC_ENCRYPT and the unpadded length for CBC_DECRYPT. [30_encoding.md section 2, R83,
44_cbc.md section 2, R174, 44_cbc.md section 2, R175] -/
def Obligations.CbcCommandsFrame : Prop :=
  ∀ (s t : State) (i : Instr), (i = .cbcEncrypt ∨ i = .cbcDecrypt) → exec i s = .next t →
    t = { s with
      mem := t.mem
      host := { s.host with stale := t.host.stale }
      iv := t.iv
      outLen := t.outLen
      errCode := t.errCode
      done := true
      fsm := .idle
      entropyDraws := t.entropyDraws
      havocDraws := t.havocDraws } ∧
    (i = .cbcEncrypt → ∀ x : Nat,
      ¬ (s.dstAddr.toNat ≤ x ∧ x < s.dstAddr.toNat + (16 + 16 * (s.len.toNat / 16 + 1))) →
      t.mem.read x = s.mem.read x) ∧
    (i = .cbcDecrypt → ∀ x : Nat,
      ¬ (s.dstAddr.toNat ≤ x ∧ x < s.dstAddr.toNat +
        ((unpad (cbcDecCore s.sched s.nr.toNat (sourceBytes s))).getD []).length) →
      t.mem.read x = s.mem.read x)

/-- While BUSY in a state that meets Inv, the engine step answers a next state, whatever the word and the operands: DONE =
1, fsm = IDLE, ERR_CODE at most 8. No error stops the block. [60_exceptions.md section 1, R190, 60_exceptions.md
section 1, R191, 10_state.md section 1, R31] -/
def Obligations.EveryCommandEndsOnce : Prop :=
  ∀ s : State, s.Inv → s.busy = true →
    ∃ t, engineStep s = .next t ∧ t.done = true ∧ t.fsm = .idle ∧ t.errCode.toNat ≤ 8

/-- Inv holds at State.reset: memory canonical and in the address space, ERR_CODE a code of R191, nothing pending, the
schedule in its invalid all-zero form. [10_state.md section 5, R58, 10_state.md section 3, R52] -/
def Obligations.ResetStateMeetsInvariant : Prop :=
  State.reset.Inv

/-- If s meets Inv and step s answers t, then t meets Inv: memory stays canonical and inside the 32-bit address space,
ERR_CODE stays a code of R191, DONE and ERR_CODE are 0 while BUSY, and the schedule is valid with NR 10, 12 or 14 and
a zero tail, or invalid and all zero. [10_state.md section 3, R52, 10_state.md section 4, R54, 60_exceptions.md
section 1, R191, 20_memory.md section 3, R62] -/
def Obligations.StepKeepsInvariant : Prop :=
  ∀ s t : State, s.Inv → step s = .next t → t.Inv

/-- If the block is BUSY and the listed turns are all the host's, then after one step more than there are listed turns the
command has completed, whenever those steps answer next states; and they do when the host has no access to make and
the state meets Inv. R219 gives finitely many host steps and no bound; the bound is the model's choice, log 4's
default that the engine moves when no turn is listed. [70_reset_and_hazards.md section 3, R219, 10_state.md section 1,
R31] -/
def Obligations.BusyReachesItsEngineStep : Prop :=
  ∀ s : State, s.busy = true → (∀ u ∈ s.turns, u = .host) →
    (∀ t, stepTimes (s.turns.length + 1) s = .next t → t.fsm = .idle ∧ t.done = true) ∧
    (s.Inv → s.host.program = [] → ∃ t, stepTimes (s.turns.length + 1) s = .next t)

/-- On every platform a CMD write of CBC_ENCRYPT or CBC_DECRYPT while IDLE puts its source window and its output window
under duty: OL bytes for CBC_ENCRYPT; for CBC_DECRYPT, if the command run on that state succeeds the window is exactly
its output, and whatever it answers every byte it changes lies in the window (log 8); while a duty stands, a host read
or write of its destination window and a host write of its source window are refused; a duty ends only in a host step
that answers the STATUS word with BUSY = 0. [20_memory.md section 4, R66, 93_implementation_defined.md section 1, row
8] -/
def Obligations.DmaDutyIsEnforced : Prop :=
  (∀ (s : State) (w : Word) (rest : List HostOp), s.nextTurn = .host → s.fsm = .idle →
    s.host.program = .write .w32 (s.platform.base + 0x0C#32) w :: rest → (w = 0x00000004#32 ∨ w = 0x00000005#32) →
    ∃ t d, step s = .next t ∧ t.fsm = .busy w ∧ t.host.duties = d :: s.host.duties ∧
      d.src = s.srcAddr.toNat ∧ d.srcLen = s.len.toNat ∧ d.dst = s.dstAddr.toNat ∧
      (w = 0x00000004#32 → d.dstLen = 16 + 16 * (s.len.toNat / 16 + 1)) ∧
      ∀ u, engineStep t = .next u → (u.errCode = 0#4 → d.dstLen = u.outLen.toNat) ∧
        ∀ x : Nat, u.mem.read x ≠ t.mem.read x → d.dst ≤ x ∧ x < d.dst + d.dstLen) ∧
  (∀ (s : State) (d : DmaDuty) (a : Addr) (b : Byte), d ∈ s.host.duties →
    (d.dst ≤ a.toNat ∧ a.toNat < d.dst + d.dstLen →
      hostOp (.memRead a) s = .refused .dmaDutyBroken ∧ hostOp (.memWrite a b) s = .refused .dmaDutyBroken) ∧
    (d.src ≤ a.toNat ∧ a.toNat < d.src + d.srcLen → hostOp (.memWrite a b) s = .refused .dmaDutyBroken)) ∧
  (∀ (s t : State) (d : DmaDuty), d ∈ s.host.duties → step s = .next t → d ∉ t.host.duties →
    s.nextTurn = .host ∧ s.busy = false ∧ t.host.responses = .data (regRead 0x08#8 s) :: s.host.responses)

/-- A host read of STATUS while IDLE ends every duty. Where DMA is coherent or no byte is stale in the host's caches (the
stale set is the model's, log 9), every later host read of a memory byte, after any accesses that are register reads,
WAIT polls, memory reads, cache cleans or writes of other bytes, answers the byte memory held at the STATUS read, and
every later register read answers what it would have answered there. That the host reaches every byte of memory is the
model's choice, log 16. [20_memory.md section 4, R67, 20_memory.md section 4, R66] -/
def Obligations.StatusReadOrdersCompletion : Prop :=
  ∀ (s : State) (rest : List HostOp), s.nextTurn = .host → s.fsm = .idle →
    s.host.program = .read .w32 (s.platform.base + 0x08#32) :: rest →
    s.platform.dmaCoherent = true ∨ s.host.stale = [] →
    ∃ t, step s = .next t ∧ t.host.duties = [] ∧ t.mem = s.mem ∧ t.block = s.block ∧
      ∀ (a : Addr) (ops : List HostOp) (v : State),
        (∀ o ∈ ops, (∃ w b, o = .read w b) ∨ o = .wait ∨ (∃ b, o = .memRead b) ∨ (∃ b n, o = .cacheClean b n) ∨
          ∃ b y, b ≠ a ∧ o = .memWrite b y) →
        hostOps ops t = .next v →
        (∀ off : BitVec 8, regRead off v = regRead off s) ∧
        ∃ u, hostOp (.memRead a) v = .next u ∧ u.host.responses = .byte (s.mem.read a.toNat) :: v.host.responses

/-- A CBC command reads LEN bytes from SRC_ADDR through the DMA port's view of memory, which is memory itself where DMA is
coherent. With DMA_COHERENT false: a CMD write that starts a CBC command always starts it, and DMA reads the byte
memory holds for a source byte that is clean and a free value for one that is not; a host read of a stale byte answers
a free value; with no duty standing, a host read after an invalidate over a byte DMA wrote answers that byte, also
where the host had written it before. A host write of a byte outside every duty stores it and leaves it uncleaned and
not stale; a clean over a byte that is not stale makes it clean and keeps its value; so after a write, a clean and the
CMD write of a CBC command, DMA reads the byte written. The free values and the two sets of bytes are the model's,
logs 9 and 22, and that the host reaches every byte of memory is, log 16. [20_memory.md section 4, R68, 20_memory.md
section 4, R67, 20_memory.md section 3, R64, 20_memory.md section 4, R66] -/
def Obligations.NonCoherentDmaNeedsMaintenance : Prop :=
  (∀ s : State, (sourceBytes s).length = s.len.toNat ∧
    (∀ i : Nat, i < s.len.toNat → (sourceBytes s).getD i 0#8 = s.dmaView.read (s.srcAddr.toNat + i)) ∧
    (s.platform.dmaCoherent = true → s.dmaView = s.mem)) ∧
  (∀ (s : State) (w : Word) (rest : List HostOp), s.mem.wf → s.platform.dmaCoherent = false → s.nextTurn = .host →
    s.fsm = .idle → s.host.program = .write .w32 (s.platform.base + 0x0C#32) w :: rest →
    (w = 0x00000004#32 ∨ w = 0x00000005#32) →
    ∃ t, step s = .next t ∧ t.fsm = .busy w ∧ t.mem = s.mem ∧ ∀ x : Addr,
      (x ∈ s.host.dirty ∧ s.srcAddr.toNat ≤ x.toNat ∧ x.toNat < s.srcAddr.toNat + s.len.toNat →
        ∃ k : Nat, s.cacheDraws ≤ k ∧ k < t.cacheDraws ∧ t.dmaView.read x.toNat = Config.cacheByte k) ∧
      (x ∉ s.host.dirty → t.dmaView.read x.toNat = s.mem.read x.toNat)) ∧
  (∀ (s : State) (x : Addr), s.platform.dmaCoherent = false → s.host.duties = [] → x.toNat ∈ s.host.stale →
    ∃ t, hostOp (.memRead x) s = .next t ∧ t.cacheDraws = s.cacheDraws + 1 ∧ t.mem = s.mem ∧
      t.host.responses = .byte (Config.cacheByte s.cacheDraws) :: s.host.responses) ∧
  (∀ (s : State) (a : Nat) (b : List Byte) (x base : Addr) (n : Nat), s.mem.wf → s.platform.dmaCoherent = false →
    s.host.duties = [] → a ≤ x.toNat → x.toNat < a + b.length → base.toNat ≤ x.toNat → x.toNat < base.toNat + n →
    ∃ t u, hostOp (.cacheInvalidate base n) (s.dmaWrite a b) = .next t ∧ hostOp (.memRead x) t = .next u ∧
      u.host.responses = .byte (b.getD (x.toNat - a) 0#8) :: t.host.responses) ∧
  (∀ (s : State) (x : Addr) (b : Byte), s.mem.wf → s.platform.dmaCoherent = false → s.host.duties = [] →
    ∃ t, hostOp (.memWrite x b) s = .next t ∧ t.block = s.block ∧ x ∈ t.host.dirty ∧ x.toNat ∉ t.host.stale ∧
      ∀ y : Nat, t.mem.read y = if y = x.toNat then b else s.mem.read y) ∧
  (∀ (s : State) (base : Addr) (n : Nat), s.platform.dmaCoherent = false → s.host.duties = [] →
    ∃ t, hostOp (.cacheClean base n) s = .next t ∧ t.block = s.block ∧ t.host.stale = s.host.stale ∧
      (∀ x : Addr, x ∈ t.host.dirty ↔
        x ∈ s.host.dirty ∧ ¬ (base.toNat ≤ x.toNat ∧ x.toNat < base.toNat + n)) ∧
      ∀ x : Addr, x.toNat ∉ s.host.stale ∨ x ∉ s.host.dirty ∨
        ¬ (base.toNat ≤ x.toNat ∧ x.toNat < base.toNat + n) → t.mem.read x.toNat = s.mem.read x.toNat) ∧
  (∀ (s : State) (x base : Addr) (b : Byte) (n : Nat) (w : Word), s.mem.wf → s.platform.dmaCoherent = false →
    s.host.duties = [] → s.fsm = .idle → base.toNat ≤ x.toNat → x.toNat < base.toNat + n →
    (w = 0x00000004#32 ∨ w = 0x00000005#32) →
    ∃ t, hostOps [.memWrite x b, .cacheClean base n, .write .w32 (s.platform.base + 0x0C#32) w] s = .next t ∧
      t.fsm = .busy w ∧ t.dmaView.read x.toNat = b)

/-- While BUSY, a host write to an aligned offset other than STATUS: with the host's turn first, only WR_IGNORED is set;
with the engine's turn first, the block is then IDLE and the write is performed on it, a CMD write included. A STATUS
write ordered first that does not clear WR_IGNORED, with DONE = 0, changes nothing. [60_exceptions.md section 2, R197,
10_state.md section 4, R54] -/
def Obligations.WriteAndEngineStepInEitherOrder : Prop :=
  ∀ (s : State) (off : BitVec 8) (v : Word) (us : List Turn) (rest : List HostOp), s.busy = true → off.toNat % 4 = 0 →
    s.host.program = .write .w32 (s.platform.base + off.setWidth 32) v :: rest →
    (off ≠ 0x08#8 → s.turns = .host :: us →
      ∃ t, step s = .next t ∧ t.block = { s.block with wrIgnored := true } ∧ t.mem = s.mem) ∧
    (off = 0x08#8 → s.done = false → v.getLsbD 4 = false → s.turns = .host :: us →
      ∃ t, step s = .next t ∧ t.block = s.block ∧ t.mem = s.mem) ∧
    (s.turns = .engine :: .host :: us → ∀ t, step s = .next t →
      t.fsm = .idle ∧ ∃ u, step t = .next u ∧ u.block = (regWrite off v t).block ∧ u.mem = t.mem)

/-- Byte i of SubBytes(s) is SBOX(s[i]), of InvSubBytes(s) INV_SBOX(s[i]), of AddRoundKey(s, k) s[i] xor k[i]. Cipher adds
round key 0, applies SubBytes, ShiftRows, MixColumns and AddRoundKey with round keys 1 .. Nr-1 in order, then
SubBytes, ShiftRows and AddRoundKey with round key Nr. InvCipher adds round key Nr, applies InvShiftRows, InvSubBytes,
AddRoundKey and InvMixColumns with round keys Nr-1 down to 1, then InvShiftRows, InvSubBytes and AddRoundKey with
round key 0. [R148, R149, R141, R144, R145] -/
def Obligations.CiphersFollowTheirRounds : Prop :=
  (∀ (s k : Block) (i : Nat) (h : i < 16),
    (subBytes s)[i] = sbox s[i] ∧ (invSubBytes s)[i] = invSbox s[i] ∧ (addRoundKey s k)[i] = s[i] ^^^ k[i]) ∧
  ∀ (b : Block) (w : Schedule) (nr : Nat),
    cipher b w nr =
      addRoundKey (shiftRows (subBytes ((List.range (nr - 1)).foldl
        (fun s r => addRoundKey (mixColumns (shiftRows (subBytes s))) (roundKey w (r + 1)))
        (addRoundKey b (roundKey w 0))))) (roundKey w nr) ∧
    invCipher b w nr =
      addRoundKey (invSubBytes (invShiftRows ((List.range (nr - 1)).reverse.foldl
        (fun s r => invMixColumns (addRoundKey (invSubBytes (invShiftRows s)) (roundKey w (r + 1))))
        (addRoundKey b (roundKey w nr))))) (roundKey w 0)
end

