-- ==== Sys2Proof/Laws/Aes.lean ====
section
/-! SUPPORT. The cryptographic functions' small laws: the field multiplication is bilinear, the schedule's recursion, and the
lengths and blocks of the chained sequences. -/

namespace Sys2Proof.Machine

/-! ### The field (40_field_and_sbox.md R104) -/

theorem gmulLoop_acc (b : Byte) (n i : Nat) (a r r' : Byte) :
    gmulLoop b n i a (r ^^^ r') = gmulLoop b n i a r ^^^ r' := by
  induction n generalizing i a r with
  | zero => rfl
  | succ n ih =>
    simp only [gmulLoop]
    split
    · rw [← ih]; congr 1; ac_rfl
    · exact ih _ _ _

/-- The sum so far can be taken out of the loop. -/
theorem gmulLoop_from_zero (b : Byte) (n i : Nat) (a r : Byte) :
    gmulLoop b n i a r = r ^^^ gmulLoop b n i a 0#8 := by
  have := gmulLoop_acc b n i a 0#8 r
  rw [BitVec.zero_xor] at this
  rw [this, BitVec.xor_comm]

theorem xtime_xor (a b : Byte) : xtime (a ^^^ b) = xtime a ^^^ xtime b := by
  unfold xtime
  rw [BitVec.getLsbD_xor]
  cases a.getLsbD 7 <;> cases b.getLsbD 7 <;>
    simp only [BitVec.shiftLeft_xor_distrib, Bool.xor_true, Bool.xor_false, Bool.not_true, Bool.not_false, if_true,
      if_false, Bool.false_eq_true]
  · ac_rfl
  · ac_rfl
  · rw [show a <<< 1 ^^^ 27#8 ^^^ (b <<< 1 ^^^ 27#8) = (27#8 ^^^ 27#8) ^^^ (a <<< 1 ^^^ b <<< 1) by ac_rfl]
    simp

theorem gmul_xor_left (a a' b : Byte) : gmul (a ^^^ a') b = gmul a b ^^^ gmul a' b := by
  suffices h : ∀ n i x x', gmulLoop b n i (x ^^^ x') 0#8 = gmulLoop b n i x 0#8 ^^^ gmulLoop b n i x' 0#8 from h 8 0 a a'
  intro n
  induction n with
  | zero => simp [gmulLoop]
  | succ n ih =>
    intro i x x'
    simp only [gmulLoop, xtime_xor]
    split
    · rw [gmulLoop_from_zero, gmulLoop_from_zero (a := xtime x), gmulLoop_from_zero (a := xtime x'), ih]
      simp only [BitVec.zero_xor]
      ac_rfl
    · exact ih _ _ _

/-! ### The key schedule (41_key_schedule.md R123, R124) -/

theorem extendSchedule_length (nk n : Nat) (w : List SWord) : (extendSchedule nk n w).length = w.length + n := by
  induction n generalizing w with
  | zero => rfl
  | succ n ih => rw [extendSchedule, ih]; simp; omega

/-- Extending the schedule leaves the words it has. -/
theorem extendSchedule_prefix (nk n : Nat) (w : List SWord) (i : Nat) (h : i < w.length) :
    (extendSchedule nk n w).getD i zeroWord = w.getD i zeroWord := by
  induction n generalizing w with
  | zero => rfl
  | succ n ih =>
    rw [extendSchedule, ih _ (by simp; omega)]
    simp [List.getElem?_append, h]

@[simp] theorem keyWords_length (k : List Byte) (nk : Nat) : (keyWords k nk).length = nk := by simp [keyWords]

theorem keyExpansion_eq (k : List Byte) : keyExpansion k =
    extendSchedule (k.length / 4) (4 * (k.length / 4 + 7) - k.length / 4) (keyWords k (k.length / 4)) := rfl

theorem keyExpansion_length (k : List Byte) : (keyExpansion k).length = 4 * (k.length / 4 + 7) := by
  rw [keyExpansion_eq, extendSchedule_length, keyWords_length]
  omega

theorem storeSchedule_getElem (w : List SWord) (i : Nat) (h : i < 60) : (storeSchedule w)[i] = w.getD i zeroWord := by
  simp [storeSchedule]

theorem zeroSchedule_getElem (i : Nat) (h : i < 60) : zeroSchedule[i] = zeroWord := by
  simp [zeroSchedule]; decide

/-- Past the expanded words the storage is zero (10_state.md R52). -/
theorem storeSchedule_tail (k : List Byte) (i : Nat) (hi : i < 60) (h : 4 * (k.length / 4 + 7) ≤ i) :
    (storeSchedule (keyExpansion k))[i] = zeroWord := by
  rw [storeSchedule_getElem _ _ hi, List.getD_eq_default]
  rw [keyExpansion_length]
  exact h

/-! ### Blocks in sequences (44_cbc.md R170-R172) -/

theorem cbcEncBlocks_length (w : Schedule) (nr n : Nat) (v : Block) (p : List Byte) :
    (cbcEncBlocks w nr n v p).length = n := by
  induction n generalizing v p with
  | zero => rfl
  | succ n ih => simp [cbcEncBlocks, ih]

theorem cbcDecBlocks_length (w : Schedule) (nr n : Nat) (v : Block) (c : List Byte) :
    (cbcDecBlocks w nr n v c).length = n := by
  induction n generalizing v c with
  | zero => rfl
  | succ n ih => simp [cbcDecBlocks, ih]

/-- Blocks joined to a byte sequence have 16 bytes each. -/
theorem joinBlocks_length (l : List Block) : (l.flatMap Vector.toList).length = 16 * l.length := by
  induction l with
  | nil => rfl
  | cons x l ih => simp [ih]; omega

/-- Dropping 16·i bytes drops i blocks. -/
theorem joinBlocks_drop (l : List Block) (i : Nat) :
    (l.flatMap Vector.toList).drop (16 * i) = (l.drop i).flatMap Vector.toList := by
  induction l generalizing i with
  | nil => simp
  | cons x l ih =>
    cases i with
    | zero => rfl
    | succ i =>
      have h : x.toList.length = 16 := by simp
      rw [List.flatMap_cons, List.drop_append, h, List.drop_eq_nil_of_le (by rw [h]; omega), List.nil_append,
        show 16 * (i + 1) - 16 = 16 * i by omega, ih]
      rfl

theorem take_block_append (x : Block) (l : List Byte) : (x.toList ++ l).take 16 = x.toList := by
  rw [List.take_append_of_le_length (by simp), List.take_of_length_le (by simp)]

theorem blockOfList_append (x : Block) (l : List Byte) : blockOfList (x.toList ++ l) = x := by
  apply Vector.ext
  intro i h
  simp [blockOfList, List.getElem?_append]

theorem pad_length (d : List Byte) : (pad d).length = 16 * (d.length / 16 + 1) := by
  simp only [pad, padCount, List.length_append, List.length_replicate]
  omega

theorem cbcEncCore_length (w : Schedule) (nr : Nat) (v : Block) (p : List Byte) :
    (cbcEncCore w nr v p).length = cipherLen p.length := by
  rw [cbcEncCore, joinBlocks_length, List.length_cons, cbcEncBlocks_length, pad_length, cipherLen]
  omega

theorem cbcDecCore_length (w : Schedule) (nr : Nat) (c : List Byte) :
    (cbcDecCore w nr c).length = 16 * ((c.length - 16) / 16) := by
  rw [cbcDecCore, joinBlocks_length, cbcDecBlocks_length]

/-- What Unpad accepts is shorter than its input by 1 to 16 bytes (43_padding.md R162). -/
theorem unpad_length {d r : List Byte} (h : unpad d = some r) : r.length < d.length ∧ d.length ≤ r.length + 16 := by
  unfold unpad at h
  split at h
  · cases h
  · split at h
    · cases h
    · split at h
      · cases h
      · split at h
        · cases h
          rw [List.length_take]
          omega
        · cases h

end Sys2Proof.Machine
end

