-- ==== Sys2Proof/Laws/State.lean ====
section
/-! SUPPORT. One lemma per field of State and named update, each true by rfl, so that no later proof unfolds a record update. -/

namespace Sys2Proof.Machine

section
variable (s : State) (c : BitVec 4)

@[simp] theorem State.finish_irqEn : (s.finish c).irqEn = s.irqEn := rfl
@[simp] theorem State.finish_done : (s.finish c).done = true := rfl
@[simp] theorem State.finish_wrIgnored : (s.finish c).wrIgnored = s.wrIgnored := rfl
@[simp] theorem State.finish_errCode : (s.finish c).errCode = c := rfl
@[simp] theorem State.finish_keyLen : (s.finish c).keyLen = s.keyLen := rfl
@[simp] theorem State.finish_len : (s.finish c).len = s.len := rfl
@[simp] theorem State.finish_outLen : (s.finish c).outLen = s.outLen := rfl
@[simp] theorem State.finish_srcAddr : (s.finish c).srcAddr = s.srcAddr := rfl
@[simp] theorem State.finish_dstAddr : (s.finish c).dstAddr = s.dstAddr := rfl
@[simp] theorem State.finish_rkSel : (s.finish c).rkSel = s.rkSel := rfl
@[simp] theorem State.finish_key : (s.finish c).key = s.key := rfl
@[simp] theorem State.finish_iv : (s.finish c).iv = s.iv := rfl
@[simp] theorem State.finish_din : (s.finish c).din = s.din := rfl
@[simp] theorem State.finish_dout : (s.finish c).dout = s.dout := rfl
@[simp] theorem State.finish_sched : (s.finish c).sched = s.sched := rfl
@[simp] theorem State.finish_schedValid : (s.finish c).schedValid = s.schedValid := rfl
@[simp] theorem State.finish_nr : (s.finish c).nr = s.nr := rfl
@[simp] theorem State.finish_fsm : (s.finish c).fsm = .idle := rfl
@[simp] theorem State.finish_mem : (s.finish c).mem = s.mem := rfl
@[simp] theorem State.finish_platform : (s.finish c).platform = s.platform := rfl
@[simp] theorem State.finish_host : (s.finish c).host = s.host := rfl
@[simp] theorem State.finish_turns : (s.finish c).turns = s.turns := rfl
@[simp] theorem State.finish_entropyDraws : (s.finish c).entropyDraws = s.entropyDraws := rfl
@[simp] theorem State.finish_havocDraws : (s.finish c).havocDraws = s.havocDraws := rfl
@[simp] theorem State.finish_cacheDraws : (s.finish c).cacheDraws = s.cacheDraws := rfl

end

section
variable (s : State) (w : Word)

@[simp] theorem State.startCommand_irqEn : (s.startCommand w).irqEn = s.irqEn := rfl
@[simp] theorem State.startCommand_done : (s.startCommand w).done = false := rfl
@[simp] theorem State.startCommand_wrIgnored : (s.startCommand w).wrIgnored = s.wrIgnored := rfl
@[simp] theorem State.startCommand_errCode : (s.startCommand w).errCode = 0#4 := rfl
@[simp] theorem State.startCommand_keyLen : (s.startCommand w).keyLen = s.keyLen := rfl
@[simp] theorem State.startCommand_len : (s.startCommand w).len = s.len := rfl
@[simp] theorem State.startCommand_outLen : (s.startCommand w).outLen = s.outLen := rfl
@[simp] theorem State.startCommand_srcAddr : (s.startCommand w).srcAddr = s.srcAddr := rfl
@[simp] theorem State.startCommand_dstAddr : (s.startCommand w).dstAddr = s.dstAddr := rfl
@[simp] theorem State.startCommand_rkSel : (s.startCommand w).rkSel = s.rkSel := rfl
@[simp] theorem State.startCommand_key : (s.startCommand w).key = s.key := rfl
@[simp] theorem State.startCommand_iv : (s.startCommand w).iv = s.iv := rfl
@[simp] theorem State.startCommand_din : (s.startCommand w).din = s.din := rfl
@[simp] theorem State.startCommand_dout : (s.startCommand w).dout = s.dout := rfl
@[simp] theorem State.startCommand_sched : (s.startCommand w).sched = s.sched := rfl
@[simp] theorem State.startCommand_schedValid : (s.startCommand w).schedValid = s.schedValid := rfl
@[simp] theorem State.startCommand_nr : (s.startCommand w).nr = s.nr := rfl
@[simp] theorem State.startCommand_fsm : (s.startCommand w).fsm = .busy w := rfl
@[simp] theorem State.startCommand_mem : (s.startCommand w).mem = s.mem := rfl
@[simp] theorem State.startCommand_platform : (s.startCommand w).platform = s.platform := rfl
@[simp] theorem State.startCommand_host : (s.startCommand w).host = s.host := rfl
@[simp] theorem State.startCommand_turns : (s.startCommand w).turns = s.turns := rfl
@[simp] theorem State.startCommand_entropyDraws : (s.startCommand w).entropyDraws = s.entropyDraws := rfl
@[simp] theorem State.startCommand_havocDraws : (s.startCommand w).havocDraws = s.havocDraws := rfl
@[simp] theorem State.startCommand_cacheDraws : (s.startCommand w).cacheDraws = s.cacheDraws := rfl

end

section
variable (s : State) (v : Word)

@[simp] theorem State.setOutLen_irqEn : (s.setOutLen v).irqEn = s.irqEn := rfl
@[simp] theorem State.setOutLen_done : (s.setOutLen v).done = s.done := rfl
@[simp] theorem State.setOutLen_wrIgnored : (s.setOutLen v).wrIgnored = s.wrIgnored := rfl
@[simp] theorem State.setOutLen_errCode : (s.setOutLen v).errCode = s.errCode := rfl
@[simp] theorem State.setOutLen_keyLen : (s.setOutLen v).keyLen = s.keyLen := rfl
@[simp] theorem State.setOutLen_len : (s.setOutLen v).len = s.len := rfl
@[simp] theorem State.setOutLen_outLen : (s.setOutLen v).outLen = v := rfl
@[simp] theorem State.setOutLen_srcAddr : (s.setOutLen v).srcAddr = s.srcAddr := rfl
@[simp] theorem State.setOutLen_dstAddr : (s.setOutLen v).dstAddr = s.dstAddr := rfl
@[simp] theorem State.setOutLen_rkSel : (s.setOutLen v).rkSel = s.rkSel := rfl
@[simp] theorem State.setOutLen_key : (s.setOutLen v).key = s.key := rfl
@[simp] theorem State.setOutLen_iv : (s.setOutLen v).iv = s.iv := rfl
@[simp] theorem State.setOutLen_din : (s.setOutLen v).din = s.din := rfl
@[simp] theorem State.setOutLen_dout : (s.setOutLen v).dout = s.dout := rfl
@[simp] theorem State.setOutLen_sched : (s.setOutLen v).sched = s.sched := rfl
@[simp] theorem State.setOutLen_schedValid : (s.setOutLen v).schedValid = s.schedValid := rfl
@[simp] theorem State.setOutLen_nr : (s.setOutLen v).nr = s.nr := rfl
@[simp] theorem State.setOutLen_fsm : (s.setOutLen v).fsm = s.fsm := rfl
@[simp] theorem State.setOutLen_mem : (s.setOutLen v).mem = s.mem := rfl
@[simp] theorem State.setOutLen_platform : (s.setOutLen v).platform = s.platform := rfl
@[simp] theorem State.setOutLen_host : (s.setOutLen v).host = s.host := rfl
@[simp] theorem State.setOutLen_turns : (s.setOutLen v).turns = s.turns := rfl
@[simp] theorem State.setOutLen_entropyDraws : (s.setOutLen v).entropyDraws = s.entropyDraws := rfl
@[simp] theorem State.setOutLen_havocDraws : (s.setOutLen v).havocDraws = s.havocDraws := rfl
@[simp] theorem State.setOutLen_cacheDraws : (s.setOutLen v).cacheDraws = s.cacheDraws := rfl

end

section
variable (s : State) (v : Block)

@[simp] theorem State.setIv_irqEn : (s.setIv v).irqEn = s.irqEn := rfl
@[simp] theorem State.setIv_done : (s.setIv v).done = s.done := rfl
@[simp] theorem State.setIv_wrIgnored : (s.setIv v).wrIgnored = s.wrIgnored := rfl
@[simp] theorem State.setIv_errCode : (s.setIv v).errCode = s.errCode := rfl
@[simp] theorem State.setIv_keyLen : (s.setIv v).keyLen = s.keyLen := rfl
@[simp] theorem State.setIv_len : (s.setIv v).len = s.len := rfl
@[simp] theorem State.setIv_outLen : (s.setIv v).outLen = s.outLen := rfl
@[simp] theorem State.setIv_srcAddr : (s.setIv v).srcAddr = s.srcAddr := rfl
@[simp] theorem State.setIv_dstAddr : (s.setIv v).dstAddr = s.dstAddr := rfl
@[simp] theorem State.setIv_rkSel : (s.setIv v).rkSel = s.rkSel := rfl
@[simp] theorem State.setIv_key : (s.setIv v).key = s.key := rfl
@[simp] theorem State.setIv_iv : (s.setIv v).iv = v := rfl
@[simp] theorem State.setIv_din : (s.setIv v).din = s.din := rfl
@[simp] theorem State.setIv_dout : (s.setIv v).dout = s.dout := rfl
@[simp] theorem State.setIv_sched : (s.setIv v).sched = s.sched := rfl
@[simp] theorem State.setIv_schedValid : (s.setIv v).schedValid = s.schedValid := rfl
@[simp] theorem State.setIv_nr : (s.setIv v).nr = s.nr := rfl
@[simp] theorem State.setIv_fsm : (s.setIv v).fsm = s.fsm := rfl
@[simp] theorem State.setIv_mem : (s.setIv v).mem = s.mem := rfl
@[simp] theorem State.setIv_platform : (s.setIv v).platform = s.platform := rfl
@[simp] theorem State.setIv_host : (s.setIv v).host = s.host := rfl
@[simp] theorem State.setIv_turns : (s.setIv v).turns = s.turns := rfl
@[simp] theorem State.setIv_entropyDraws : (s.setIv v).entropyDraws = s.entropyDraws := rfl
@[simp] theorem State.setIv_havocDraws : (s.setIv v).havocDraws = s.havocDraws := rfl
@[simp] theorem State.setIv_cacheDraws : (s.setIv v).cacheDraws = s.cacheDraws := rfl

end

section
variable (s : State) (v : Block)

@[simp] theorem State.takeDraw_irqEn : (s.takeDraw v).irqEn = s.irqEn := rfl
@[simp] theorem State.takeDraw_done : (s.takeDraw v).done = s.done := rfl
@[simp] theorem State.takeDraw_wrIgnored : (s.takeDraw v).wrIgnored = s.wrIgnored := rfl
@[simp] theorem State.takeDraw_errCode : (s.takeDraw v).errCode = s.errCode := rfl
@[simp] theorem State.takeDraw_keyLen : (s.takeDraw v).keyLen = s.keyLen := rfl
@[simp] theorem State.takeDraw_len : (s.takeDraw v).len = s.len := rfl
@[simp] theorem State.takeDraw_outLen : (s.takeDraw v).outLen = s.outLen := rfl
@[simp] theorem State.takeDraw_srcAddr : (s.takeDraw v).srcAddr = s.srcAddr := rfl
@[simp] theorem State.takeDraw_dstAddr : (s.takeDraw v).dstAddr = s.dstAddr := rfl
@[simp] theorem State.takeDraw_rkSel : (s.takeDraw v).rkSel = s.rkSel := rfl
@[simp] theorem State.takeDraw_key : (s.takeDraw v).key = s.key := rfl
@[simp] theorem State.takeDraw_iv : (s.takeDraw v).iv = v := rfl
@[simp] theorem State.takeDraw_din : (s.takeDraw v).din = s.din := rfl
@[simp] theorem State.takeDraw_dout : (s.takeDraw v).dout = s.dout := rfl
@[simp] theorem State.takeDraw_sched : (s.takeDraw v).sched = s.sched := rfl
@[simp] theorem State.takeDraw_schedValid : (s.takeDraw v).schedValid = s.schedValid := rfl
@[simp] theorem State.takeDraw_nr : (s.takeDraw v).nr = s.nr := rfl
@[simp] theorem State.takeDraw_fsm : (s.takeDraw v).fsm = s.fsm := rfl
@[simp] theorem State.takeDraw_mem : (s.takeDraw v).mem = s.mem := rfl
@[simp] theorem State.takeDraw_platform : (s.takeDraw v).platform = s.platform := rfl
@[simp] theorem State.takeDraw_host : (s.takeDraw v).host = s.host := rfl
@[simp] theorem State.takeDraw_turns : (s.takeDraw v).turns = s.turns := rfl
@[simp] theorem State.takeDraw_entropyDraws : (s.takeDraw v).entropyDraws = s.entropyDraws + 1 := rfl
@[simp] theorem State.takeDraw_havocDraws : (s.takeDraw v).havocDraws = s.havocDraws := rfl
@[simp] theorem State.takeDraw_cacheDraws : (s.takeDraw v).cacheDraws = s.cacheDraws := rfl

end

section
variable (s : State) (v : Block)

@[simp] theorem State.setDout_irqEn : (s.setDout v).irqEn = s.irqEn := rfl
@[simp] theorem State.setDout_done : (s.setDout v).done = s.done := rfl
@[simp] theorem State.setDout_wrIgnored : (s.setDout v).wrIgnored = s.wrIgnored := rfl
@[simp] theorem State.setDout_errCode : (s.setDout v).errCode = s.errCode := rfl
@[simp] theorem State.setDout_keyLen : (s.setDout v).keyLen = s.keyLen := rfl
@[simp] theorem State.setDout_len : (s.setDout v).len = s.len := rfl
@[simp] theorem State.setDout_outLen : (s.setDout v).outLen = s.outLen := rfl
@[simp] theorem State.setDout_srcAddr : (s.setDout v).srcAddr = s.srcAddr := rfl
@[simp] theorem State.setDout_dstAddr : (s.setDout v).dstAddr = s.dstAddr := rfl
@[simp] theorem State.setDout_rkSel : (s.setDout v).rkSel = s.rkSel := rfl
@[simp] theorem State.setDout_key : (s.setDout v).key = s.key := rfl
@[simp] theorem State.setDout_iv : (s.setDout v).iv = s.iv := rfl
@[simp] theorem State.setDout_din : (s.setDout v).din = s.din := rfl
@[simp] theorem State.setDout_dout : (s.setDout v).dout = v := rfl
@[simp] theorem State.setDout_sched : (s.setDout v).sched = s.sched := rfl
@[simp] theorem State.setDout_schedValid : (s.setDout v).schedValid = s.schedValid := rfl
@[simp] theorem State.setDout_nr : (s.setDout v).nr = s.nr := rfl
@[simp] theorem State.setDout_fsm : (s.setDout v).fsm = s.fsm := rfl
@[simp] theorem State.setDout_mem : (s.setDout v).mem = s.mem := rfl
@[simp] theorem State.setDout_platform : (s.setDout v).platform = s.platform := rfl
@[simp] theorem State.setDout_host : (s.setDout v).host = s.host := rfl
@[simp] theorem State.setDout_turns : (s.setDout v).turns = s.turns := rfl
@[simp] theorem State.setDout_entropyDraws : (s.setDout v).entropyDraws = s.entropyDraws := rfl
@[simp] theorem State.setDout_havocDraws : (s.setDout v).havocDraws = s.havocDraws := rfl
@[simp] theorem State.setDout_cacheDraws : (s.setDout v).cacheDraws = s.cacheDraws := rfl

end

section
variable (s : State) (w : Schedule) (b : Bool) (n : BitVec 4)

@[simp] theorem State.setSchedule_irqEn : (s.setSchedule w b n).irqEn = s.irqEn := rfl
@[simp] theorem State.setSchedule_done : (s.setSchedule w b n).done = s.done := rfl
@[simp] theorem State.setSchedule_wrIgnored : (s.setSchedule w b n).wrIgnored = s.wrIgnored := rfl
@[simp] theorem State.setSchedule_errCode : (s.setSchedule w b n).errCode = s.errCode := rfl
@[simp] theorem State.setSchedule_keyLen : (s.setSchedule w b n).keyLen = s.keyLen := rfl
@[simp] theorem State.setSchedule_len : (s.setSchedule w b n).len = s.len := rfl
@[simp] theorem State.setSchedule_outLen : (s.setSchedule w b n).outLen = s.outLen := rfl
@[simp] theorem State.setSchedule_srcAddr : (s.setSchedule w b n).srcAddr = s.srcAddr := rfl
@[simp] theorem State.setSchedule_dstAddr : (s.setSchedule w b n).dstAddr = s.dstAddr := rfl
@[simp] theorem State.setSchedule_rkSel : (s.setSchedule w b n).rkSel = s.rkSel := rfl
@[simp] theorem State.setSchedule_key : (s.setSchedule w b n).key = s.key := rfl
@[simp] theorem State.setSchedule_iv : (s.setSchedule w b n).iv = s.iv := rfl
@[simp] theorem State.setSchedule_din : (s.setSchedule w b n).din = s.din := rfl
@[simp] theorem State.setSchedule_dout : (s.setSchedule w b n).dout = s.dout := rfl
@[simp] theorem State.setSchedule_sched : (s.setSchedule w b n).sched = w := rfl
@[simp] theorem State.setSchedule_schedValid : (s.setSchedule w b n).schedValid = b := rfl
@[simp] theorem State.setSchedule_nr : (s.setSchedule w b n).nr = n := rfl
@[simp] theorem State.setSchedule_fsm : (s.setSchedule w b n).fsm = s.fsm := rfl
@[simp] theorem State.setSchedule_mem : (s.setSchedule w b n).mem = s.mem := rfl
@[simp] theorem State.setSchedule_platform : (s.setSchedule w b n).platform = s.platform := rfl
@[simp] theorem State.setSchedule_host : (s.setSchedule w b n).host = s.host := rfl
@[simp] theorem State.setSchedule_turns : (s.setSchedule w b n).turns = s.turns := rfl
@[simp] theorem State.setSchedule_entropyDraws : (s.setSchedule w b n).entropyDraws = s.entropyDraws := rfl
@[simp] theorem State.setSchedule_havocDraws : (s.setSchedule w b n).havocDraws = s.havocDraws := rfl
@[simp] theorem State.setSchedule_cacheDraws : (s.setSchedule w b n).cacheDraws = s.cacheDraws := rfl

end

section
variable (s : State) (a : Nat) (b : List Byte)

@[simp] theorem State.dmaWrite_irqEn : (s.dmaWrite a b).irqEn = s.irqEn := rfl
@[simp] theorem State.dmaWrite_done : (s.dmaWrite a b).done = s.done := rfl
@[simp] theorem State.dmaWrite_wrIgnored : (s.dmaWrite a b).wrIgnored = s.wrIgnored := rfl
@[simp] theorem State.dmaWrite_errCode : (s.dmaWrite a b).errCode = s.errCode := rfl
@[simp] theorem State.dmaWrite_keyLen : (s.dmaWrite a b).keyLen = s.keyLen := rfl
@[simp] theorem State.dmaWrite_len : (s.dmaWrite a b).len = s.len := rfl
@[simp] theorem State.dmaWrite_outLen : (s.dmaWrite a b).outLen = s.outLen := rfl
@[simp] theorem State.dmaWrite_srcAddr : (s.dmaWrite a b).srcAddr = s.srcAddr := rfl
@[simp] theorem State.dmaWrite_dstAddr : (s.dmaWrite a b).dstAddr = s.dstAddr := rfl
@[simp] theorem State.dmaWrite_rkSel : (s.dmaWrite a b).rkSel = s.rkSel := rfl
@[simp] theorem State.dmaWrite_key : (s.dmaWrite a b).key = s.key := rfl
@[simp] theorem State.dmaWrite_iv : (s.dmaWrite a b).iv = s.iv := rfl
@[simp] theorem State.dmaWrite_din : (s.dmaWrite a b).din = s.din := rfl
@[simp] theorem State.dmaWrite_dout : (s.dmaWrite a b).dout = s.dout := rfl
@[simp] theorem State.dmaWrite_sched : (s.dmaWrite a b).sched = s.sched := rfl
@[simp] theorem State.dmaWrite_schedValid : (s.dmaWrite a b).schedValid = s.schedValid := rfl
@[simp] theorem State.dmaWrite_nr : (s.dmaWrite a b).nr = s.nr := rfl
@[simp] theorem State.dmaWrite_fsm : (s.dmaWrite a b).fsm = s.fsm := rfl
@[simp] theorem State.dmaWrite_mem : (s.dmaWrite a b).mem = s.mem.writeRange a b := rfl
@[simp] theorem State.dmaWrite_platform : (s.dmaWrite a b).platform = s.platform := rfl
@[simp] theorem State.dmaWrite_host : (s.dmaWrite a b).host = s.host.noteDmaWrite s.platform (List.range' a b.length) := rfl
@[simp] theorem State.dmaWrite_turns : (s.dmaWrite a b).turns = s.turns := rfl
@[simp] theorem State.dmaWrite_entropyDraws : (s.dmaWrite a b).entropyDraws = s.entropyDraws := rfl
@[simp] theorem State.dmaWrite_havocDraws : (s.dmaWrite a b).havocDraws = s.havocDraws := rfl
@[simp] theorem State.dmaWrite_cacheDraws : (s.dmaWrite a b).cacheDraws = s.cacheDraws := rfl

end

section
variable (s : State) (a n : Nat)

@[simp] theorem State.havoc_irqEn : (s.havoc a n).irqEn = s.irqEn := rfl
@[simp] theorem State.havoc_done : (s.havoc a n).done = s.done := rfl
@[simp] theorem State.havoc_wrIgnored : (s.havoc a n).wrIgnored = s.wrIgnored := rfl
@[simp] theorem State.havoc_errCode : (s.havoc a n).errCode = s.errCode := rfl
@[simp] theorem State.havoc_keyLen : (s.havoc a n).keyLen = s.keyLen := rfl
@[simp] theorem State.havoc_len : (s.havoc a n).len = s.len := rfl
@[simp] theorem State.havoc_outLen : (s.havoc a n).outLen = s.outLen := rfl
@[simp] theorem State.havoc_srcAddr : (s.havoc a n).srcAddr = s.srcAddr := rfl
@[simp] theorem State.havoc_dstAddr : (s.havoc a n).dstAddr = s.dstAddr := rfl
@[simp] theorem State.havoc_rkSel : (s.havoc a n).rkSel = s.rkSel := rfl
@[simp] theorem State.havoc_key : (s.havoc a n).key = s.key := rfl
@[simp] theorem State.havoc_iv : (s.havoc a n).iv = s.iv := rfl
@[simp] theorem State.havoc_din : (s.havoc a n).din = s.din := rfl
@[simp] theorem State.havoc_dout : (s.havoc a n).dout = s.dout := rfl
@[simp] theorem State.havoc_sched : (s.havoc a n).sched = s.sched := rfl
@[simp] theorem State.havoc_schedValid : (s.havoc a n).schedValid = s.schedValid := rfl
@[simp] theorem State.havoc_nr : (s.havoc a n).nr = s.nr := rfl
@[simp] theorem State.havoc_fsm : (s.havoc a n).fsm = s.fsm := rfl
@[simp] theorem State.havoc_mem : (s.havoc a n).mem = s.mem.havoc (memAdmit s.platform .write) Config.havocByte n a s.havocDraws := rfl
@[simp] theorem State.havoc_platform : (s.havoc a n).platform = s.platform := rfl
@[simp] theorem State.havoc_host : (s.havoc a n).host = s.host.noteDmaWrite s.platform (writableBytes s.platform a n) := rfl
@[simp] theorem State.havoc_turns : (s.havoc a n).turns = s.turns := rfl
@[simp] theorem State.havoc_entropyDraws : (s.havoc a n).entropyDraws = s.entropyDraws := rfl
@[simp] theorem State.havoc_havocDraws : (s.havoc a n).havocDraws = s.havocDraws + n := rfl
@[simp] theorem State.havoc_cacheDraws : (s.havoc a n).cacheDraws = s.cacheDraws := rfl

end

section
variable (s : State) (v : Word)

@[simp] theorem State.clearStatus_irqEn : (s.clearStatus v).irqEn = s.irqEn := rfl
@[simp] theorem State.clearStatus_done : (s.clearStatus v).done = (s.done && !v.getLsbD 1) := rfl
@[simp] theorem State.clearStatus_wrIgnored : (s.clearStatus v).wrIgnored = (s.wrIgnored && !v.getLsbD 4) := rfl
@[simp] theorem State.clearStatus_errCode : (s.clearStatus v).errCode = s.errCode := rfl
@[simp] theorem State.clearStatus_keyLen : (s.clearStatus v).keyLen = s.keyLen := rfl
@[simp] theorem State.clearStatus_len : (s.clearStatus v).len = s.len := rfl
@[simp] theorem State.clearStatus_outLen : (s.clearStatus v).outLen = s.outLen := rfl
@[simp] theorem State.clearStatus_srcAddr : (s.clearStatus v).srcAddr = s.srcAddr := rfl
@[simp] theorem State.clearStatus_dstAddr : (s.clearStatus v).dstAddr = s.dstAddr := rfl
@[simp] theorem State.clearStatus_rkSel : (s.clearStatus v).rkSel = s.rkSel := rfl
@[simp] theorem State.clearStatus_key : (s.clearStatus v).key = s.key := rfl
@[simp] theorem State.clearStatus_iv : (s.clearStatus v).iv = s.iv := rfl
@[simp] theorem State.clearStatus_din : (s.clearStatus v).din = s.din := rfl
@[simp] theorem State.clearStatus_dout : (s.clearStatus v).dout = s.dout := rfl
@[simp] theorem State.clearStatus_sched : (s.clearStatus v).sched = s.sched := rfl
@[simp] theorem State.clearStatus_schedValid : (s.clearStatus v).schedValid = s.schedValid := rfl
@[simp] theorem State.clearStatus_nr : (s.clearStatus v).nr = s.nr := rfl
@[simp] theorem State.clearStatus_fsm : (s.clearStatus v).fsm = s.fsm := rfl
@[simp] theorem State.clearStatus_mem : (s.clearStatus v).mem = s.mem := rfl
@[simp] theorem State.clearStatus_platform : (s.clearStatus v).platform = s.platform := rfl
@[simp] theorem State.clearStatus_host : (s.clearStatus v).host = s.host := rfl
@[simp] theorem State.clearStatus_turns : (s.clearStatus v).turns = s.turns := rfl
@[simp] theorem State.clearStatus_entropyDraws : (s.clearStatus v).entropyDraws = s.entropyDraws := rfl
@[simp] theorem State.clearStatus_havocDraws : (s.clearStatus v).havocDraws = s.havocDraws := rfl
@[simp] theorem State.clearStatus_cacheDraws : (s.clearStatus v).cacheDraws = s.cacheDraws := rfl

end

section
variable (s : State) (h : HostSide)

@[simp] theorem State.setHost_irqEn : (s.setHost h).irqEn = s.irqEn := rfl
@[simp] theorem State.setHost_done : (s.setHost h).done = s.done := rfl
@[simp] theorem State.setHost_wrIgnored : (s.setHost h).wrIgnored = s.wrIgnored := rfl
@[simp] theorem State.setHost_errCode : (s.setHost h).errCode = s.errCode := rfl
@[simp] theorem State.setHost_keyLen : (s.setHost h).keyLen = s.keyLen := rfl
@[simp] theorem State.setHost_len : (s.setHost h).len = s.len := rfl
@[simp] theorem State.setHost_outLen : (s.setHost h).outLen = s.outLen := rfl
@[simp] theorem State.setHost_srcAddr : (s.setHost h).srcAddr = s.srcAddr := rfl
@[simp] theorem State.setHost_dstAddr : (s.setHost h).dstAddr = s.dstAddr := rfl
@[simp] theorem State.setHost_rkSel : (s.setHost h).rkSel = s.rkSel := rfl
@[simp] theorem State.setHost_key : (s.setHost h).key = s.key := rfl
@[simp] theorem State.setHost_iv : (s.setHost h).iv = s.iv := rfl
@[simp] theorem State.setHost_din : (s.setHost h).din = s.din := rfl
@[simp] theorem State.setHost_dout : (s.setHost h).dout = s.dout := rfl
@[simp] theorem State.setHost_sched : (s.setHost h).sched = s.sched := rfl
@[simp] theorem State.setHost_schedValid : (s.setHost h).schedValid = s.schedValid := rfl
@[simp] theorem State.setHost_nr : (s.setHost h).nr = s.nr := rfl
@[simp] theorem State.setHost_fsm : (s.setHost h).fsm = s.fsm := rfl
@[simp] theorem State.setHost_mem : (s.setHost h).mem = s.mem := rfl
@[simp] theorem State.setHost_platform : (s.setHost h).platform = s.platform := rfl
@[simp] theorem State.setHost_host : (s.setHost h).host = h := rfl
@[simp] theorem State.setHost_turns : (s.setHost h).turns = s.turns := rfl
@[simp] theorem State.setHost_entropyDraws : (s.setHost h).entropyDraws = s.entropyDraws := rfl
@[simp] theorem State.setHost_havocDraws : (s.setHost h).havocDraws = s.havocDraws := rfl
@[simp] theorem State.setHost_cacheDraws : (s.setHost h).cacheDraws = s.cacheDraws := rfl

end

section
variable (s : State)

@[simp] theorem State.ignoreWrite_irqEn : (s.ignoreWrite).irqEn = s.irqEn := rfl
@[simp] theorem State.ignoreWrite_done : (s.ignoreWrite).done = s.done := rfl
@[simp] theorem State.ignoreWrite_wrIgnored : (s.ignoreWrite).wrIgnored = true := rfl
@[simp] theorem State.ignoreWrite_errCode : (s.ignoreWrite).errCode = s.errCode := rfl
@[simp] theorem State.ignoreWrite_keyLen : (s.ignoreWrite).keyLen = s.keyLen := rfl
@[simp] theorem State.ignoreWrite_len : (s.ignoreWrite).len = s.len := rfl
@[simp] theorem State.ignoreWrite_outLen : (s.ignoreWrite).outLen = s.outLen := rfl
@[simp] theorem State.ignoreWrite_srcAddr : (s.ignoreWrite).srcAddr = s.srcAddr := rfl
@[simp] theorem State.ignoreWrite_dstAddr : (s.ignoreWrite).dstAddr = s.dstAddr := rfl
@[simp] theorem State.ignoreWrite_rkSel : (s.ignoreWrite).rkSel = s.rkSel := rfl
@[simp] theorem State.ignoreWrite_key : (s.ignoreWrite).key = s.key := rfl
@[simp] theorem State.ignoreWrite_iv : (s.ignoreWrite).iv = s.iv := rfl
@[simp] theorem State.ignoreWrite_din : (s.ignoreWrite).din = s.din := rfl
@[simp] theorem State.ignoreWrite_dout : (s.ignoreWrite).dout = s.dout := rfl
@[simp] theorem State.ignoreWrite_sched : (s.ignoreWrite).sched = s.sched := rfl
@[simp] theorem State.ignoreWrite_schedValid : (s.ignoreWrite).schedValid = s.schedValid := rfl
@[simp] theorem State.ignoreWrite_nr : (s.ignoreWrite).nr = s.nr := rfl
@[simp] theorem State.ignoreWrite_fsm : (s.ignoreWrite).fsm = s.fsm := rfl
@[simp] theorem State.ignoreWrite_mem : (s.ignoreWrite).mem = s.mem := rfl
@[simp] theorem State.ignoreWrite_platform : (s.ignoreWrite).platform = s.platform := rfl
@[simp] theorem State.ignoreWrite_host : (s.ignoreWrite).host = s.host := rfl
@[simp] theorem State.ignoreWrite_turns : (s.ignoreWrite).turns = s.turns := rfl
@[simp] theorem State.ignoreWrite_entropyDraws : (s.ignoreWrite).entropyDraws = s.entropyDraws := rfl
@[simp] theorem State.ignoreWrite_havocDraws : (s.ignoreWrite).havocDraws = s.havocDraws := rfl
@[simp] theorem State.ignoreWrite_cacheDraws : (s.ignoreWrite).cacheDraws = s.cacheDraws := rfl

end

section
variable (s : State) (p : List HostOp)

@[simp] theorem State.setProgram_irqEn : (s.setProgram p).irqEn = s.irqEn := rfl
@[simp] theorem State.setProgram_done : (s.setProgram p).done = s.done := rfl
@[simp] theorem State.setProgram_wrIgnored : (s.setProgram p).wrIgnored = s.wrIgnored := rfl
@[simp] theorem State.setProgram_errCode : (s.setProgram p).errCode = s.errCode := rfl
@[simp] theorem State.setProgram_keyLen : (s.setProgram p).keyLen = s.keyLen := rfl
@[simp] theorem State.setProgram_len : (s.setProgram p).len = s.len := rfl
@[simp] theorem State.setProgram_outLen : (s.setProgram p).outLen = s.outLen := rfl
@[simp] theorem State.setProgram_srcAddr : (s.setProgram p).srcAddr = s.srcAddr := rfl
@[simp] theorem State.setProgram_dstAddr : (s.setProgram p).dstAddr = s.dstAddr := rfl
@[simp] theorem State.setProgram_rkSel : (s.setProgram p).rkSel = s.rkSel := rfl
@[simp] theorem State.setProgram_key : (s.setProgram p).key = s.key := rfl
@[simp] theorem State.setProgram_iv : (s.setProgram p).iv = s.iv := rfl
@[simp] theorem State.setProgram_din : (s.setProgram p).din = s.din := rfl
@[simp] theorem State.setProgram_dout : (s.setProgram p).dout = s.dout := rfl
@[simp] theorem State.setProgram_sched : (s.setProgram p).sched = s.sched := rfl
@[simp] theorem State.setProgram_schedValid : (s.setProgram p).schedValid = s.schedValid := rfl
@[simp] theorem State.setProgram_nr : (s.setProgram p).nr = s.nr := rfl
@[simp] theorem State.setProgram_fsm : (s.setProgram p).fsm = s.fsm := rfl
@[simp] theorem State.setProgram_mem : (s.setProgram p).mem = s.mem := rfl
@[simp] theorem State.setProgram_platform : (s.setProgram p).platform = s.platform := rfl
@[simp] theorem State.setProgram_host : (s.setProgram p).host = { s.host with program := p } := rfl
@[simp] theorem State.setProgram_turns : (s.setProgram p).turns = s.turns := rfl
@[simp] theorem State.setProgram_entropyDraws : (s.setProgram p).entropyDraws = s.entropyDraws := rfl
@[simp] theorem State.setProgram_havocDraws : (s.setProgram p).havocDraws = s.havocDraws := rfl
@[simp] theorem State.setProgram_cacheDraws : (s.setProgram p).cacheDraws = s.cacheDraws := rfl

end

section
variable (s : State) (a : Addr) (b : Byte)

@[simp] theorem State.hostStore_irqEn : (s.hostStore a b).irqEn = s.irqEn := rfl
@[simp] theorem State.hostStore_done : (s.hostStore a b).done = s.done := rfl
@[simp] theorem State.hostStore_wrIgnored : (s.hostStore a b).wrIgnored = s.wrIgnored := rfl
@[simp] theorem State.hostStore_errCode : (s.hostStore a b).errCode = s.errCode := rfl
@[simp] theorem State.hostStore_keyLen : (s.hostStore a b).keyLen = s.keyLen := rfl
@[simp] theorem State.hostStore_len : (s.hostStore a b).len = s.len := rfl
@[simp] theorem State.hostStore_outLen : (s.hostStore a b).outLen = s.outLen := rfl
@[simp] theorem State.hostStore_srcAddr : (s.hostStore a b).srcAddr = s.srcAddr := rfl
@[simp] theorem State.hostStore_dstAddr : (s.hostStore a b).dstAddr = s.dstAddr := rfl
@[simp] theorem State.hostStore_rkSel : (s.hostStore a b).rkSel = s.rkSel := rfl
@[simp] theorem State.hostStore_key : (s.hostStore a b).key = s.key := rfl
@[simp] theorem State.hostStore_iv : (s.hostStore a b).iv = s.iv := rfl
@[simp] theorem State.hostStore_din : (s.hostStore a b).din = s.din := rfl
@[simp] theorem State.hostStore_dout : (s.hostStore a b).dout = s.dout := rfl
@[simp] theorem State.hostStore_sched : (s.hostStore a b).sched = s.sched := rfl
@[simp] theorem State.hostStore_schedValid : (s.hostStore a b).schedValid = s.schedValid := rfl
@[simp] theorem State.hostStore_nr : (s.hostStore a b).nr = s.nr := rfl
@[simp] theorem State.hostStore_fsm : (s.hostStore a b).fsm = s.fsm := rfl
@[simp] theorem State.hostStore_mem : (s.hostStore a b).mem = s.mem.write a.toNat b := rfl
@[simp] theorem State.hostStore_platform : (s.hostStore a b).platform = s.platform := rfl
@[simp] theorem State.hostStore_host : (s.hostStore a b).host = s.host.noteHostWrite s.platform a := rfl
@[simp] theorem State.hostStore_turns : (s.hostStore a b).turns = s.turns := rfl
@[simp] theorem State.hostStore_entropyDraws : (s.hostStore a b).entropyDraws = s.entropyDraws := rfl
@[simp] theorem State.hostStore_havocDraws : (s.hostStore a b).havocDraws = s.havocDraws := rfl
@[simp] theorem State.hostStore_cacheDraws : (s.hostStore a b).cacheDraws = s.cacheDraws := rfl

end

section
variable (s : State)

@[simp] theorem State.takeCacheDraw_irqEn : (s.takeCacheDraw).irqEn = s.irqEn := rfl
@[simp] theorem State.takeCacheDraw_done : (s.takeCacheDraw).done = s.done := rfl
@[simp] theorem State.takeCacheDraw_wrIgnored : (s.takeCacheDraw).wrIgnored = s.wrIgnored := rfl
@[simp] theorem State.takeCacheDraw_errCode : (s.takeCacheDraw).errCode = s.errCode := rfl
@[simp] theorem State.takeCacheDraw_keyLen : (s.takeCacheDraw).keyLen = s.keyLen := rfl
@[simp] theorem State.takeCacheDraw_len : (s.takeCacheDraw).len = s.len := rfl
@[simp] theorem State.takeCacheDraw_outLen : (s.takeCacheDraw).outLen = s.outLen := rfl
@[simp] theorem State.takeCacheDraw_srcAddr : (s.takeCacheDraw).srcAddr = s.srcAddr := rfl
@[simp] theorem State.takeCacheDraw_dstAddr : (s.takeCacheDraw).dstAddr = s.dstAddr := rfl
@[simp] theorem State.takeCacheDraw_rkSel : (s.takeCacheDraw).rkSel = s.rkSel := rfl
@[simp] theorem State.takeCacheDraw_key : (s.takeCacheDraw).key = s.key := rfl
@[simp] theorem State.takeCacheDraw_iv : (s.takeCacheDraw).iv = s.iv := rfl
@[simp] theorem State.takeCacheDraw_din : (s.takeCacheDraw).din = s.din := rfl
@[simp] theorem State.takeCacheDraw_dout : (s.takeCacheDraw).dout = s.dout := rfl
@[simp] theorem State.takeCacheDraw_sched : (s.takeCacheDraw).sched = s.sched := rfl
@[simp] theorem State.takeCacheDraw_schedValid : (s.takeCacheDraw).schedValid = s.schedValid := rfl
@[simp] theorem State.takeCacheDraw_nr : (s.takeCacheDraw).nr = s.nr := rfl
@[simp] theorem State.takeCacheDraw_fsm : (s.takeCacheDraw).fsm = s.fsm := rfl
@[simp] theorem State.takeCacheDraw_mem : (s.takeCacheDraw).mem = s.mem := rfl
@[simp] theorem State.takeCacheDraw_platform : (s.takeCacheDraw).platform = s.platform := rfl
@[simp] theorem State.takeCacheDraw_host : (s.takeCacheDraw).host = s.host := rfl
@[simp] theorem State.takeCacheDraw_turns : (s.takeCacheDraw).turns = s.turns := rfl
@[simp] theorem State.takeCacheDraw_entropyDraws : (s.takeCacheDraw).entropyDraws = s.entropyDraws := rfl
@[simp] theorem State.takeCacheDraw_havocDraws : (s.takeCacheDraw).havocDraws = s.havocDraws := rfl
@[simp] theorem State.takeCacheDraw_cacheDraws : (s.takeCacheDraw).cacheDraws = s.cacheDraws + 1 := rfl

end

section
variable (s : State) (l : List Addr)

@[simp] theorem State.unsettle_irqEn : (s.unsettle l).irqEn = s.irqEn := rfl
@[simp] theorem State.unsettle_done : (s.unsettle l).done = s.done := rfl
@[simp] theorem State.unsettle_wrIgnored : (s.unsettle l).wrIgnored = s.wrIgnored := rfl
@[simp] theorem State.unsettle_errCode : (s.unsettle l).errCode = s.errCode := rfl
@[simp] theorem State.unsettle_keyLen : (s.unsettle l).keyLen = s.keyLen := rfl
@[simp] theorem State.unsettle_len : (s.unsettle l).len = s.len := rfl
@[simp] theorem State.unsettle_outLen : (s.unsettle l).outLen = s.outLen := rfl
@[simp] theorem State.unsettle_srcAddr : (s.unsettle l).srcAddr = s.srcAddr := rfl
@[simp] theorem State.unsettle_dstAddr : (s.unsettle l).dstAddr = s.dstAddr := rfl
@[simp] theorem State.unsettle_rkSel : (s.unsettle l).rkSel = s.rkSel := rfl
@[simp] theorem State.unsettle_key : (s.unsettle l).key = s.key := rfl
@[simp] theorem State.unsettle_iv : (s.unsettle l).iv = s.iv := rfl
@[simp] theorem State.unsettle_din : (s.unsettle l).din = s.din := rfl
@[simp] theorem State.unsettle_dout : (s.unsettle l).dout = s.dout := rfl
@[simp] theorem State.unsettle_sched : (s.unsettle l).sched = s.sched := rfl
@[simp] theorem State.unsettle_schedValid : (s.unsettle l).schedValid = s.schedValid := rfl
@[simp] theorem State.unsettle_nr : (s.unsettle l).nr = s.nr := rfl
@[simp] theorem State.unsettle_fsm : (s.unsettle l).fsm = s.fsm := rfl
@[simp] theorem State.unsettle_mem : (s.unsettle l).mem = s.mem.writeCells (freshCells s.cacheDraws l) := rfl
@[simp] theorem State.unsettle_platform : (s.unsettle l).platform = s.platform := rfl
@[simp] theorem State.unsettle_host : (s.unsettle l).host = s.host := rfl
@[simp] theorem State.unsettle_turns : (s.unsettle l).turns = s.turns := rfl
@[simp] theorem State.unsettle_entropyDraws : (s.unsettle l).entropyDraws = s.entropyDraws := rfl
@[simp] theorem State.unsettle_havocDraws : (s.unsettle l).havocDraws = s.havocDraws := rfl
@[simp] theorem State.unsettle_cacheDraws : (s.unsettle l).cacheDraws = s.cacheDraws + l.length := rfl

end

section
variable (s : State)

@[simp] theorem State.recordUncleaned_irqEn : (s.recordUncleaned).irqEn = s.irqEn := rfl
@[simp] theorem State.recordUncleaned_done : (s.recordUncleaned).done = s.done := rfl
@[simp] theorem State.recordUncleaned_wrIgnored : (s.recordUncleaned).wrIgnored = s.wrIgnored := rfl
@[simp] theorem State.recordUncleaned_errCode : (s.recordUncleaned).errCode = s.errCode := rfl
@[simp] theorem State.recordUncleaned_keyLen : (s.recordUncleaned).keyLen = s.keyLen := rfl
@[simp] theorem State.recordUncleaned_len : (s.recordUncleaned).len = s.len := rfl
@[simp] theorem State.recordUncleaned_outLen : (s.recordUncleaned).outLen = s.outLen := rfl
@[simp] theorem State.recordUncleaned_srcAddr : (s.recordUncleaned).srcAddr = s.srcAddr := rfl
@[simp] theorem State.recordUncleaned_dstAddr : (s.recordUncleaned).dstAddr = s.dstAddr := rfl
@[simp] theorem State.recordUncleaned_rkSel : (s.recordUncleaned).rkSel = s.rkSel := rfl
@[simp] theorem State.recordUncleaned_key : (s.recordUncleaned).key = s.key := rfl
@[simp] theorem State.recordUncleaned_iv : (s.recordUncleaned).iv = s.iv := rfl
@[simp] theorem State.recordUncleaned_din : (s.recordUncleaned).din = s.din := rfl
@[simp] theorem State.recordUncleaned_dout : (s.recordUncleaned).dout = s.dout := rfl
@[simp] theorem State.recordUncleaned_sched : (s.recordUncleaned).sched = s.sched := rfl
@[simp] theorem State.recordUncleaned_schedValid : (s.recordUncleaned).schedValid = s.schedValid := rfl
@[simp] theorem State.recordUncleaned_nr : (s.recordUncleaned).nr = s.nr := rfl
@[simp] theorem State.recordUncleaned_fsm : (s.recordUncleaned).fsm = s.fsm := rfl
@[simp] theorem State.recordUncleaned_mem : (s.recordUncleaned).mem = s.mem := rfl
@[simp] theorem State.recordUncleaned_platform : (s.recordUncleaned).platform = s.platform := rfl
@[simp] theorem State.recordUncleaned_host : (s.recordUncleaned).host = { s.host with unsettled := freshCells s.cacheDraws (s.dirtyIn s.srcAddr.toNat s.len.toNat) } := rfl
@[simp] theorem State.recordUncleaned_turns : (s.recordUncleaned).turns = s.turns := rfl
@[simp] theorem State.recordUncleaned_entropyDraws : (s.recordUncleaned).entropyDraws = s.entropyDraws := rfl
@[simp] theorem State.recordUncleaned_havocDraws : (s.recordUncleaned).havocDraws = s.havocDraws := rfl
@[simp] theorem State.recordUncleaned_cacheDraws : (s.recordUncleaned).cacheDraws = s.cacheDraws + (s.dirtyIn s.srcAddr.toNat s.len.toNat).length := rfl

end

section
variable (s : State) (i : Instr)

@[simp] theorem State.addDuty_irqEn : (s.addDuty i).irqEn = s.irqEn := rfl
@[simp] theorem State.addDuty_done : (s.addDuty i).done = s.done := rfl
@[simp] theorem State.addDuty_wrIgnored : (s.addDuty i).wrIgnored = s.wrIgnored := rfl
@[simp] theorem State.addDuty_errCode : (s.addDuty i).errCode = s.errCode := rfl
@[simp] theorem State.addDuty_keyLen : (s.addDuty i).keyLen = s.keyLen := rfl
@[simp] theorem State.addDuty_len : (s.addDuty i).len = s.len := rfl
@[simp] theorem State.addDuty_outLen : (s.addDuty i).outLen = s.outLen := rfl
@[simp] theorem State.addDuty_srcAddr : (s.addDuty i).srcAddr = s.srcAddr := rfl
@[simp] theorem State.addDuty_dstAddr : (s.addDuty i).dstAddr = s.dstAddr := rfl
@[simp] theorem State.addDuty_rkSel : (s.addDuty i).rkSel = s.rkSel := rfl
@[simp] theorem State.addDuty_key : (s.addDuty i).key = s.key := rfl
@[simp] theorem State.addDuty_iv : (s.addDuty i).iv = s.iv := rfl
@[simp] theorem State.addDuty_din : (s.addDuty i).din = s.din := rfl
@[simp] theorem State.addDuty_dout : (s.addDuty i).dout = s.dout := rfl
@[simp] theorem State.addDuty_sched : (s.addDuty i).sched = s.sched := rfl
@[simp] theorem State.addDuty_schedValid : (s.addDuty i).schedValid = s.schedValid := rfl
@[simp] theorem State.addDuty_nr : (s.addDuty i).nr = s.nr := rfl
@[simp] theorem State.addDuty_fsm : (s.addDuty i).fsm = s.fsm := rfl
@[simp] theorem State.addDuty_mem : (s.addDuty i).mem = s.mem := rfl
@[simp] theorem State.addDuty_platform : (s.addDuty i).platform = s.platform := rfl
@[simp] theorem State.addDuty_host : (s.addDuty i).host = { s.host with duties := dutyOf s i :: s.host.duties } := rfl
@[simp] theorem State.addDuty_turns : (s.addDuty i).turns = s.turns := rfl
@[simp] theorem State.addDuty_entropyDraws : (s.addDuty i).entropyDraws = s.entropyDraws := rfl
@[simp] theorem State.addDuty_havocDraws : (s.addDuty i).havocDraws = s.havocDraws := rfl
@[simp] theorem State.addDuty_cacheDraws : (s.addDuty i).cacheDraws = s.cacheDraws := rfl

end

section
variable (s : State) (r : Response)

@[simp] theorem State.respond_irqEn : (s.respond r).irqEn = s.irqEn := rfl
@[simp] theorem State.respond_done : (s.respond r).done = s.done := rfl
@[simp] theorem State.respond_wrIgnored : (s.respond r).wrIgnored = s.wrIgnored := rfl
@[simp] theorem State.respond_errCode : (s.respond r).errCode = s.errCode := rfl
@[simp] theorem State.respond_keyLen : (s.respond r).keyLen = s.keyLen := rfl
@[simp] theorem State.respond_len : (s.respond r).len = s.len := rfl
@[simp] theorem State.respond_outLen : (s.respond r).outLen = s.outLen := rfl
@[simp] theorem State.respond_srcAddr : (s.respond r).srcAddr = s.srcAddr := rfl
@[simp] theorem State.respond_dstAddr : (s.respond r).dstAddr = s.dstAddr := rfl
@[simp] theorem State.respond_rkSel : (s.respond r).rkSel = s.rkSel := rfl
@[simp] theorem State.respond_key : (s.respond r).key = s.key := rfl
@[simp] theorem State.respond_iv : (s.respond r).iv = s.iv := rfl
@[simp] theorem State.respond_din : (s.respond r).din = s.din := rfl
@[simp] theorem State.respond_dout : (s.respond r).dout = s.dout := rfl
@[simp] theorem State.respond_sched : (s.respond r).sched = s.sched := rfl
@[simp] theorem State.respond_schedValid : (s.respond r).schedValid = s.schedValid := rfl
@[simp] theorem State.respond_nr : (s.respond r).nr = s.nr := rfl
@[simp] theorem State.respond_fsm : (s.respond r).fsm = s.fsm := rfl
@[simp] theorem State.respond_mem : (s.respond r).mem = s.mem := rfl
@[simp] theorem State.respond_platform : (s.respond r).platform = s.platform := rfl
@[simp] theorem State.respond_host : (s.respond r).host = { s.host with responses := r :: s.host.responses } := rfl
@[simp] theorem State.respond_turns : (s.respond r).turns = s.turns := rfl
@[simp] theorem State.respond_entropyDraws : (s.respond r).entropyDraws = s.entropyDraws := rfl
@[simp] theorem State.respond_havocDraws : (s.respond r).havocDraws = s.havocDraws := rfl
@[simp] theorem State.respond_cacheDraws : (s.respond r).cacheDraws = s.cacheDraws := rfl

end

section
variable (s : State)

@[simp] theorem State.dropTurn_irqEn : (s.dropTurn).irqEn = s.irqEn := rfl
@[simp] theorem State.dropTurn_done : (s.dropTurn).done = s.done := rfl
@[simp] theorem State.dropTurn_wrIgnored : (s.dropTurn).wrIgnored = s.wrIgnored := rfl
@[simp] theorem State.dropTurn_errCode : (s.dropTurn).errCode = s.errCode := rfl
@[simp] theorem State.dropTurn_keyLen : (s.dropTurn).keyLen = s.keyLen := rfl
@[simp] theorem State.dropTurn_len : (s.dropTurn).len = s.len := rfl
@[simp] theorem State.dropTurn_outLen : (s.dropTurn).outLen = s.outLen := rfl
@[simp] theorem State.dropTurn_srcAddr : (s.dropTurn).srcAddr = s.srcAddr := rfl
@[simp] theorem State.dropTurn_dstAddr : (s.dropTurn).dstAddr = s.dstAddr := rfl
@[simp] theorem State.dropTurn_rkSel : (s.dropTurn).rkSel = s.rkSel := rfl
@[simp] theorem State.dropTurn_key : (s.dropTurn).key = s.key := rfl
@[simp] theorem State.dropTurn_iv : (s.dropTurn).iv = s.iv := rfl
@[simp] theorem State.dropTurn_din : (s.dropTurn).din = s.din := rfl
@[simp] theorem State.dropTurn_dout : (s.dropTurn).dout = s.dout := rfl
@[simp] theorem State.dropTurn_sched : (s.dropTurn).sched = s.sched := rfl
@[simp] theorem State.dropTurn_schedValid : (s.dropTurn).schedValid = s.schedValid := rfl
@[simp] theorem State.dropTurn_nr : (s.dropTurn).nr = s.nr := rfl
@[simp] theorem State.dropTurn_fsm : (s.dropTurn).fsm = s.fsm := rfl
@[simp] theorem State.dropTurn_mem : (s.dropTurn).mem = s.mem := rfl
@[simp] theorem State.dropTurn_platform : (s.dropTurn).platform = s.platform := rfl
@[simp] theorem State.dropTurn_host : (s.dropTurn).host = s.host := rfl
@[simp] theorem State.dropTurn_turns : (s.dropTurn).turns = s.turns.tail := rfl
@[simp] theorem State.dropTurn_entropyDraws : (s.dropTurn).entropyDraws = s.entropyDraws := rfl
@[simp] theorem State.dropTurn_havocDraws : (s.dropTurn).havocDraws = s.havocDraws := rfl
@[simp] theorem State.dropTurn_cacheDraws : (s.dropTurn).cacheDraws = s.cacheDraws := rfl

end

section
variable (s : State)

@[simp] theorem State.resetBlock_irqEn : s.resetBlock.irqEn = State.reset.irqEn := rfl
@[simp] theorem State.resetBlock_done : s.resetBlock.done = State.reset.done := rfl
@[simp] theorem State.resetBlock_wrIgnored : s.resetBlock.wrIgnored = State.reset.wrIgnored := rfl
@[simp] theorem State.resetBlock_errCode : s.resetBlock.errCode = State.reset.errCode := rfl
@[simp] theorem State.resetBlock_keyLen : s.resetBlock.keyLen = State.reset.keyLen := rfl
@[simp] theorem State.resetBlock_len : s.resetBlock.len = State.reset.len := rfl
@[simp] theorem State.resetBlock_outLen : s.resetBlock.outLen = State.reset.outLen := rfl
@[simp] theorem State.resetBlock_srcAddr : s.resetBlock.srcAddr = State.reset.srcAddr := rfl
@[simp] theorem State.resetBlock_dstAddr : s.resetBlock.dstAddr = State.reset.dstAddr := rfl
@[simp] theorem State.resetBlock_rkSel : s.resetBlock.rkSel = State.reset.rkSel := rfl
@[simp] theorem State.resetBlock_key : s.resetBlock.key = State.reset.key := rfl
@[simp] theorem State.resetBlock_iv : s.resetBlock.iv = State.reset.iv := rfl
@[simp] theorem State.resetBlock_din : s.resetBlock.din = State.reset.din := rfl
@[simp] theorem State.resetBlock_dout : s.resetBlock.dout = State.reset.dout := rfl
@[simp] theorem State.resetBlock_sched : s.resetBlock.sched = State.reset.sched := rfl
@[simp] theorem State.resetBlock_schedValid : s.resetBlock.schedValid = State.reset.schedValid := rfl
@[simp] theorem State.resetBlock_nr : s.resetBlock.nr = State.reset.nr := rfl
@[simp] theorem State.resetBlock_fsm : s.resetBlock.fsm = State.reset.fsm := rfl
@[simp] theorem State.resetBlock_mem : s.resetBlock.mem = s.mem := rfl
@[simp] theorem State.resetBlock_platform : s.resetBlock.platform = s.platform := rfl
@[simp] theorem State.resetBlock_host : s.resetBlock.host = s.host := rfl
@[simp] theorem State.resetBlock_turns : s.resetBlock.turns = s.turns := rfl
@[simp] theorem State.resetBlock_entropyDraws : s.resetBlock.entropyDraws = s.entropyDraws := rfl
@[simp] theorem State.resetBlock_havocDraws : s.resetBlock.havocDraws = s.havocDraws := rfl
@[simp] theorem State.resetBlock_cacheDraws : s.resetBlock.cacheDraws = s.cacheDraws := rfl

end

section
variable (s : State)

@[simp] theorem State.endDuties_irqEn : (s.endDuties).irqEn = s.irqEn := by unfold State.endDuties; split <;> rfl
@[simp] theorem State.endDuties_done : (s.endDuties).done = s.done := by unfold State.endDuties; split <;> rfl
@[simp] theorem State.endDuties_wrIgnored : (s.endDuties).wrIgnored = s.wrIgnored := by unfold State.endDuties; split <;> rfl
@[simp] theorem State.endDuties_errCode : (s.endDuties).errCode = s.errCode := by unfold State.endDuties; split <;> rfl
@[simp] theorem State.endDuties_keyLen : (s.endDuties).keyLen = s.keyLen := by unfold State.endDuties; split <;> rfl
@[simp] theorem State.endDuties_len : (s.endDuties).len = s.len := by unfold State.endDuties; split <;> rfl
@[simp] theorem State.endDuties_outLen : (s.endDuties).outLen = s.outLen := by unfold State.endDuties; split <;> rfl
@[simp] theorem State.endDuties_srcAddr : (s.endDuties).srcAddr = s.srcAddr := by unfold State.endDuties; split <;> rfl
@[simp] theorem State.endDuties_dstAddr : (s.endDuties).dstAddr = s.dstAddr := by unfold State.endDuties; split <;> rfl
@[simp] theorem State.endDuties_rkSel : (s.endDuties).rkSel = s.rkSel := by unfold State.endDuties; split <;> rfl
@[simp] theorem State.endDuties_key : (s.endDuties).key = s.key := by unfold State.endDuties; split <;> rfl
@[simp] theorem State.endDuties_iv : (s.endDuties).iv = s.iv := by unfold State.endDuties; split <;> rfl
@[simp] theorem State.endDuties_din : (s.endDuties).din = s.din := by unfold State.endDuties; split <;> rfl
@[simp] theorem State.endDuties_dout : (s.endDuties).dout = s.dout := by unfold State.endDuties; split <;> rfl
@[simp] theorem State.endDuties_sched : (s.endDuties).sched = s.sched := by unfold State.endDuties; split <;> rfl
@[simp] theorem State.endDuties_schedValid : (s.endDuties).schedValid = s.schedValid := by unfold State.endDuties; split <;> rfl
@[simp] theorem State.endDuties_nr : (s.endDuties).nr = s.nr := by unfold State.endDuties; split <;> rfl
@[simp] theorem State.endDuties_fsm : (s.endDuties).fsm = s.fsm := by unfold State.endDuties; split <;> rfl
@[simp] theorem State.endDuties_mem : (s.endDuties).mem = s.mem := by unfold State.endDuties; split <;> rfl
@[simp] theorem State.endDuties_platform : (s.endDuties).platform = s.platform := by unfold State.endDuties; split <;> rfl
@[simp] theorem State.endDuties_turns : (s.endDuties).turns = s.turns := by unfold State.endDuties; split <;> rfl
@[simp] theorem State.endDuties_entropyDraws : (s.endDuties).entropyDraws = s.entropyDraws := by unfold State.endDuties; split <;> rfl
@[simp] theorem State.endDuties_havocDraws : (s.endDuties).havocDraws = s.havocDraws := by unfold State.endDuties; split <;> rfl
@[simp] theorem State.endDuties_cacheDraws : (s.endDuties).cacheDraws = s.cacheDraws := by unfold State.endDuties; split <;> rfl

end

section
variable (s : State) (i : Option Instr)

@[simp] theorem State.beginDuty_irqEn : (s.beginDuty i).irqEn = s.irqEn := by unfold State.beginDuty; (repeat' split) <;> rfl
@[simp] theorem State.beginDuty_done : (s.beginDuty i).done = s.done := by unfold State.beginDuty; (repeat' split) <;> rfl
@[simp] theorem State.beginDuty_wrIgnored : (s.beginDuty i).wrIgnored = s.wrIgnored := by unfold State.beginDuty; (repeat' split) <;> rfl
@[simp] theorem State.beginDuty_errCode : (s.beginDuty i).errCode = s.errCode := by unfold State.beginDuty; (repeat' split) <;> rfl
@[simp] theorem State.beginDuty_keyLen : (s.beginDuty i).keyLen = s.keyLen := by unfold State.beginDuty; (repeat' split) <;> rfl
@[simp] theorem State.beginDuty_len : (s.beginDuty i).len = s.len := by unfold State.beginDuty; (repeat' split) <;> rfl
@[simp] theorem State.beginDuty_outLen : (s.beginDuty i).outLen = s.outLen := by unfold State.beginDuty; (repeat' split) <;> rfl
@[simp] theorem State.beginDuty_srcAddr : (s.beginDuty i).srcAddr = s.srcAddr := by unfold State.beginDuty; (repeat' split) <;> rfl
@[simp] theorem State.beginDuty_dstAddr : (s.beginDuty i).dstAddr = s.dstAddr := by unfold State.beginDuty; (repeat' split) <;> rfl
@[simp] theorem State.beginDuty_rkSel : (s.beginDuty i).rkSel = s.rkSel := by unfold State.beginDuty; (repeat' split) <;> rfl
@[simp] theorem State.beginDuty_key : (s.beginDuty i).key = s.key := by unfold State.beginDuty; (repeat' split) <;> rfl
@[simp] theorem State.beginDuty_iv : (s.beginDuty i).iv = s.iv := by unfold State.beginDuty; (repeat' split) <;> rfl
@[simp] theorem State.beginDuty_din : (s.beginDuty i).din = s.din := by unfold State.beginDuty; (repeat' split) <;> rfl
@[simp] theorem State.beginDuty_dout : (s.beginDuty i).dout = s.dout := by unfold State.beginDuty; (repeat' split) <;> rfl
@[simp] theorem State.beginDuty_sched : (s.beginDuty i).sched = s.sched := by unfold State.beginDuty; (repeat' split) <;> rfl
@[simp] theorem State.beginDuty_schedValid : (s.beginDuty i).schedValid = s.schedValid := by unfold State.beginDuty; (repeat' split) <;> rfl
@[simp] theorem State.beginDuty_nr : (s.beginDuty i).nr = s.nr := by unfold State.beginDuty; (repeat' split) <;> rfl
@[simp] theorem State.beginDuty_fsm : (s.beginDuty i).fsm = s.fsm := by unfold State.beginDuty; (repeat' split) <;> rfl
@[simp] theorem State.beginDuty_mem : (s.beginDuty i).mem = s.mem := by unfold State.beginDuty; (repeat' split) <;> rfl
@[simp] theorem State.beginDuty_platform : (s.beginDuty i).platform = s.platform := by unfold State.beginDuty; (repeat' split) <;> rfl
@[simp] theorem State.beginDuty_turns : (s.beginDuty i).turns = s.turns := by unfold State.beginDuty; (repeat' split) <;> rfl
@[simp] theorem State.beginDuty_entropyDraws : (s.beginDuty i).entropyDraws = s.entropyDraws := by unfold State.beginDuty; (repeat' split) <;> rfl
@[simp] theorem State.beginDuty_havocDraws : (s.beginDuty i).havocDraws = s.havocDraws := by unfold State.beginDuty; (repeat' split) <;> rfl

end

/-- The windows claimed by a duty do not move when DMA writes: only the stale bytes change. -/
@[simp] theorem HostSide.noteDmaWrite_program (h : HostSide) (p : Platform) (l : List Nat) :
    (h.noteDmaWrite p l).program = h.program := by unfold HostSide.noteDmaWrite; split <;> rfl

@[simp] theorem HostSide.noteDmaWrite_responses (h : HostSide) (p : Platform) (l : List Nat) :
    (h.noteDmaWrite p l).responses = h.responses := by unfold HostSide.noteDmaWrite; split <;> rfl

@[simp] theorem HostSide.noteDmaWrite_duties (h : HostSide) (p : Platform) (l : List Nat) :
    (h.noteDmaWrite p l).duties = h.duties := by unfold HostSide.noteDmaWrite; split <;> rfl

@[simp] theorem HostSide.noteDmaWrite_unsettled (h : HostSide) (p : Platform) (l : List Nat) :
    (h.noteDmaWrite p l).unsettled = h.unsettled := by unfold HostSide.noteDmaWrite; split <;> rfl

@[simp] theorem HostSide.noteDmaWrite_dirty (h : HostSide) (p : Platform) (l : List Nat) :
    (h.noteDmaWrite p l).dirty = h.dirty := by unfold HostSide.noteDmaWrite; split <;> rfl

/-- Where DMA is coherent the host's side does not see a DMA write. -/
theorem HostSide.noteDmaWrite_coherent (h : HostSide) (p : Platform) (l : List Nat) (hc : p.dmaCoherent = true) :
    h.noteDmaWrite p l = h := by unfold HostSide.noteDmaWrite; rw [if_pos hc]

/-- Where DMA is coherent the host's side does not record a host write. -/
theorem HostSide.noteHostWrite_coherent (h : HostSide) (p : Platform) (a : Addr) (hc : p.dmaCoherent = true) :
    h.noteHostWrite p a = h := by unfold HostSide.noteHostWrite; rw [if_pos hc]

/-! BUSY after each update. -/

@[simp] theorem State.finish_busy (s : State) (c : BitVec 4) : (s.finish c).busy = false := rfl

@[simp] theorem State.startCommand_busy (s : State) (w : Word) : (s.startCommand w).busy = true := rfl

@[simp] theorem State.clearStatus_busy (s : State) (v : Word) : (s.clearStatus v).busy = s.busy := rfl

@[simp] theorem State.respond_busy (s : State) (r : Response) : (s.respond r).busy = s.busy := rfl

@[simp] theorem State.setHost_busy (s : State) (h : HostSide) : (s.setHost h).busy = s.busy := rfl

@[simp] theorem State.setProgram_busy (s : State) (p : List HostOp) : (s.setProgram p).busy = s.busy := rfl

@[simp] theorem State.hostStore_busy (s : State) (a : Addr) (b : Byte) : (s.hostStore a b).busy = s.busy := rfl

@[simp] theorem State.ignoreWrite_busy (s : State) : s.ignoreWrite.busy = s.busy := rfl

@[simp] theorem State.dropTurn_busy (s : State) : s.dropTurn.busy = s.busy := rfl

@[simp] theorem State.takeCacheDraw_busy (s : State) : s.takeCacheDraw.busy = s.busy := rfl

@[simp] theorem State.unsettle_busy (s : State) (l : List Addr) : (s.unsettle l).busy = s.busy := rfl

@[simp] theorem State.resetBlock_busy (s : State) : s.resetBlock.busy = false := rfl

@[simp] theorem State.beginDuty_busy (s : State) (i : Option Instr) : (s.beginDuty i).busy = s.busy := by
  simp [State.busy]

@[simp] theorem State.endDuties_busy (s : State) : s.endDuties.busy = s.busy := by simp [State.busy]

/-- fsm = IDLE and BUSY = 0 are the same (10_state.md R38). -/
theorem State.busy_eq_false (s : State) : s.busy = false ↔ s.fsm = .idle := by
  unfold State.busy; cases s.fsm <;> simp

theorem State.busy_eq_true (s : State) : s.busy = true ↔ ∃ w, s.fsm = .busy w := by
  unfold State.busy; cases s.fsm <;> simp

end Sys2Proof.Machine
end

