-- ==== Sys2Proof/Laws/Memory.lean ====
section
/-! SUPPORT. System memory: read after write, the canonical form, ranges and Havoc (20_memory.md R62, 00_scope.md R17). -/

namespace Sys2Proof.Machine

namespace Memory

@[simp] theorem read_nil (a : Nat) : read [] a = background := rfl

theorem read_cons (k : Nat) (b : Byte) (m : Memory) (a : Nat) :
    read ((k, b) :: m) a = if k = a then b else read m a := rfl

/-- An address none of the entries has reads as the background. -/
theorem read_of_absent {m : Memory} {a : Nat} (h : ∀ x ∈ m, x.1 ≠ a) : m.read a = background := by
  induction m with
  | nil => rfl
  | cons x m ih =>
    rw [read_cons, if_neg (h x (by simp)), ih fun y hy => h y (by simp [hy])]

/-- A write leaves every other address alone. -/
theorem read_write_other (m : Memory) {a a' : Nat} (v : Byte) (h : a' ≠ a) : (m.write a v).read a' = m.read a' := by
  induction m with
  | nil => unfold write; split <;> simp [read_cons, Ne.symm h]
  | cons x m ih =>
    obtain ⟨k, b⟩ := x
    simp only [write]
    split
    · split <;> simp [read_cons, Ne.symm h]
    · split
      · rename_i hak
        subst hak
        split <;> simp [read_cons, Ne.symm h]
      · simp [read_cons, ih]

/-- A read after a write to the same address gives the value written. -/
theorem read_write_same {m : Memory} (hm : m.wf) (a : Nat) (v : Byte) : (m.write a v).read a = v := by
  induction m with
  | nil => unfold write; split <;> simp_all [read_cons]
  | cons x m ih =>
    obtain ⟨k, b⟩ := x
    obtain ⟨hs, hb⟩ := hm
    rw [List.pairwise_cons] at hs
    simp only [write]
    split
    · rename_i hak
      split
      · rename_i hv
        rw [hv]
        refine read_of_absent fun y hy => ?_
        rcases List.mem_cons.1 hy with rfl | hy
        · simp only; omega
        · have := hs.1 y hy; simp only at this; omega
      · simp [read_cons]
    · split
      · rename_i hak
        split
        · rename_i hv
          rw [hv]
          exact read_of_absent fun y hy => by have := hs.1 y hy; simp only at this; omega
        · simp [read_cons]
      · rename_i h1 h2
        rw [read_cons, if_neg (Ne.symm h2)]
        exact ih ⟨hs.2, fun y hy => hb y (by simp [hy])⟩

/-- A read after a write. -/
theorem read_write {m : Memory} (hm : m.wf) (a a' : Nat) (v : Byte) :
    (m.write a v).read a' = if a' = a then v else m.read a' := by
  split
  · rename_i h; rw [h, read_write_same hm]
  · exact read_write_other m v ‹_›

/-- Every entry after a write is the written one or was there before. -/
theorem mem_write {m : Memory} {a : Nat} {v : Byte} {y : Host.Cell} (hy : y ∈ m.write a v) :
    (y = (a, v) ∧ v ≠ background) ∨ y ∈ m := by
  induction m with
  | nil => unfold write at hy; split at hy <;> simp_all
  | cons x m ih =>
    obtain ⟨k, b⟩ := x
    simp only [write] at hy
    split at hy
    · split at hy <;> simp_all
    · split at hy
      · split at hy
        · simp [hy]
        · rcases List.mem_cons.1 hy with rfl | h
          · exact .inl ⟨rfl, ‹_›⟩
          · simp [h]
      · rcases List.mem_cons.1 hy with rfl | h
        · simp
        · rcases ih h with h | h
          · exact .inl h
          · simp [h]

theorem write_wf {m : Memory} (hm : m.wf) (a : Nat) (v : Byte) : (m.write a v).wf := by
  refine ⟨?_, fun y hy => ?_⟩
  · obtain ⟨hs, -⟩ := hm
    induction m with
    | nil => unfold write; split <;> simp
    | cons x m ih =>
      obtain ⟨k, b⟩ := x
      have hs' := List.pairwise_cons.1 hs
      simp only [write]
      split
      · rename_i hak
        split
        · exact hs
        · refine List.pairwise_cons.2 ⟨fun y hy => ?_, hs⟩
          rcases List.mem_cons.1 hy with rfl | hy
          · exact hak
          · exact lt_trans hak (hs'.1 y hy)
      · split
        · rename_i hak
          split
          · exact hs'.2
          · exact List.pairwise_cons.2 ⟨fun y hy => by rw [hak]; exact hs'.1 y hy, hs'.2⟩
        · refine List.pairwise_cons.2 ⟨fun y hy => ?_, ih hs'.2⟩
          rcases mem_write hy with ⟨rfl, -⟩ | hy
          · simp only; omega
          · exact hs'.1 y hy
  · rcases mem_write hy with ⟨rfl, h⟩ | hy
    · exact h
    · exact hm.2 y hy

theorem write_inSpace {m : Memory} (hm : m.inSpace) {a : Nat} (ha : a < Config.addrSpace) (v : Byte) :
    (m.write a v).inSpace := by
  intro y hy
  rcases mem_write hy with ⟨rfl, -⟩ | hy
  · exact ha
  · exact hm y hy

/-- Equal memories are equal data: two canonical memories that read alike everywhere are one list. -/
theorem wf_ext {m m' : Memory} (hm : m.wf) (hm' : m'.wf) (h : ∀ a, m.read a = m'.read a) : m = m' := by
  induction m generalizing m' with
  | nil =>
    cases m' with
    | nil => rfl
    | cons x m' =>
      have := h x.1
      rw [read_nil, read_cons, if_pos rfl] at this
      exact absurd this.symm (hm'.2 x (by simp))
  | cons x m ih =>
    obtain ⟨k, b⟩ := x
    have hs := List.pairwise_cons.1 hm.1
    cases m' with
    | nil =>
      have := h k
      rw [read_nil, read_cons, if_pos rfl] at this
      exact absurd this (hm.2 (k, b) (by simp))
    | cons x' m' =>
      obtain ⟨k', b'⟩ := x'
      have hs' := List.pairwise_cons.1 hm'.1
      have hk : k = k' := by
        rcases lt_trichotomy k k' with hlt | heq | hlt
        · have := h k
          rw [read_cons, if_pos rfl, read_of_absent (m := (k', b') :: m')] at this
          · exact absurd this (hm.2 (k, b) (by simp))
          · intro y hy
            rcases List.mem_cons.1 hy with rfl | hy
            · simp only; omega
            · have := hs'.1 y hy; simp only at this; omega
        · exact heq
        · have := h k'
          rw [read_cons k', if_pos rfl, read_of_absent (m := (k, b) :: m)] at this
          · exact absurd this.symm (hm'.2 (k', b') (by simp))
          · intro y hy
            rcases List.mem_cons.1 hy with rfl | hy
            · simp only; omega
            · have := hs.1 y hy; simp only at this; omega
      subst hk
      have hb : b = b' := by simpa [read_cons] using h k
      subst hb
      congr 1
      refine ih ⟨hs.2, fun y hy => hm.2 y (by simp [hy])⟩ ⟨hs'.2, fun y hy => hm'.2 y (by simp [hy])⟩ fun a => ?_
      by_cases ha : k = a
      · subst ha
        rw [read_of_absent fun y hy => (ne_of_gt (hs.1 y hy)), read_of_absent fun y hy => (ne_of_gt (hs'.1 y hy))]
      · simpa [read_cons, ha] using h a

@[simp] theorem readRange_length (m : Memory) (a n : Nat) : (m.readRange a n).length = n := by
  induction n generalizing a with
  | zero => rfl
  | succ n ih => simp [readRange, ih]

/-- MemRead(a, n)[i] = M[a+i] (R62). -/
theorem readRange_getElem (m : Memory) (a n i : Nat) (h : i < (m.readRange a n).length) :
    (m.readRange a n)[i] = m.read (a + i) := by
  induction n generalizing a i with
  | zero => simp [readRange] at h
  | succ n ih =>
    cases i with
    | zero => simp [readRange]
    | succ i =>
      simp only [readRange, List.getElem_cons_succ]
      rw [ih]
      congr 1
      omega

/-- Memories that read alike on a range have the same MemRead. -/
theorem readRange_congr {m m' : Memory} {a n : Nat} (h : ∀ x, a ≤ x → x < a + n → m.read x = m'.read x) :
    m.readRange a n = m'.readRange a n := by
  refine List.ext_getElem (by simp) fun i hi hi' => ?_
  rw [readRange_getElem, readRange_getElem]
  rw [readRange_length] at hi
  exact h _ (by omega) (by omega)

theorem writeRange_wf {m : Memory} (hm : m.wf) (a : Nat) (b : List Byte) : (m.writeRange a b).wf := by
  induction b generalizing m a with
  | nil => exact hm
  | cons x b ih => exact ih (write_wf hm a x) (a + 1)

theorem writeRange_inSpace {m : Memory} (hm : m.inSpace) {a : Nat} (b : List Byte)
    (ha : a + b.length ≤ Config.addrSpace) : (m.writeRange a b).inSpace := by
  induction b generalizing m a with
  | nil => exact hm
  | cons x b ih =>
    simp only [List.length_cons] at ha
    exact ih (write_inSpace hm (by omega) x) (by omega)

/-- MemWrite leaves every address outside its range alone. -/
theorem read_writeRange_outside (m : Memory) (a x : Nat) (b : List Byte) (h : ¬ (a ≤ x ∧ x < a + b.length)) :
    (m.writeRange a b).read x = m.read x := by
  induction b generalizing m a with
  | nil => rfl
  | cons y b ih =>
    simp only [List.length_cons] at h
    rw [writeRange, ih _ _ (by omega), read_write_other _ _ (by omega)]

/-- MemWrite(a, n, B) puts byte B[i] at a + i (R62). -/
theorem read_writeRange_inside {m : Memory} (hm : m.wf) (a i : Nat) (b : List Byte) (h : i < b.length) :
    (m.writeRange a b).read (a + i) = b[i] := by
  induction b generalizing m a i with
  | nil => simp at h
  | cons y b ih =>
    cases i with
    | zero =>
      rw [writeRange, read_writeRange_outside _ _ _ _ (by omega)]
      simpa using read_write_same hm a y
    | succ i =>
      simp only [List.length_cons] at h
      have := ih (write_wf hm a y) (a + 1) i (by omega)
      rw [writeRange, show a + (i + 1) = a + 1 + i by omega, this]
      simp

theorem havoc_wf (allow : Nat → Bool) (fresh : Nat → Byte) {m : Memory} (hm : m.wf) (n a k : Nat) :
    (m.havoc allow fresh n a k).wf := by
  induction n generalizing m a k with
  | zero => exact hm
  | succ n ih =>
    simp only [havoc]
    split
    · exact ih (write_wf hm a _) _ _
    · exact ih hm _ _

theorem havoc_inSpace (allow : Nat → Bool) (fresh : Nat → Byte) {m : Memory} (hm : m.inSpace) {n a : Nat} (k : Nat)
    (ha : a + n ≤ Config.addrSpace) : (m.havoc allow fresh n a k).inSpace := by
  induction n generalizing m a k with
  | zero => exact hm
  | succ n ih =>
    simp only [havoc]
    split
    · exact ih (write_inSpace hm (by omega) _) _ (by omega)
    · exact ih hm _ (by omega)

/-- Havoc leaves every address outside its window, and every address not admitted, alone (R17, R65). -/
theorem read_havoc_other (allow : Nat → Bool) (fresh : Nat → Byte) (m : Memory) (n a k x : Nat)
    (h : ¬ (a ≤ x ∧ x < a + n) ∨ allow x = false) : (m.havoc allow fresh n a k).read x = m.read x := by
  induction n generalizing m a k with
  | zero => rfl
  | succ n ih =>
    simp only [havoc]
    have h' : ¬ (a + 1 ≤ x ∧ x < a + 1 + n) ∨ allow x = false := by
      rcases h with h | h
      · exact .inl (by omega)
      · exact .inr h
    rw [ih _ _ _ h']
    split
    · refine read_write_other _ _ fun hx => ?_
      subst hx
      rcases h with h | h
      · omega
      · simp_all
    · rfl

/-- Havoc gives an admitted byte of its window the free value of its index (R17). -/
theorem read_havoc_inside (allow : Nat → Bool) (fresh : Nat → Byte) {m : Memory} (hm : m.wf) (n a k x : Nat)
    (h1 : a ≤ x) (h2 : x < a + n) (hx : allow x = true) :
    (m.havoc allow fresh n a k).read x = fresh (k + (x - a)) := by
  induction n generalizing m a k with
  | zero => omega
  | succ n ih =>
    simp only [havoc]
    by_cases he : x = a
    · subst he
      rw [if_pos hx, read_havoc_other _ _ _ _ _ _ _ (.inl (by omega)), read_write_same hm]
      simp
    · have h3 : k + 1 + (x - (a + 1)) = k + (x - a) := by omega
      split
      · rw [ih (write_wf hm _ _) _ _ (by omega) (by omega), h3]
      · rw [ih hm _ _ (by omega) (by omega), h3]

theorem writeCells_wf {m : Memory} (hm : m.wf) (cs : List Host.Cell) : (m.writeCells cs).wf := by
  induction cs generalizing m with
  | nil => exact hm
  | cons c cs ih => exact ih (write_wf hm c.1 c.2)

theorem writeCells_inSpace {m : Memory} (hm : m.inSpace) {cs : List Host.Cell}
    (h : ∀ c ∈ cs, c.1 < Config.addrSpace) : (m.writeCells cs).inSpace := by
  induction cs generalizing m with
  | nil => exact hm
  | cons c cs ih => exact ih (write_inSpace hm (h c (by simp)) c.2) fun d hd => h d (by simp [hd])

/-- An address none of the cells has is left alone. -/
theorem read_writeCells_other (m : Memory) {cs : List Host.Cell} {x : Nat} (h : ∀ c ∈ cs, c.1 ≠ x) :
    (m.writeCells cs).read x = m.read x := by
  induction cs generalizing m with
  | nil => rfl
  | cons c cs ih =>
    rw [writeCells, ih _ fun d hd => h d (by simp [hd]), read_write_other _ _ (Ne.symm (h c (by simp)))]

/-- An address that some cell has reads one of its cells' bytes. -/
theorem read_writeCells_some {m : Memory} (hm : m.wf) {cs : List Host.Cell} {x : Nat} (h : ∃ c ∈ cs, c.1 = x) :
    ∃ c ∈ cs, c.1 = x ∧ (m.writeCells cs).read x = c.2 := by
  induction cs generalizing m with
  | nil => simp at h
  | cons c cs ih =>
    by_cases hx : ∃ d ∈ cs, d.1 = x
    · obtain ⟨d, hd, hdx, hr⟩ := ih (write_wf hm c.1 c.2) hx
      exact ⟨d, by simp [hd], hdx, hr⟩
    · have hc : c.1 = x := by
        obtain ⟨d, hd, hdx⟩ := h
        rcases List.mem_cons.1 hd with rfl | hd
        · exact hdx
        · exact absurd ⟨d, hd, hdx⟩ hx
      refine ⟨c, by simp, hc, ?_⟩
      rw [writeCells, read_writeCells_other _ fun d hd hdx => hx ⟨d, hd, hdx⟩, ← hc, read_write_same hm]

end Memory

/-- A free cell is one of the addresses with one of the draws. -/
theorem mem_freshCells {k : Nat} {l : List Addr} {c : Host.Cell} (h : c ∈ freshCells k l) :
    ∃ a ∈ l, ∃ j : Nat, k ≤ j ∧ j < k + l.length ∧ c = (a.toNat, Config.cacheByte j) := by
  induction l generalizing k with
  | nil => cases h
  | cons a l ih =>
    rcases List.mem_cons.1 h with rfl | h
    · exact ⟨a, by simp, k, le_rfl, by simp, rfl⟩
    · obtain ⟨b, hb, j, h1, h2, rfl⟩ := ih h
      exact ⟨b, by simp [hb], j, by omega, by simp only [List.length_cons]; omega, rfl⟩

theorem freshCells_inSpace (k : Nat) (l : List Addr) : ∀ c ∈ freshCells k l, c.1 < Config.addrSpace := by
  intro c hc
  obtain ⟨a, -, j, -, -, rfl⟩ := mem_freshCells hc
  exact a.isLt

/-- Every address of the list has a free cell. -/
theorem exists_freshCells (k : Nat) {l : List Addr} {a : Addr} (h : a ∈ l) : ∃ c ∈ freshCells k l, c.1 = a.toNat := by
  induction l generalizing k with
  | nil => cases h
  | cons b l ih =>
    rcases List.mem_cons.1 h with rfl | h
    · exact ⟨_, List.mem_cons_self, rfl⟩
    · obtain ⟨c, hc, hca⟩ := ih (k + 1) h
      exact ⟨c, List.mem_cons_of_mem _ hc, hca⟩

/-- A byte that takes a free value reads one of the draws. -/
theorem read_freshCells_inside {m : Memory} (hm : m.wf) (k : Nat) {l : List Addr} {a : Addr} (h : a ∈ l) :
    ∃ j : Nat, k ≤ j ∧ j < k + l.length ∧ (m.writeCells (freshCells k l)).read a.toNat = Config.cacheByte j := by
  obtain ⟨c, hc, -, hr⟩ := Memory.read_writeCells_some hm (exists_freshCells k h)
  obtain ⟨b, -, j, h1, h2, rfl⟩ := mem_freshCells hc
  exact ⟨j, h1, h2, hr⟩

/-- Every other byte reads as before. -/
theorem read_freshCells_outside (m : Memory) (k : Nat) {l : List Addr} {a : Addr} (h : a ∉ l) :
    (m.writeCells (freshCells k l)).read a.toNat = m.read a.toNat := by
  refine Memory.read_writeCells_other m fun c hc hx => ?_
  obtain ⟨b, hb, j, -, -, rfl⟩ := mem_freshCells hc
  exact h (BitVec.eq_of_toNat_eq hx ▸ hb)

/-! ### Memory as DMA and the host's caches show it (20_memory.md R68) -/

theorem State.dirtyIn_coherent {s : State} (h : s.platform.dmaCoherent = true) (a n : Nat) : s.dirtyIn a n = [] := by
  unfold State.dirtyIn; rw [if_pos h]

/-- The uncleaned bytes of a window. -/
theorem State.mem_dirtyIn {s : State} (h : s.platform.dmaCoherent = false) (a n : Nat) (x : Addr) :
    x ∈ s.dirtyIn a n ↔ x ∈ s.host.dirty ∧ a ≤ x.toNat ∧ x.toNat < a + n := by
  simp [State.dirtyIn, h, inWindow]

theorem State.staleAt_coherent {s : State} (h : s.platform.dmaCoherent = true) (x : Nat) : s.staleAt x = false := by
  simp [State.staleAt, h]

theorem State.staleAt_iff {s : State} (h : s.platform.dmaCoherent = false) (x : Nat) :
    s.staleAt x = true ↔ x ∈ s.host.stale := by simp [State.staleAt, h]

/-- Which bytes are stale after a DMA write. -/
theorem HostSide.mem_noteDmaWrite {p : Platform} (hc : p.dmaCoherent = false) (h : HostSide) (l : List Nat) (x : Nat) :
    x ∈ (h.noteDmaWrite p l).stale ↔ x ∈ l ∨ x ∈ h.stale := by simp [HostSide.noteDmaWrite, hc]

theorem mem_writableBytes (p : Platform) (a n x : Nat) :
    x ∈ writableBytes p a n ↔ (a ≤ x ∧ x < a + n) ∧ memAdmit p .write x = true := by simp [writableBytes]

theorem State.dmaView_coherent {s : State} (h : s.platform.dmaCoherent = true) : s.dmaView = s.mem := by
  unfold State.dmaView; rw [if_pos h]

/-- With every source byte cleaned DMA reads memory. -/
theorem State.dmaView_settled {s : State} (h : s.host.unsettled = []) : s.dmaView = s.mem := by
  unfold State.dmaView; rw [h]; exact ite_self _

theorem State.dmaView_wf {s : State} (h : s.mem.wf) : s.dmaView.wf := by
  unfold State.dmaView
  split
  · exact h
  · exact Memory.writeCells_wf h _

/-- DMA's view depends on memory, the platform and the recorded bytes only. -/
theorem State.dmaView_congr {s t : State} (hm : t.mem = s.mem) (hp : t.platform = s.platform)
    (hu : t.host.unsettled = s.host.unsettled) : t.dmaView = s.dmaView := by
  unfold State.dmaView; rw [hm, hp, hu]

@[simp] theorem sourceBytes_length (s : State) : (sourceBytes s).length = s.len.toNat := by simp [sourceBytes]

/-- Source byte i is DMA's byte at SRC_ADDR + i. -/
theorem sourceBytes_getD (s : State) {i : Nat} (h : i < s.len.toNat) :
    (sourceBytes s).getD i 0#8 = s.dmaView.read (s.srcAddr.toNat + i) := by
  rw [List.getD_eq_getElem _ _ (by simpa using h)]
  exact Memory.readRange_getElem _ _ _ _ _

theorem inWindow_iff (a n x : Nat) : inWindow a n x = true ↔ a ≤ x ∧ x < a + n := by simp [inWindow]

theorem inWindow_eq_false (a n x : Nat) : inWindow a n x = false ↔ ¬ (a ≤ x ∧ x < a + n) := by
  rw [← inWindow_iff]; simp

theorem inRange_iff (a n : Nat) : inRange a n = true ↔ a + n ≤ 4294967296 := by
  unfold inRange Config.addrSpace; exact decide_eq_true_iff

/-- Overlaps says that some byte is in both windows (20_memory.md R63, 60_exceptions.md R191 code 7). -/
theorem overlaps_iff (a n b m : Nat) :
    overlaps a n b m = true ↔ ∃ x, (a ≤ x ∧ x < a + n) ∧ (b ≤ x ∧ x < b + m) := by
  simp only [overlaps, Bool.and_eq_true, decide_eq_true_eq]
  constructor
  · rintro ⟨⟨⟨hn, hm⟩, h1⟩, h2⟩
    exact ⟨max a b, by omega, by omega⟩
  · rintro ⟨x, h1, h2⟩
    omega

/-- windowOk says what ReadOK and WriteOK say (R63). -/
theorem windowOk_iff (p : Platform) (k : Access) (a n : Nat) :
    windowOk p k a n = true ↔ ∀ x, a ≤ x → x < a + n → memAdmit p k x = true := by
  induction n generalizing a with
  | zero => simp [windowOk]; omega
  | succ n ih =>
    simp only [windowOk, Bool.and_eq_true, ih]
    constructor
    · rintro ⟨h1, h2⟩ x hx hx'
      by_cases he : x = a
      · exact he ▸ h1
      · exact h2 x (by omega) (by omega)
    · intro h
      exact ⟨h a (by omega) (by omega), fun x hx hx' => h x (by omega) (by omega)⟩

end Sys2Proof.Machine
end

