-- ==== Sys2Proof/Laws/Exec.lean ====
section
/-! SUPPORT. One lemma per shared operation of the commands that says everything it can do, and from them one per command. -/

namespace Sys2Proof.Machine

open Host

theorem raiseError_eq (e : CommandError) (s : State) : raiseError e s = .next (s.finish e.code) := rfl

theorem complete_eq (s : State) : complete s = .next (s.finish 0#4) := rfl

theorem validRounds_iff (n : BitVec 4) : validRounds n.toNat = true ↔ n = 10#4 ∨ n = 12#4 ∨ n = 14#4 := by
  revert n; decide

theorem validKeyLen_iff (n : Nat) : validKeyLen n = true ↔ n = 16 ∨ n = 24 ∨ n = 32 := by
  simp [validKeyLen, or_assoc]

/-- A cipher command that answers a next state found no schedule, or went on with NR. -/
theorem withSchedule_next {s t : State} {k : Nat → Outcome State Fault Refusal} (h : withSchedule s k = .next t) :
    (s.schedValid = false ∧ t = s.finish CommandError.noSchedule.code) ∨
    (s.HasSchedule ∧ k s.nr.toNat = .next t) := by
  unfold withSchedule at h
  split at h
  · rename_i hv
    split at h
    · rename_i hr
      exact .inr ⟨⟨hv, (validRounds_iff _).1 hr⟩, h⟩
    · cases h
  · rename_i hv
    cases h
    exact .inl ⟨by simpa using hv, rfl⟩

theorem withSchedule_of_hasSchedule {s : State} (h : s.HasSchedule) (k : Nat → Outcome State Fault Refusal) :
    withSchedule s k = k s.nr.toNat := by
  unfold withSchedule
  rw [if_pos h.1, if_pos ((validRounds_iff _).2 h.2)]

theorem withSchedule_of_invalid {s : State} (h : s.schedValid = false) (k : Nat → Outcome State Fault Refusal) :
    withSchedule s k = .next (s.finish CommandError.noSchedule.code) := by
  unfold withSchedule
  rw [if_neg (by simp [h])]
  rfl

/-- The window checks pass exactly when the windows are as `State.WindowsOk` says. -/
theorem dmaCheck_eq_none_iff (s : State) (l ol : Nat) : dmaCheck s l ol = none ↔ s.WindowsOk l ol := by
  unfold dmaCheck
  constructor
  · intro h
    split at h
    · cases h
    · rename_i h1
      split at h
      · cases h
      · rename_i h2
        split at h
        · cases h
        · rename_i h3
          simp only [Bool.or_eq_true, Bool.not_eq_true', not_or, Bool.not_eq_false, inRange_iff] at h1
          rw [overlaps_iff] at h2
          simp only [Bool.not_eq_true', Bool.not_eq_false, readOk, windowOk_iff] at h3
          exact ⟨h1.1, h1.2, fun x a b c d => h2 ⟨x, ⟨a, b⟩, c, d⟩, h3⟩
  · intro h
    rw [if_neg, if_neg, if_neg]
    · simp only [readOk, Bool.not_eq_true', Bool.not_eq_false, windowOk_iff]
      exact h.src_admitted
    · rw [overlaps_iff]
      rintro ⟨x, ⟨a, b⟩, c, d⟩
      exact h.apart x a b c d
    · simp only [Bool.or_eq_true, Bool.not_eq_true', not_or, Bool.not_eq_false, inRange_iff]
      exact ⟨h.src_inRange, h.dst_inRange⟩

/-- What a failed window check reports, in the order of 60_exceptions.md R192. -/
theorem dmaCheck_eq_some {s : State} {l ol : Nat} {e : CommandError} (h : dmaCheck s l ol = some e) :
    e = .range ∨ e = .overlap ∨ e = .busError := by
  unfold dmaCheck at h
  split at h
  · simp_all
  · split at h
    · simp_all
    · split at h
      · simp_all
      · cases h

/-- The two ends of a CBC command. -/
theorem storeOutput_cases (s : State) (ol : Nat) (out : List Byte) :
    (AdmitsAll s.platform .write s.dstAddr.toNat ol ∧
      storeOutput s ol out
        = .next (((s.dmaWrite s.dstAddr.toNat out).setOutLen (BitVec.ofNat 32 ol)).finish 0#4)) ∨
    (¬ AdmitsAll s.platform .write s.dstAddr.toNat ol ∧
      storeOutput s ol out = .next ((s.havoc s.dstAddr.toNat ol).finish CommandError.busError.code)) := by
  unfold storeOutput
  have key : writeOk s.platform s.dstAddr.toNat ol = true ↔ AdmitsAll s.platform .write s.dstAddr.toNat ol :=
    windowOk_iff _ _ _ _
  by_cases h : writeOk s.platform s.dstAddr.toNat ol = true
  · exact .inl ⟨key.1 h, by rw [if_pos h]; rfl⟩
  · exact .inr ⟨fun hk => h (key.2 hk), by rw [if_neg h]; rfl⟩

/-- KEY_EXPAND's two ends (41_key_schedule.md R125). -/
theorem execKeyExpand_cases (s : State) :
    (validKeyLen s.keyLen.toNat = true ∧ execKeyExpand s = .next
      ((s.setSchedule (storeSchedule (keyExpansion (keyBytes s s.keyLen.toNat))) true
        (BitVec.ofNat 4 (roundsOfKeyLen s.keyLen.toNat))).finish 0#4)) ∨
    (validKeyLen s.keyLen.toNat = false ∧ execKeyExpand s = .next
      ((s.setSchedule zeroSchedule false 0#4).finish CommandError.invalidKeyLength.code)) := by
  unfold execKeyExpand
  by_cases h : validKeyLen s.keyLen.toNat = true
  · exact .inl ⟨h, by rw [if_pos h]; rfl⟩
  · exact .inr ⟨by simpa using h, by rw [if_neg h]; rfl⟩

/-- ENC_BLOCK's two ends (42_block_cipher.md R151). -/
theorem execEncBlock_next {s t : State} (h : execEncBlock s = .next t) :
    (s.schedValid = false ∧ t = s.finish CommandError.noSchedule.code) ∨
    (s.HasSchedule ∧ t = (s.setDout (cipher s.din s.sched s.nr.toNat)).finish 0#4) := by
  rcases withSchedule_next h with h | ⟨hs, h⟩
  · exact .inl h
  · cases h; exact .inr ⟨hs, rfl⟩

/-- DEC_BLOCK's two ends (R152). -/
theorem execDecBlock_next {s t : State} (h : execDecBlock s = .next t) :
    (s.schedValid = false ∧ t = s.finish CommandError.noSchedule.code) ∨
    (s.HasSchedule ∧ t = (s.setDout (invCipher s.din s.sched s.nr.toNat)).finish 0#4) := by
  rcases withSchedule_next h with h | ⟨hs, h⟩
  · exact .inl h
  · cases h; exact .inr ⟨hs, rfl⟩

/-- CBC_ENCRYPT's ends (44_cbc.md R174): no schedule, a failed window check, or the output stage. -/
theorem cbcEncryptWith_next {v : Block} {s t : State} (h : cbcEncryptWith v s = .next t) :
    (s.schedValid = false ∧ t = (s.setOutLen 0#32).finish CommandError.noSchedule.code) ∨
    (∃ e, s.HasSchedule ∧ dmaCheck s s.len.toNat (cipherLen s.len.toNat) = some e ∧
      t = (s.setOutLen 0#32).finish e.code) ∨
    (s.HasSchedule ∧ s.WindowsOk s.len.toNat (cipherLen s.len.toNat) ∧
      storeOutput ((s.setOutLen 0#32).takeDraw v) (cipherLen s.len.toNat)
        (cbcEncCore s.sched s.nr.toNat v (sourceBytes s)) = .next t) := by
  rcases withSchedule_next h with h | ⟨hs, h⟩
  · exact .inl h
  · right
    split at h
    · rename_i e he
      cases h
      exact .inl ⟨e, hs, he, rfl⟩
    · rename_i he
      exact .inr ⟨hs, (dmaCheck_eq_none_iff _ _ _).1 he, h⟩

/-- CBC_DECRYPT's ends (R175): no schedule, a truncated input, a failed window check, bad padding, or the output stage. -/
theorem execCbcDecrypt_next {s t : State} (h : execCbcDecrypt s = .next t) :
    (s.schedValid = false ∧ t = (s.setOutLen 0#32).finish CommandError.noSchedule.code) ∨
    (s.HasSchedule ∧ truncated s.len.toNat = true ∧ t = (s.setOutLen 0#32).finish CommandError.truncatedInput.code) ∨
    (∃ e, s.HasSchedule ∧ truncated s.len.toNat = false ∧ dmaCheck s s.len.toNat (s.len.toNat - 16) = some e ∧
      t = (s.setOutLen 0#32).finish e.code) ∨
    (s.HasSchedule ∧ truncated s.len.toNat = false ∧ s.WindowsOk s.len.toNat (s.len.toNat - 16) ∧
      unpad (cbcDecCore s.sched s.nr.toNat (sourceBytes s)) = none ∧
      t = ((s.setOutLen 0#32).setIv (blockOfList (sourceBytes s))).finish CommandError.invalidPadding.code) ∨
    (∃ pt, s.HasSchedule ∧ truncated s.len.toNat = false ∧ s.WindowsOk s.len.toNat (s.len.toNat - 16) ∧
      unpad (cbcDecCore s.sched s.nr.toNat (sourceBytes s)) = some pt ∧
      storeOutput ((s.setOutLen 0#32).setIv (blockOfList (sourceBytes s))) pt.length pt = .next t) := by
  rcases withSchedule_next h with h | ⟨hs, h⟩
  · exact .inl h
  · right
    split at h
    · cases h
      exact .inl ⟨hs, ‹_›, rfl⟩
    · rename_i ht
      right
      have ht : truncated s.len.toNat = false := by simpa using ht
      split at h
      · rename_i e he
        cases h
        exact .inl ⟨e, hs, ht, he, rfl⟩
      · rename_i he
        right
        have hw := (dmaCheck_eq_none_iff _ _ _).1 he
        dsimp only at h
        split at h
        · rename_i hu
          cases h
          exact .inl ⟨hs, ht, hw, hu, rfl⟩
        · rename_i pt hu
          exact .inr ⟨pt, hs, ht, hw, hu, h⟩

/-! The same in the other direction: what each state answers. -/

theorem cbcEncryptWith_of_error {s : State} {v : Block} {e : CommandError} (hs : s.HasSchedule)
    (he : dmaCheck s s.len.toNat (cipherLen s.len.toNat) = some e) :
    cbcEncryptWith v s = .next ((s.setOutLen 0#32).finish e.code) := by
  unfold cbcEncryptWith
  rw [withSchedule_of_hasSchedule (s := s.setOutLen 0#32) hs, he]
  rfl

theorem cbcEncryptWith_of_windows {s : State} {v : Block} (hs : s.HasSchedule)
    (hw : s.WindowsOk s.len.toNat (cipherLen s.len.toNat)) :
    cbcEncryptWith v s = storeOutput ((s.setOutLen 0#32).takeDraw v) (cipherLen s.len.toNat)
      (cbcEncCore s.sched s.nr.toNat v (sourceBytes s)) := by
  unfold cbcEncryptWith
  rw [withSchedule_of_hasSchedule (s := s.setOutLen 0#32) hs, (dmaCheck_eq_none_iff _ _ _).2 hw]
  rfl

theorem execCbcDecrypt_of_truncated {s : State} (hs : s.HasSchedule) (ht : truncated s.len.toNat = true) :
    execCbcDecrypt s = .next ((s.setOutLen 0#32).finish CommandError.truncatedInput.code) := by
  unfold execCbcDecrypt
  rw [withSchedule_of_hasSchedule (s := s.setOutLen 0#32) hs, if_pos ht]
  rfl

theorem execCbcDecrypt_of_error {s : State} {e : CommandError} (hs : s.HasSchedule)
    (ht : truncated s.len.toNat = false) (he : dmaCheck s s.len.toNat (s.len.toNat - 16) = some e) :
    execCbcDecrypt s = .next ((s.setOutLen 0#32).finish e.code) := by
  unfold execCbcDecrypt
  rw [withSchedule_of_hasSchedule (s := s.setOutLen 0#32) hs, if_neg (by simp [ht]), he]
  rfl

theorem execCbcDecrypt_of_badPadding {s : State} (hs : s.HasSchedule) (ht : truncated s.len.toNat = false)
    (hw : s.WindowsOk s.len.toNat (s.len.toNat - 16))
    (hu : unpad (cbcDecCore s.sched s.nr.toNat (sourceBytes s)) = none) :
    execCbcDecrypt s = .next
      (((s.setOutLen 0#32).setIv (blockOfList (sourceBytes s))).finish CommandError.invalidPadding.code) := by
  unfold execCbcDecrypt
  rw [withSchedule_of_hasSchedule (s := s.setOutLen 0#32) hs, if_neg (by simp [ht]), (dmaCheck_eq_none_iff _ _ _).2 hw]
  simp only [State.setOutLen_nr]
  rw [hu]
  rfl

theorem execCbcDecrypt_of_padded {s : State} {pt : List Byte} (hs : s.HasSchedule)
    (ht : truncated s.len.toNat = false) (hw : s.WindowsOk s.len.toNat (s.len.toNat - 16))
    (hu : unpad (cbcDecCore s.sched s.nr.toNat (sourceBytes s)) = some pt) :
    execCbcDecrypt s = storeOutput ((s.setOutLen 0#32).setIv (blockOfList (sourceBytes s))) pt.length pt := by
  unfold execCbcDecrypt
  rw [withSchedule_of_hasSchedule (s := s.setOutLen 0#32) hs, if_neg (by simp [ht]), (dmaCheck_eq_none_iff _ _ _).2 hw]
  simp only [State.setOutLen_nr]
  rw [hu]

theorem truncated_iff (l : Nat) : truncated l = true ↔ l < 16 ∨ (l - 16) % 16 ≠ 0 := by simp [truncated]

/-- The length of the window CBC_DECRYPT writes when its checks pass and its padding is good (44_cbc.md R175). -/
theorem outputLen_cbcDecrypt {s : State} {pt : List Byte} (hs : s.HasSchedule) (ht : truncated s.len.toNat = false)
    (hw : s.WindowsOk s.len.toNat (s.len.toNat - 16))
    (hu : unpad (cbcDecCore s.sched s.nr.toNat (sourceBytes s)) = some pt) : outputLen .cbcDecrypt s = pt.length := by
  simp [outputLen, hs.1, (validRounds_iff _).2 hs.2, ht, (dmaCheck_eq_none_iff _ _ _).2 hw, hu]

/-- The end of a CBC command ends the command in progress (10_state.md R31). -/
theorem storeOutput_done {s t : State} {ol : Nat} {out : List Byte} (h : storeOutput s ol out = .next t) :
    t.done = true ∧ t.fsm = .idle := by
  rcases storeOutput_cases s ol out with ⟨-, h'⟩ | ⟨-, h'⟩ <;> rw [h'] at h <;> cases h <;> exact ⟨rfl, rfl⟩

/-- A command that answers a next state has completed (10_state.md R31). -/
theorem exec_done {i : Instr} {s t : State} (h : exec i s = .next t) : t.done = true ∧ t.fsm = .idle := by
  cases i with
  | keyExpand =>
    rcases execKeyExpand_cases s with ⟨-, h'⟩ | ⟨-, h'⟩ <;> (have h := h'.symm.trans h; cases h; exact ⟨rfl, rfl⟩)
  | encBlock => rcases execEncBlock_next h with ⟨-, rfl⟩ | ⟨-, rfl⟩ <;> exact ⟨rfl, rfl⟩
  | decBlock => rcases execDecBlock_next h with ⟨-, rfl⟩ | ⟨-, rfl⟩ <;> exact ⟨rfl, rfl⟩
  | cbcEncrypt =>
    rcases cbcEncryptWith_next h with ⟨-, rfl⟩ | ⟨e, -, -, rfl⟩ | ⟨-, -, h⟩
    · exact ⟨rfl, rfl⟩
    · exact ⟨rfl, rfl⟩
    · exact storeOutput_done h
  | cbcDecrypt =>
    rcases execCbcDecrypt_next h with ⟨-, rfl⟩ | ⟨-, -, rfl⟩ | ⟨e, -, -, -, rfl⟩ | ⟨-, -, -, -, rfl⟩ | ⟨pt, -, -, -, -, h⟩
    · exact ⟨rfl, rfl⟩
    · exact ⟨rfl, rfl⟩
    · exact ⟨rfl, rfl⟩
    · exact ⟨rfl, rfl⟩
    · exact storeOutput_done h

/-- A turn list's head decides who moves (60_exceptions.md R197). -/
theorem nextTurn_cons {s : State} {u : Turn} {us : List Turn} (h : s.turns = u :: us) : s.nextTurn = u := by
  simp [State.nextTurn, h]

theorem nextTurn_nil {s : State} (h : s.turns = []) : s.nextTurn = if s.busy then .engine else .host := by
  simp [State.nextTurn, h]

/-- The engine's turn with a legal word in fsm runs its command (30_encoding.md R82). -/
theorem engineStep_ok {s : State} {w : Word} {i : Instr} (hw : s.fsm = .busy w) (hd : decode w = .ok i) :
    engineStep s = exec i s := by
  simp [engineStep, hw, hd]

theorem engineStep_illegal {s : State} {w : Word} {e : DecodeError} (hw : s.fsm = .busy w) (hd : decode w = .error e) :
    engineStep s = .next (s.finish CommandError.illegalCommand.code) := by
  simp [engineStep, hw, hd, raiseError_eq]

theorem engineStep_idle {s : State} (h : s.fsm = .idle) : engineStep s = .next s := by
  simp [engineStep, h]

end Sys2Proof.Machine
end

