-- ==== Sys2Proof/Laws/PerInstr.lean ====
section
/-! SUPPORT. Statements made of every command, one lemma per constructor of Instr. -/

namespace Sys2Proof.Laws.EncodesInTable

/-- The encoder's word is a 32-bit word that the table decoder reads back as the command (30_encoding.md R81, R85). -/
def Statement (i : Instr) : Prop :=
  i.wellFormed = true ∧ decode (encode i) = .ok i ∧ decodeTableWord 32 (encode i).toNat = some i

theorem keyExpand : Statement .keyExpand := by unfold Statement; decide
theorem encBlock : Statement .encBlock := by unfold Statement; decide
theorem decBlock : Statement .decBlock := by unfold Statement; decide
theorem cbcEncrypt : Statement .cbcEncrypt := by unfold Statement; decide
theorem cbcDecrypt : Statement .cbcDecrypt := by unfold Statement; decide

end Sys2Proof.Laws.EncodesInTable
end

