-- ==== Sys2Proof/Laws/Ports.lean ====
section
/-! SUPPORT. The register port and the host: what a register access depends on and leaves alone, and what a step of each agent
can do. -/

namespace Sys2Proof.Machine

open Host

/-! ### The block's components after the updates of the host's side -/

@[simp] theorem State.setHost_block (s : State) (h : HostSide) : (s.setHost h).block = s.block := rfl
@[simp] theorem State.setProgram_block (s : State) (p : List HostOp) : (s.setProgram p).block = s.block := rfl
@[simp] theorem State.respond_block (s : State) (r : Response) : (s.respond r).block = s.block := rfl
@[simp] theorem State.dropTurn_block (s : State) : s.dropTurn.block = s.block := rfl
@[simp] theorem State.takeCacheDraw_block (s : State) : s.takeCacheDraw.block = s.block := rfl
@[simp] theorem State.unsettle_block (s : State) (l : List Addr) : (s.unsettle l).block = s.block := rfl
@[simp] theorem State.hostStore_block (s : State) (a : Addr) (b : Byte) : (s.hostStore a b).block = s.block := rfl

@[simp] theorem State.endDuties_block (s : State) : s.endDuties.block = s.block := by
  unfold State.endDuties; split <;> rfl

@[simp] theorem State.beginDuty_block (s : State) (i : Option Instr) : (s.beginDuty i).block = s.block := by
  unfold State.beginDuty; (repeat' split) <;> rfl

/-! ### Register accesses (10_state.md R53, R54) -/

/-- RegRead depends on the block's components only. -/
theorem regRead_congr {s s' : State} (h : s.block = s'.block) (off : BitVec 8) : regRead off s = regRead off s' := by
  obtain ⟨⟩ := s
  obtain ⟨⟩ := s'
  simp only [State.block, BlockState.mk.injEq] at h
  obtain ⟨rfl, rfl, rfl, rfl, rfl, rfl, rfl, rfl, rfl, rfl, rfl, rfl, rfl, rfl, rfl, rfl, rfl, rfl⟩ := h
  rfl

/-- RegWrite's effect on the block depends on the block's components only. -/
theorem regWrite_block_congr {s s' : State} (h : s.block = s'.block) (off : BitVec 8) (v : Word) :
    (regWrite off v s).block = (regWrite off v s').block := by
  obtain ⟨⟩ := s
  obtain ⟨⟩ := s'
  simp only [State.block, BlockState.mk.injEq] at h
  obtain ⟨rfl, rfl, rfl, rfl, rfl, rfl, rfl, rfl, rfl, rfl, rfl, rfl, rfl, rfl, rfl, rfl, rfl, rfl⟩ := h
  unfold regWrite
  split
  · rfl
  · dsimp only [State.busy]
    split
    · generalize decodeOffset off = d
      cases d with
      | none => rfl
      | some r => cases r <;> rfl
    · rfl

/-- A command's output window depends on the block, memory, the platform and the recorded source bytes only. -/
theorem outputLen_congr {s t : State} (hb : t.block = s.block) (hm : t.mem = s.mem) (hp : t.platform = s.platform)
    (hu : t.host.unsettled = s.host.unsettled) (i : Instr) : outputLen i t = outputLen i s := by
  simp only [State.block, BlockState.mk.injEq] at hb
  obtain ⟨-, -, -, -, -, h1, -, h2, h3, -, -, -, -, -, h4, h5, h6, -⟩ := hb
  have hs : sourceBytes t = sourceBytes s := by unfold sourceBytes; rw [State.dmaView_congr hm hp hu, h1, h2]
  have hd (l ol : Nat) : dmaCheck t l ol = dmaCheck s l ol := by unfold dmaCheck; rw [h2, h3, hp]
  unfold outputLen
  rw [hs, hd, h1, h4, h5, h6]

section
variable (off : BitVec 8) (v : Word) (s : State)

/-- RegWrite touches nothing outside the block. -/
theorem regWrite_frame :
    (regWrite off v s).mem = s.mem ∧ (regWrite off v s).host = s.host ∧ (regWrite off v s).platform = s.platform ∧
    (regWrite off v s).turns = s.turns ∧ (regWrite off v s).entropyDraws = s.entropyDraws ∧
    (regWrite off v s).havocDraws = s.havocDraws ∧ (regWrite off v s).cacheDraws = s.cacheDraws := by
  unfold regWrite writeReg
  (repeat' split) <;> exact ⟨rfl, rfl, rfl, rfl, rfl, rfl, rfl⟩

/-- No register write reaches the schedule (41_key_schedule.md R126). -/
theorem regWrite_schedule :
    (regWrite off v s).sched = s.sched ∧ (regWrite off v s).schedValid = s.schedValid ∧
    (regWrite off v s).nr = s.nr := by
  unfold regWrite writeReg
  (repeat' split) <;> exact ⟨rfl, rfl, rfl⟩

end

/-- The window offset of BASE + off (30_encoding.md R86). -/
theorem base_add_offset (p : Platform) (off : BitVec 8) : p.base + off.setWidth 32 = p.basePage ++ off := by
  have e : ∀ o : BitVec 8, (p.basePage ++ o).toNat = p.basePage.toNat * 256 + o.toNat := fun o => by
    rw [BitVec.toNat_append, Nat.shiftLeft_eq, Nat.mul_comm, ← Nat.two_pow_add_eq_or_of_lt o.isLt]
  apply BitVec.eq_of_toNat_eq
  unfold Platform.base
  rw [BitVec.toNat_add]
  erw [e 0#8, e off]
  have := off.isLt
  have := p.basePage.isLt
  simp only [BitVec.toNat_setWidth, BitVec.toNat_ofNat]
  omega

theorem windowOffset_regAddr (p : Platform) (off : BitVec 8) : p.windowOffset (p.regAddr off) = some off := by
  unfold Platform.regAddr
  rw [base_add_offset]
  unfold Platform.windowOffset
  have e : (p.basePage ++ off).toNat = p.basePage.toNat * 256 + off.toNat := by
    rw [BitVec.toNat_append, Nat.shiftLeft_eq, Nat.mul_comm, ← Nat.two_pow_add_eq_or_of_lt off.isLt]
  have := off.isLt
  have := p.basePage.isLt
  have h1 : BitVec.extractLsb' 8 24 (p.basePage ++ off) = p.basePage := by
    apply BitVec.eq_of_toNat_eq
    rw [BitVec.extractLsb'_toNat, Nat.shiftRight_eq_div_pow]
    erw [e]
    omega
  have h2 : BitVec.extractLsb' 0 8 (p.basePage ++ off) = off := by
    apply BitVec.eq_of_toNat_eq
    rw [BitVec.extractLsb'_toNat, Nat.shiftRight_eq_div_pow]
    erw [e]
    omega
  rw [if_pos h1, h2]

theorem acceptedAt_w32 {off : BitVec 8} (h : off.toNat % 4 = 0) : Width.acceptedAt .w32 off = true := by
  simp [Width.acceptedAt, h]

/-- An accepted register read. -/
theorem hostRead_accepted (s : State) {off : BitVec 8} (h : off.toNat % 4 = 0) :
    hostRead .w32 (s.platform.regAddr off) s = .next
      (if off = 0x08#8 then (s.respond (.data (regRead off s))).endDuties else s.respond (.data (regRead off s))) := by
  unfold hostRead
  rw [windowOffset_regAddr]
  simp only [acceptedAt_w32 h, if_true]

/-- An accepted register write. -/
theorem hostWrite_accepted (s : State) {off : BitVec 8} (v : Word) (h : off.toNat % 4 = 0) :
    hostWrite .w32 (s.platform.regAddr off) v s =
      .next (((regWrite off v s).beginDuty (startedCommand s off v)).respond .ok) := by
  unfold hostWrite
  rw [windowOffset_regAddr]
  simp only [acceptedAt_w32 h, if_true]

/-- A CBC command's CMD write records the uncleaned source bytes and adds its duty (20_memory.md R66, R68). -/
theorem State.beginDuty_dma (s : State) {c : Instr} (h : Instr.usesDma c = true) :
    s.beginDuty (some c) = s.recordUncleaned.addDuty c := by
  simp only [State.beginDuty, h, if_true]

/-- A host read of a byte that is neither under duty nor stale answers memory's byte. -/
theorem hostMemRead_settled {s : State} {a : Addr} (hd : s.host.dutyDst a.toNat = false) (hs : s.staleAt a.toNat = false) :
    hostMemRead a s = .next (s.respond (.byte (s.mem.read a.toNat))) := by
  simp [hostMemRead, hd, hs]

/-- A host read of a stale byte answers a free value. -/
theorem hostMemRead_stale {s : State} {a : Addr} (hd : s.host.dutyDst a.toNat = false) (hs : s.staleAt a.toNat = true) :
    hostMemRead a s = .next (s.takeCacheDraw.respond (.byte (Config.cacheByte s.cacheDraws))) := by
  simp [hostMemRead, hd, hs]

/-! ### What a step can do -/

theorem step_of_host {s : State} (h : s.nextTurn = .host) : step s = hostStep s.dropTurn := by
  unfold step takeTurn; rw [h]

theorem step_of_engine {s : State} (h : s.nextTurn = .engine) : step s = engineStep s.dropTurn := by
  unfold step takeTurn; rw [h]

theorem step_of_reset {s : State} (h : s.nextTurn = .reset) : step s = .next s.dropTurn.assertReset := by
  unfold step takeTurn; rw [h]

theorem hostStep_nil {s : State} (h : s.host.program = []) : hostStep s = .next s := by
  unfold hostStep; rw [h]

theorem hostStep_cons {s : State} {o : HostOp} {rest : List HostOp} (h : s.host.program = o :: rest) :
    hostStep s = hostOp o (s.setProgram rest) := by
  unfold hostStep; rw [h]

/-- The three kinds of step. -/
theorem step_cases {s t : State} (h : step s = .next t) :
    (s.nextTurn = .host ∧ hostStep s.dropTurn = .next t) ∨
    (s.nextTurn = .engine ∧ engineStep s.dropTurn = .next t) ∨
    ((s.nextTurn = .reset ∨ s.nextTurn = .resetWithAccess) ∧ t = s.dropTurn.assertReset) := by
  unfold step takeTurn at h
  cases hn : s.nextTurn <;> rw [hn] at h <;> dsimp only at h
  · exact .inl ⟨rfl, h⟩
  · exact .inr (.inl ⟨rfl, h⟩)
  · cases h
    exact .inr (.inr ⟨.inl rfl, rfl⟩)
  · unfold resetWithAccess at h
    split at h
    · cases h
      exact .inr (.inr ⟨.inr rfl, rfl⟩)
    · split at h
      · cases h
      · cases h
        exact .inr (.inr ⟨.inr rfl, rfl⟩)

/-- What the engine's turn can do: nothing while IDLE, a command, or ILLEGAL_COMMAND. -/
theorem engineStep_cases {s t : State} (h : engineStep s = .next t) :
    (s.fsm = .idle ∧ t = s) ∨
    (∃ w i, s.fsm = .busy w ∧ decode w = .ok i ∧ exec i s = .next t) ∨
    (∃ w, s.fsm = .busy w ∧ t = s.finish CommandError.illegalCommand.code) := by
  cases hf : s.fsm with
  | idle =>
    rw [engineStep_idle hf] at h
    cases h
    exact .inl ⟨rfl, rfl⟩
  | busy w =>
    cases hd : decode w with
    | ok i =>
      rw [engineStep_ok hf hd] at h
      exact .inr (.inl ⟨w, i, rfl, hd, h⟩)
    | error e =>
      rw [engineStep_illegal hf hd] at h
      cases h
      exact .inr (.inr ⟨w, rfl, rfl⟩)

/-- What an access of the host does to the block and to memory: one RegWrite with memory unchanged, or some bytes of memory
written (one stored, or those a clean or an invalidate leaves open, or none) with the block unchanged. -/
theorem hostOp_cases {o : HostOp} {s t : State} (h : hostOp o s = .next t) :
    t.turns = s.turns ∧ t.platform = s.platform ∧
    ((t.block = s.block ∧ ∃ cs : List Host.Cell, (∀ c ∈ cs, c.1 < Config.addrSpace) ∧ t.mem = s.mem.writeCells cs) ∨
      ∃ off v, t.block = (regWrite off v s).block ∧ t.mem = s.mem) := by
  have none {u : State} (hm : u.mem = s.mem) :
      ∃ cs : List Host.Cell, (∀ c ∈ cs, c.1 < Config.addrSpace) ∧ u.mem = s.mem.writeCells cs := ⟨[], by simp, hm⟩
  cases o with
  | write w a v =>
    change hostWrite _ _ _ _ = _ at h
    unfold hostWrite at h
    split at h
    · cases h
    · rename_i off _
      split at h
      · cases h
        obtain ⟨f1, -, f3, f4, -, -, -⟩ := regWrite_frame off v s
        exact ⟨by simp [f4], by simp [f3], .inr ⟨off, v, by simp, by simp [f1]⟩⟩
      · cases h
        exact ⟨rfl, rfl, .inl ⟨rfl, none rfl⟩⟩
  | read w a =>
    change hostRead _ _ _ = _ at h
    unfold hostRead at h
    split at h
    · cases h
    · split at h
      · cases h
        split
        · exact ⟨by simp, by simp, .inl ⟨by simp, none (by simp)⟩⟩
        · exact ⟨rfl, rfl, .inl ⟨rfl, none rfl⟩⟩
      · cases h
        exact ⟨rfl, rfl, .inl ⟨rfl, none rfl⟩⟩
  | wait =>
    change hostWait _ = _ at h
    unfold hostWait at h
    rw [hostRead_accepted s (off := 0x08#8) (by decide), if_pos rfl] at h
    cases h
    split <;> exact ⟨by simp, by simp, .inl ⟨by simp, none (by simp)⟩⟩
  | memWrite a b =>
    change hostMemWrite _ _ _ = _ at h
    unfold hostMemWrite at h
    split at h
    · cases h
    · cases h
      exact ⟨rfl, rfl, .inl ⟨rfl, [(a.toNat, b)], by simpa [Config.addrSpace] using a.isLt, rfl⟩⟩
  | memRead a =>
    change hostMemRead _ _ = _ at h
    unfold hostMemRead at h
    split at h
    · cases h
    · split at h <;> cases h <;> exact ⟨rfl, rfl, .inl ⟨rfl, none rfl⟩⟩
  | cacheClean a n =>
    cases h
    exact ⟨rfl, rfl, .inl ⟨rfl, _, freshCells_inSpace _ _, rfl⟩⟩
  | cacheInvalidate a n =>
    cases h
    exact ⟨rfl, rfl, .inl ⟨rfl, _, freshCells_inSpace _ _, rfl⟩⟩

/-- A reset leaves the block zero (70_reset_and_hazards.md R210). -/
theorem assertReset_block (s : State) : s.assertReset.block = BlockState.zero := rfl

end Sys2Proof.Machine
end

