-- ==== Sys2Proof/Tests/Slice0.lean ====
section
/-! SUPPORT. The model's own tests. Expected results come from the spec (95_test_vectors.md, the examples of the rules, the
encoding tables); each theorem names its source. The witnesses show a state and operands that meet a statement's hypotheses. -/

namespace Sys2Proof.Tests

-- One thread per theorem takes more address space than the check allows.
set_option Elab.async false

open Sys2Proof.Machine Host

/-! ### Helpers -/

/-- The n bytes of a number written in hexadecimal, first digit pair first. -/
def bytes (n x : Nat) : List Byte := (List.range n).map fun i => BitVec.ofNat 8 (x / 256 ^ (n - 1 - i))

/-- The launch of 95_test_vectors.md section 8: MemAdmit admits 0x1000 .. 0x4FFF. -/
def launch : Platform := { basePage := 0x400010#24, regions := [⟨0x1000, 0x4000, true, true⟩], dmaCoherent := true }

/-- The common start state of 95_test_vectors.md section 8. -/
def start : State := { State.reset with platform := launch }

/-- A command word in progress. -/
def running (w : Word) : State := { start with fsm := .busy w }

/-- A root key in KEY and KEY_LEN. -/
def withKey (k : List Byte) : State :=
  { start with key := Vector.ofFn fun i => k.getD i.val 0#8, keyLen := BitVec.ofNat 8 k.length }

/-- The schedule of a key. -/
def keyed (k : List Byte) : State :=
  { start with sched := storeSchedule (keyExpansion k), schedValid := true, nr := BitVec.ofNat 4 (roundsOfKeyLen k.length) }

/-- A schedule of zero words with NR = 10, for witnesses that read no word of it. -/
def scheduled : State := { start with schedValid := true, nr := 10#4 }

/-- A CBC command's operands. -/
def cbc (s : State) (src len dst : Word) : State := { s with srcAddr := src, len := len, dstAddr := dst }

/-- The host about to make one access. -/
def hosting (s : State) (o : HostOp) : State := { s with host := { s.host with program := [o] } }

/-- A property of the next state, if there is one. -/
def after {α : Type} (o : Outcome State Fault Refusal) (f : State → α) : Option α :=
  match o with
  | .next t => some (f t)
  | .fault _ => none
  | .refused _ => none

theorem exists_of_after {α : Type} {o : Outcome State Fault Refusal} {f : State → α} {v : α} (h : after o f = some v) :
    ∃ t, o = .next t ∧ f t = v := by
  cases o with
  | next t => exact ⟨t, rfl, Option.some.inj h⟩
  | fault _ => cases h
  | refused _ => cases h

/-- The AES-128 key of 95_test_vectors.md section 6. -/
def key128 : List Byte := bytes 16 0x2b7e151628aed2a6abf7158809cf4f3c

/-- The AES-128 key of 95_test_vectors.md section 4.1. -/
def keyC1 : List Byte := bytes 16 0x000102030405060708090a0b0c0d0e0f

/-- The "hello" output of 95_test_vectors.md section 6.1 at 0x1000, LEN = 32. -/
def helloCipher (dst : Word) : State :=
  cbc { keyed key128 with
    mem := Memory.writeRange [] 0x1000 (bytes 32 0x000102030405060708090a0b0c0d0e0fd8666ea8aad65cc08354b4bc43d4ff56) }
    0x1000#32 32#32 dst

/-! ### Decoding: each command's word, written out from 30_encoding.md R80 and R81 (RSVD = 0 in bits [31:4], OP in [3:0]) -/

theorem test_decode_keyExpand : decode 0b00000000000000000000000000000001#32 = .ok .keyExpand := by decide
theorem test_decode_encBlock : decode 0b00000000000000000000000000000010#32 = .ok .encBlock := by decide
theorem test_decode_decBlock : decode 0b00000000000000000000000000000011#32 = .ok .decBlock := by decide
theorem test_decode_cbcEncrypt : decode 0b00000000000000000000000000000100#32 = .ok .cbcEncrypt := by decide
theorem test_decode_cbcDecrypt : decode 0b00000000000000000000000000000101#32 = .ok .cbcDecrypt := by decide

/-- The illegal words of 95_test_vectors.md section 7 (R84). -/
theorem test_decode_illegal :
    [0x00000000#32, 0x00000006#32, 0x0000000F#32, 0x00000011#32, 0x80000001#32].map decode =
      [.error .illegalOpcode, .error .illegalOpcode, .error .illegalOpcode, .error .reservedBits, .error .reservedBits] := by
  decide

theorem test_decodeTableWord : decodeTableWord 32 4 = some .cbcEncrypt ∧ decodeTableWord 32 0x10004 = none := by decide

/-- The first and last offset of each group of 10_state.md R33. -/
theorem test_decode_offsets :
    [0x00#8, 0x28#8, 0x2C#8, 0x30#8, 0x3C#8, 0x40#8, 0x5C#8, 0x60#8, 0x6C#8, 0x70#8, 0x7C#8, 0x80#8, 0x8C#8, 0x90#8,
      0x02#8].map decodeOffset =
    [some .id, some .rkSel, none, some (.rk 0), some (.rk 3), some (.key 0), some (.key 7), some (.iv 0), some (.iv 3),
      some (.din 0), some (.din 3), some (.dout 0), some (.dout 3), none, none] := by decide

/-- WR and RD of 30_encoding.md R86 at BASE = 0x40001000, LEN at offset 0x18 and DOUT3 at 0x8C (10_state.md R33). -/
theorem test_notation :
    (HostLine.wr (.named .len) 5#32).expand launch = .write .w32 0x40001018#32 5#32 ∧
    (HostLine.rd (.named (.dout 3))).expand launch = .read .w32 0x4000108C#32 := by decide

/-! ### Well-formedness: each check refuses an ill-formed term -/

theorem test_wf_width8 : Width.acceptedAt .w8 0x10#8 = false := by decide
theorem test_wf_width16 : Width.acceptedAt .w16 0x10#8 = false := by decide
theorem test_wf_width64 : Width.acceptedAt .w64 0x10#8 = false := by decide
theorem test_wf_unaligned : Width.acceptedAt .w32 0x02#8 = false := by decide
theorem test_wf_accepted : Width.acceptedAt .w32 0x10#8 = true := by decide
theorem test_wf_regRef : (RegRef.offset 0x02#8).wellFormed = false := by decide
theorem test_wf_write_line : (HostLine.wr (.offset 0x0D#8) 1#32).wellFormed = false := by decide
theorem test_wf_read_line : (HostLine.rd (.offset 0x0E#8)).wellFormed = false := by decide
theorem test_wf_instr : Instr.wellFormed .cbcDecrypt = true := by decide

/-! ### Functions of the rules -/

/-- 95_test_vectors.md section 2. -/
theorem test_xtime : [0x57#8, 0xae#8, 0x80#8, 0xff#8].map xtime = [0xae#8, 0x47#8, 0x1b#8, 0xe5#8] := by decide
theorem test_gmul : gmul 0x57#8 0x83#8 = 0xc1#8 ∧ gmul 0x57#8 0x13#8 = 0xfe#8 ∧ gmul 0xff#8 0xff#8 = 0x13#8 := by decide
theorem test_gfInv : gfInv 0x53#8 = 0xca#8 ∧ gfInv 0x02#8 = 0x8d#8 := by decide +kernel
theorem test_sbox : [0x00#8, 0x10#8, 0x53#8, 0x7f#8, 0x80#8, 0xff#8].map sbox =
    [0x63#8, 0xca#8, 0xed#8, 0xd2#8, 0xcd#8, 0x16#8] := by decide
theorem test_invSbox : [0x00#8, 0x63#8, 0xed#8, 0x52#8, 0xff#8].map invSbox = [0x52#8, 0x00#8, 0x53#8, 0x48#8, 0x7d#8] := by
  decide
theorem test_affine : affine (gfInv 0x53#8) = 0xed#8 := by decide +kernel

/-- 95_test_vectors.md section 4.5. -/
theorem test_shiftRows : (shiftRows (blockOfList (bytes 16 0x000102030405060708090a0b0c0d0e0f))).toList =
    bytes 16 0x00050a0f04090e03080d02070c01060b := by decide +kernel
theorem test_invShiftRows : (invShiftRows (blockOfList (bytes 16 0x000102030405060708090a0b0c0d0e0f))).toList =
    bytes 16 0x000d0a0704010e0b0805020f0c090603 := by decide +kernel
theorem test_mixColumns : (mixColumns (blockOfList (bytes 16 0xdb135345f20a225c2d26314cd4d4d4d5))).toList =
    bytes 16 0x8e4da1bc9fdc589d4d7ebdf8d5d5d7d6 := by decide +kernel
theorem test_invMixColumns : (invMixColumns (blockOfList (bytes 16 0x8e4da1bc9fdc589d4d7ebdf8d5d5d7d6))).toList =
    bytes 16 0xdb135345f20a225c2d26314cd4d4d4d5 := by decide +kernel

/-- 95_test_vectors.md section 5.1. -/
theorem test_pad : pad (bytes 5 0x68656c6c6f) = bytes 16 0x68656c6c6f0b0b0b0b0b0b0b0b0b0b0b ∧
    pad [] = bytes 16 0x10101010101010101010101010101010 := by decide +kernel

/-- 95_test_vectors.md section 5.2, one row per clause of R162. -/
theorem test_unpad : unpad [] = none ∧ unpad (bytes 16 0x0) = none ∧ unpad (bytes 16 0x11) = none ∧
    unpad (bytes 16 0x20303) = none ∧ unpad (bytes 16 0x000102030405060708090a0b0c0d0202) =
      some (bytes 14 0x000102030405060708090a0b0c0d) := by decide +kernel

/-- A byte past the length named by the last byte: a sequence shorter than N (43_padding.md R162). -/
theorem test_unpad_short : unpad [0x02#8] = none := by decide

/-- OL for L = 0, 1, 15, 16, 17, 1000 (95_test_vectors.md section 1, row 8). -/
theorem test_cipherLen : [0, 1, 15, 16, 17, 1000].map cipherLen = [32, 32, 32, 48, 48, 1024] := by decide

/-- The lanes of R34, with KEY words of 95_test_vectors.md section 3.1. -/
theorem test_laneWord : laneWord (blockOfList key128) 1 (by decide) = 0xa6d2ae28#32 := by decide +kernel

/-- Addresses in increasing order, and a background write removes its entry (20_memory.md R62). -/
theorem test_memory : Memory.writeRange [(0x1002, 9#8)] 0x1000 [1#8, 2#8, 0#8] = [(0x1000, 1#8), (0x1001, 2#8)] := by decide

/-- Overlaps and InRange at the boundaries of 95_test_vectors.md section 7. -/
theorem test_windows : overlaps 0x1000 5 0xFE0 32 = false ∧ overlaps 0x1000 5 0xFE1 32 = true ∧
    overlaps 0x1000 0 0x1000 32 = false ∧ inRange 0xFFFFFFE0 32 = true ∧ inRange 0xFFFFFFE1 32 = false := by decide

/-! ### The commands, one step each -/

/-- 95_test_vectors.md section 3.3: the AES-256 branch, w[12] = a8b09c1a and the last word w[59] = 706c631e. -/
theorem test_keyExpand_256 :
    after (step { withKey (bytes 32 0x603deb1015ca71be2b73aef0857d77811f352c073b6108d72d9810a30914dff4) with
        fsm := .busy 0x00000001#32 })
      (fun t => (t.statusWord, t.nr, t.sched[12].toList, t.sched[59].toList)) =
      some (0x0000000A#32, 14#4, bytes 4 0xa8b09c1a, bytes 4 0x706c631e) := by decide +kernel

/-- 95_test_vectors.md section 3: KEY_LEN = 17 discards a schedule. -/
theorem test_keyExpand_invalid :
    after (exec .keyExpand { scheduled with keyLen := 17#8 }) (fun t => (t.statusWord, t.nr)) =
      some (0x00000106#32, 0#4) := by decide +kernel

/-- 95_test_vectors.md section 4.1, AES-128: DOUT0 .. DOUT3. -/
theorem test_encBlock :
    after (exec .encBlock { keyed keyC1 with din := blockOfList (bytes 16 0x00112233445566778899aabbccddeeff) })
      (fun t => t.dout.toList) = some (bytes 16 0x69c4e0d86a7b0430d8cdb78070b4c55a) := by decide +kernel

/-- 95_test_vectors.md section 7: ENC_BLOCK in the reset state. -/
theorem test_encBlock_noSchedule :
    after (exec .encBlock State.reset) (fun t => t.statusWord) = some 0x00000406#32 := by decide +kernel

/-- 95_test_vectors.md section 4.2: DEC_BLOCK of a block no ENC_BLOCK produced. -/
theorem test_decBlock :
    after (exec .decBlock (keyed keyC1)) (fun t => t.dout.toList) = some (bytes 16 0x7b1d29a16cf8ccab84f0b8a598e42fa6) := by
  decide +kernel

theorem test_decBlock_noSchedule :
    after (exec .decBlock State.reset) (fun t => t.statusWord) = some 0x00000406#32 := by decide +kernel

/-- 95_test_vectors.md section 6.1, "hello", with its draw V. -/
theorem test_cbcEncrypt_hello :
    after (cbcEncryptWith (blockOfList keyC1)
        (cbc { keyed key128 with mem := Memory.writeRange [] 0x1000 (bytes 5 0x68656c6c6f) } 0x1000#32 5#32 0x2000#32))
      (fun t => (t.statusWord, t.outLen, t.mem.readRange 0x2000 32)) =
      some (0x0000000A#32, 32#32, bytes 32 0x000102030405060708090a0b0c0d0e0fd8666ea8aad65cc08354b4bc43d4ff56) := by
  decide +kernel

/-- 95_test_vectors.md section 7: RANGE before OVERLAP before BUS_ERROR. -/
theorem test_cbcEncrypt_errors :
    [cbc scheduled 0x1000#32 5#32 0xFFFFFFE1#32, cbc scheduled 0x1000#32 0xFFFFFFFF#32 0x2000#32,
      cbc scheduled 0x1000#32 5#32 0x0FE1#32, cbc scheduled 0x0FFF#32 5#32 0x2000#32].map
        (fun s => after (exec .cbcEncrypt s) (fun t => t.statusWord)) =
      [some 0x0000060E#32, some 0x0000060E#32, some 0x0000070E#32, some 0x0000080E#32] := by decide +kernel

/-- The "hello" output deciphers to the padded text (95_test_vectors.md section 6.3). -/
theorem hello_unpads : unpad (cbcDecCore (helloCipher 0x4FFB#32).sched (helloCipher 0x4FFB#32).nr.toNat
    (sourceBytes (helloCipher 0x4FFB#32))) = some (bytes 5 0x68656c6c6f) := by decide +kernel

/-- 95_test_vectors.md section 7: the plaintext fits exactly at 0x4FFB. -/
theorem test_cbcDecrypt_hello :
    after (exec .cbcDecrypt (helloCipher 0x4FFB#32)) (fun t => (t.statusWord, t.outLen, t.mem.readRange 0x4FFB 5)) =
      some (0x0000000A#32, 5#32, bytes 5 0x68656c6c6f) := by decide +kernel

/-- 95_test_vectors.md section 7: TRUNCATED_INPUT, OVERLAP, and INVALID_PADDING of an empty padded plaintext. -/
theorem test_cbcDecrypt_errors :
    [cbc scheduled 0x1000#32 20#32 0x2000#32, cbc scheduled 0x1000#32 5#32 0x2000#32,
      cbc scheduled 0x1000#32 32#32 0x1010#32, cbc scheduled 0x1000#32 16#32 0x1000#32].map
        (fun s => after (exec .cbcDecrypt s) (fun t => t.statusWord)) =
      [some 0x0000020E#32, some 0x0000020E#32, some 0x0000070E#32, some 0x0000030E#32] := by decide +kernel

/-! ### The register port (95_test_vectors.md section 7, register-port corner cases) -/

theorem test_write_then_read :
    regRead 0x10#8 (regWrite 0x10#8 0x12345678#32 start) = 0x78#32 ∧
    regRead 0x28#8 (regWrite 0x28#8 0xFFFFFFFF#32 start) = 0xF#32 ∧
    regRead 0x04#8 (regWrite 0x04#8 0xFFFFFFFF#32 start) = 1#32 := by decide +kernel

/-- DONE = 1, ERR_CODE = 3, a schedule: writing 0xFFFFFFFF leaves 0x0000030C. -/
theorem test_status_write :
    regRead 0x08#8 (regWrite 0x08#8 0xFFFFFFFF#32 { scheduled with done := true, wrIgnored := true, errCode := 3#4 }) =
      0x0000030C#32 := by decide +kernel

/-- A write while BUSY sets STATUS bit 4. -/
theorem test_write_while_busy :
    regWrite 0x18#8 0x10#32 (running 1#32) = { running 1#32 with wrIgnored := true } ∧
    regRead 0x08#8 (regWrite 0x18#8 0x10#32 (running 1#32)) = 0x11#32 := by decide +kernel

/-- STATUS right after a CMD write with a schedule loaded. -/
theorem test_status_after_cmd :
    regRead 0x08#8 (regWrite 0x0C#8 1#32 { scheduled with done := true, errCode := 8#4 }) = 0x9#32 := by decide +kernel

/-- RK_SEL past NR reads 0; byte 0 of the word is in bits [7:0] (95_test_vectors.md section 3.1, r = 10). -/
theorem test_roundKey_words :
    regRead 0x30#8 { keyed key128 with rkSel := 10#4 } = 0xa8f914d0#32 ∧
    regRead 0x30#8 { keyed key128 with rkSel := 11#4 } = 0#32 := by decide +kernel

/-- An 8-bit access, and a 32-bit access at offset 0x02, get a bus error. -/
theorem test_bus_error :
    after (step (hosting start (.write .w8 (launch.regAddr 0x04#8) 1#32))) (fun t => (t.irqEn, t.host.responses)) =
      some (false, [.busError]) ∧
    after (step (hosting start (.read .w32 (launch.regAddr 0x02#8)))) (fun t => t.host.responses) = some [.busError] := by
  decide +kernel

/-- The WAIT loop stays while BUSY and leaves when the engine has moved (30_encoding.md R87). -/
theorem test_wait :
    after (hostStep (hosting (running 2#32) .wait)) (fun t => (t.host.program, t.host.responses)) =
      some ([.wait], [.data 0x1#32]) ∧
    after (hostStep (hosting start .wait)) (fun t => (t.host.program, t.host.responses)) = some ([], [.data 0x0#32]) := by
  decide +kernel

/-- A reset while BUSY with ENC_BLOCK: DOUT and DONE are 0 (95_test_vectors.md section 7.1). -/
theorem test_reset_while_busy :
    after (step { running 2#32 with turns := [.reset], dout := Vector.replicate 16 1#8 }) (fun t => t.block) =
      some BlockState.zero := by decide +kernel

/-- The word placed for the host's check runs as the first command after reset (95_test_vectors.md section 7.1). -/
theorem test_placed_word :
    after (step (State.reset.withFetchWord 32 1)) (fun t => t.statusWord) = some 0x00000106#32 ∧
    after (step (State.reset.withFetchWord 32 4)) (fun t => t.statusWord) = some 0x00000406#32 := by decide +kernel

/-! ### Witnesses: for each statement with hypotheses, a state and operands that meet all of them (each clause, at a boundary) -/

theorem launch_admits_all (k : Access) : AdmitsAll launch k 0x1000 0x4000 := by
  cases k <;> exact fun x h1 h2 => by simp [memAdmit, launch, Region.admits, inWindow]; omega

theorem launch_admits (k : Access) (a n : Nat) (h1 : 0x1000 ≤ a) (h2 : a + n ≤ 0x5000) : AdmitsAll launch k a n :=
  fun x h3 h4 => launch_admits_all k x (by omega) (by omega)

theorem launch_refuses (k : Access) (a n x : Nat) (h1 : a ≤ x) (h2 : x < a + n) (h3 : x < 0x1000 ∨ 0x5000 ≤ x) :
    ¬ AdmitsAll launch k a n := fun h => by
  have := h x h1 h2
  cases k <;> simp [memAdmit, launch, Region.admits, inWindow] at this <;> omega

theorem scheduled_hasSchedule : scheduled.HasSchedule := ⟨rfl, .inl rfl⟩

/-- Windows as the rules ask: l source bytes from 0x1000 on, the output at 0x2000 or above. -/
theorem windows {s : State} (hs : s.srcAddr = 0x1000#32) (hp : s.platform = launch) {l ol : Nat} (h1 : l ≤ 0x1000)
    (h2 : 0x2000 ≤ s.dstAddr.toNat) (h3 : s.dstAddr.toNat + ol ≤ 4294967296) : s.WindowsOk l ol where
  src_inRange := by rw [hs]; show 0x1000 + l ≤ _; omega
  dst_inRange := h3
  apart := fun x _ h5 h6 _ => by
    rw [hs] at h5
    change x < 0x1000 + l at h5
    omega
  src_admitted := by rw [hs, hp]; exact launch_admits .read 0x1000 l le_rfl (by omega)

theorem form_of_noSchedule {s : State} (h1 : s.schedValid = false) (h2 : s.nr = 0#4 ∧ s.sched = zeroSchedule) :
    s.ScheduleForm :=
  ⟨fun h => (by rw [h1] at h; cases h), fun h => (by rw [h1] at h; cases h), fun _ => h2⟩

theorem running_inv (w : Word) (us : List Turn) : ({ running w with turns := us } : State).Inv where
  mem_wf := by show Memory.wf []; decide
  mem_inSpace := by show Memory.inSpace []; decide
  errCode_produced := by show (0#4).toNat ≤ 8; decide
  busy_clear := fun _ => ⟨rfl, rfl⟩
  schedule := form_of_noSchedule rfl ⟨rfl, rfl⟩

/-- O5, with no turn listed and with the engine's turn at the head. -/
theorem witness_StepRunsDecodedCommand :
    (running 1#32).fsm = .busy 1#32 ∧ decode 1#32 = .ok .keyExpand ∧ (running 1#32).turns = [] ∧
    ({ running 1#32 with turns := [.engine, .host] } : State).turns = .engine :: [.host] := by decide

/-- O7, at the ends of the reserved opcodes and with one reserved bit. -/
theorem witness_IllegalWordOnlyReports :
    (running 0x10#32).fsm = .busy 0x10#32 ∧ (0x10#32).extractLsb' 4 28 ≠ 0#28 ∧ (0x0#32).extractLsb' 0 4 = 0#4 ∧
    6 ≤ ((0x6#32).extractLsb' 0 4).toNat ∧ 6 ≤ ((0xF#32).extractLsb' 0 4).toNat := by decide

/-- O9, both clauses, the second with each kind of register access. -/
theorem witness_ResetEventZeroesTheBlock :
    ({ start with turns := [.reset] } : State).nextTurn = .reset ∧
    ({ hosting start (.read .w32 0#32) with turns := [.resetWithAccess] } : State).nextTurn = .resetWithAccess ∧
    (hosting start (.read .w32 0#32)).host.program = .read .w32 0#32 :: [] ∧
    (hosting start (.write .w8 0#32 1#32)).host.program = .write .w8 0#32 1#32 :: [] ∧
    (hosting start .wait).host.program = .wait :: [] := by decide

/-- O10: a CBC_ENCRYPT window that ends at 2^32, the shortest CBC_DECRYPT, one byte out of range, and LEN = 15. -/
theorem witness_ResetAbandonsRunningCommand :
    (running 4#32).mem.wf ∧ (running 4#32).fsm = .busy 4#32 ∧ ({ running 4#32 with turns := [.reset] } : State).nextTurn = .reset ∧
    (0xFFFFFFE0#32).toNat + (16 + 16 * ((0#32).toNat / 16 + 1)) ≤ 4294967296 ∧
    (16 ≤ (16#32).toNat ∧ (0xFFFFFFFF#32).toNat + ((16#32).toNat - 16) ≤ 4294967296) ∧
    4294967296 < (0xFFFFFFE1#32).toNat + (16 + 16 * ((0#32).toNat / 16 + 1)) ∧ (15#32).toNat < 16 := by decide

/-- O11: the last clause at its boundaries; j at the ends of each group. -/
theorem witness_RegReadFollowsTheMap :
    ((0x01#8).toNat % 4 ≠ 0) ∧ 0x90 ≤ (0x90#8).toNat ∧ 0x90 ≤ (0xFF#8).toNat ∧ 0 < 4 ∧ 3 < 4 ∧ 7 < 8 := by decide

/-- O12, at the first and the last offset of the window. -/
theorem witness_HostReadAnswersRegRead :
    (hosting start (.read .w32 (launch.base + (0xFC#8).setWidth 32))).nextTurn = .host ∧ (0xFC#8).toNat % 4 = 0 ∧
    (hosting start (.read .w32 (launch.base + (0xFC#8).setWidth 32))).host.program =
      .read .w32 (start.platform.base + (0xFC#8).setWidth 32) :: [] ∧
    (hosting start (.read .w32 (launch.base + (0x00#8).setWidth 32))).host.program =
      .read .w32 (start.platform.base + (0x00#8).setWidth 32) :: [] := by decide

/-- O13: RK_SEL = NR = 10 with j = 3, RK_SEL = 11, and no schedule. -/
theorem witness_RoundKeyReadback :
    (3 < 4 ∧ 4 * (10#4).toNat + 3 < 60 ∧ scheduled.schedValid = true ∧ (10#4).toNat ≤ scheduled.nr.toNat ∧
      scheduled.nr.toNat ≤ 14) ∧ scheduled.nr.toNat < (11#4).toNat ∧ start.schedValid = false ∧ scheduled.fsm = .idle := by
  decide

/-- O14: BUSY, IDLE, the ends of the KEY and DIN groups, and the last clause at its boundaries. -/
theorem witness_RegWriteFollowsTheMap :
    (running 1#32).fsm = .busy 1#32 ∧ start.fsm = .idle ∧ (0x0C#8 ≠ 0x08#8) ∧ (7 < 8 ∧ 3 < 4) ∧
    (0x2C ≤ (0x2C#8).toNat ∧ (0x3F#8).toNat < 0x40) ∧ (0x60 ≤ (0x60#8).toNat ∧ (0x6F#8).toNat < 0x70) ∧
    0x80 ≤ (0x80#8).toNat ∧ 0x80 ≤ (0xFF#8).toNat := by decide

/-- O15: a CMD write. -/
theorem witness_HostWritePerformsRegWrite :
    (hosting start (.write .w32 (launch.base + (0x0C#8).setWidth 32) 1#32)).nextTurn = .host ∧ (0x0C#8).toNat % 4 = 0 ∧
    (hosting start (.write .w32 (launch.base + (0x0C#8).setWidth 32) 1#32)).host.program =
      .write .w32 (start.platform.base + (0x0C#8).setWidth 32) 1#32 :: [] := by decide

/-- O16: a narrow access, an unaligned one, an accepted one. -/
theorem witness_RejectedAccessGetsBusError :
    (hosting start (.read .w16 (launch.base + (0x04#8).setWidth 32))).nextTurn = .host ∧
    (hosting start (.read .w16 (launch.base + (0x04#8).setWidth 32))).host.program =
      .read .w16 (start.platform.base + (0x04#8).setWidth 32) :: [] ∧ Width.w16 ≠ .w32 ∧ (0x02#8).toNat % 4 ≠ 0 ∧
    (0x04#8).toNat % 4 = 0 := by decide

theorem witness_RejectedAccessGetsBusError_accepted :
    ∃ t, step (hosting start (.write .w32 (launch.base + (0x04#8).setWidth 32) 1#32)) = .next t ∧
      t.host.responses = [.ok] := exists_of_after (f := fun t => t.host.responses) (by decide +kernel)

/-- O17: the last word of a block and of the 32-byte key. -/
theorem witness_LaneWordsHoldTheirBytes : 4 * 3 + 3 < 16 ∧ 4 * 7 + 3 < 32 ∧ 3 < 4 ∧ 15 < 16 ∧ 11 / 4 ≠ 3 := by decide

/-- O18: a completion, a write of 1 to DONE, an IDLE block. -/
theorem witness_InterruptFollowsDone :
    (∃ t, exec .keyExpand { start with irqEn := true } = .next t ∧ t.done = true) ∧ (2#32).getLsbD 1 = true ∧
    start.fsm = .idle := ⟨exists_of_after (f := fun t => t.done) (by decide +kernel), by decide, rfl⟩

/-- O19. -/
theorem witness_HostTurnWhileBusyLeavesRegisters :
    (running 1#32).busy = true ∧
    ({ hosting (running 1#32) (.write .w32 (launch.base + 0x18#32) 9#32) with turns := [.host] } : State).nextTurn = .host ∧
    ∃ t, step { hosting (running 1#32) (.write .w32 (launch.base + 0x18#32) 9#32) with turns := [.host] } = .next t ∧
      t.wrIgnored = true := ⟨rfl, rfl, exists_of_after (f := fun t => t.wrIgnored) (by decide +kernel)⟩

/-- O20: each accepted length, and its neighbours. -/
theorem witness_KeyExpandOutcome :
    (16#8).toNat = 16 ∧ (24#8).toNat = 24 ∧ (32#8).toNat = 32 ∧
    ¬ ((17#8).toNat = 16 ∨ (17#8).toNat = 24 ∨ (17#8).toNat = 32) ∧ 59 < 60 := by decide

/-- O21: a key of each length; the first and the last index of each clause. -/
theorem witness_KeyExpansionFollowsRecurrence :
    key128.length = 16 ∧ (bytes 24 1).length = 24 ∧ (bytes 32 1).length = 32 ∧ 3 < 16 / 4 ∧ 16 / 4 ≤ 4 ∧
    43 < 4 * (16 / 4 + 7) ∧ 59 < 4 * (32 / 4 + 7) := by decide

/-- O22: two keys that differ only past KEY_LEN = 16. -/
theorem witness_KeyExpandDependsOnKeyBytesOnly :
    (withKey key128).keyLen = ({ withKey (key128 ++ [7#8]) with keyLen := 16#8 } : State).keyLen ∧
    (∀ (i : Nat) (h : i < 32), i < (withKey key128).keyLen.toNat →
      (withKey key128).key[i] = ({ withKey (key128 ++ [7#8]) with keyLen := 16#8 } : State).key[i]) := by decide +kernel

/-- O23: the two kinds of step that change the schedule. -/
theorem witness_ScheduleChangesOnlyAtKeyExpandOrReset :
    (∃ t, step { withKey key128 with fsm := .busy 1#32 } = .next t ∧ t.schedValid = true) ∧
    (withKey key128).schedValid = false ∧ (∃ t, step { scheduled with turns := [.reset] } = .next t ∧ t.nr = 0#4) ∧
    scheduled.nr = 10#4 :=
  ⟨exists_of_after (f := fun t => t.schedValid) (by decide +kernel), rfl,
    exists_of_after (f := fun t => t.nr) (by decide +kernel), rfl⟩

/-- O24, with a schedule present. -/
theorem witness_ScheduleIsAlwaysAnExpansion :
    (keyed key128).ScheduleOfKey ∧ (keyed key128).schedValid = true ∧ ∃ t, step (keyed key128) = .next t ∧ t.done = false :=
  ⟨fun _ => ⟨key128, by decide, rfl, rfl⟩, rfl, exists_of_after (f := fun t => t.done) (by decide +kernel)⟩

/-- O25: the last byte of the last round key. -/
theorem witness_RoundKeyIsFourWords : 14 ≤ 14 ∧ 3 < 4 ∧ 4 * 14 + 3 < 60 := by decide

/-- O26: the first index of the recurrence. -/
theorem witness_RoundConstants : 2 ≤ 2 := le_rfl

/-- O28: bit 7, whose other indices wrap. -/
theorem witness_SboxIsAffineOfInverse : 7 < 8 ∧ (7 + 4) % 8 = 3 := by decide

/-- O29: a nonzero byte and a byte whose product with it is 1. -/
theorem witness_FieldInverseIsUnique : 0x53#8 ≠ 0#8 ∧ gmul 0x53#8 0xca#8 = 1#8 := by decide

/-- O31: the last column. -/
theorem witness_MixColumnsMultipliesByTheMatrix : 3 < 4 := by decide

/-- O32: the last column. -/
theorem witness_InvMixColumnsMultipliesByTheMatrix : 3 < 4 := by decide

/-- O33: row 3, column 1 comes from column 2 on the way back. -/
theorem witness_ShiftRowsRotateRows : 3 < 4 ∧ 1 < 4 ∧ 2 < 4 ∧ (2 + 3) % 4 = 1 := by decide

/-- O35: a state with a schedule, and one without. -/
theorem witness_EncBlockOutcome : (keyed keyC1).HasSchedule ∧ start.schedValid = false := ⟨⟨rfl, .inl rfl⟩, rfl⟩

/-- O36. -/
theorem witness_DecBlockOutcome : (keyed keyC1).HasSchedule ∧ start.schedValid = false := ⟨⟨rfl, .inl rfl⟩, rfl⟩

/-- O37. -/
theorem witness_DecryptingTheOutputReturnsTheInput : (keyed keyC1).HasSchedule := ⟨rfl, .inl rfl⟩

/-- O41: the last block of a 17-byte text, the only block of an empty one. -/
theorem witness_CbcEncCoreChains : 1 < (bytes 17 0).length / 16 + 1 ∧ 0 < (bytes 0 0).length / 16 + 1 := by decide

/-- O42: no block, and the second of two. -/
theorem witness_CbcDecCoreChains :
    (bytes 16 0).length = 16 * (0 + 1) ∧ (bytes 48 0).length = 16 * (2 + 1) ∧ 1 < 2 := by decide

/-- O43, for the empty plaintext with the output at the end of the admitted region, and for 17 bytes. -/
theorem witness_CbcEncryptCompletes :
    (cbc scheduled 0x1000#32 0#32 0x4FE0#32).mem.wf ∧ (cbc scheduled 0x1000#32 0#32 0x4FE0#32).HasSchedule ∧
    (cbc scheduled 0x1000#32 0#32 0x4FE0#32).WindowsOk (0#32).toNat (16 + 16 * ((0#32).toNat / 16 + 1)) ∧
    AdmitsAll launch .write (0x4FE0#32).toNat (16 + 16 * ((0#32).toNat / 16 + 1)) ∧
    (cbc scheduled 0x1000#32 17#32 0x2000#32).WindowsOk (17#32).toNat (16 + 16 * ((17#32).toNat / 16 + 1)) :=
  ⟨by decide, scheduled_hasSchedule, windows rfl rfl (by decide) (by decide) (by decide),
    launch_admits _ _ _ (by decide) (by decide), windows rfl rfl (by decide) (by decide) (by decide)⟩

/-- O44: each clause at a boundary (95_test_vectors.md section 7). -/
theorem witness_CbcEncryptReportsFirstError :
    start.schedValid = false ∧ scheduled.HasSchedule ∧
    4294967296 < (0xFFFFFFE1#32).toNat + (16 + 16 * (5 / 16 + 1)) ∧
    (∃ x : Nat, (0x1000 ≤ x ∧ x < 0x1000 + 5) ∧ (0x0FE1 ≤ x ∧ x < 0x0FE1 + (16 + 16 * (5 / 16 + 1)))) ∧
    (¬ ∃ x : Nat, (0x0FFF ≤ x ∧ x < 0x0FFF + 5) ∧ (0x2000 ≤ x ∧ x < 0x2000 + (16 + 16 * (5 / 16 + 1)))) ∧
    ¬ AdmitsAll launch .read 0x0FFF 5 :=
  ⟨rfl, scheduled_hasSchedule, by decide, ⟨0x1000, by decide, by decide⟩, fun ⟨x, h⟩ => by omega,
    launch_refuses _ _ _ 0x0FFF (by decide) (by decide) (by decide)⟩

/-- O45: "hello" where its five bytes just fit (95_test_vectors.md section 7). -/
theorem witness_CbcDecryptCompletes :
    (helloCipher 0x4FFB#32).mem.wf ∧ (helloCipher 0x4FFB#32).HasSchedule ∧ 16 ≤ (helloCipher 0x4FFB#32).len.toNat ∧
    ((helloCipher 0x4FFB#32).len.toNat - 16) % 16 = 0 ∧ (helloCipher 0x4FFB#32).WindowsOk 32 16 ∧
    unpad (cbcDecCore (helloCipher 0x4FFB#32).sched (helloCipher 0x4FFB#32).nr.toNat
      (sourceBytes (helloCipher 0x4FFB#32))) = some (bytes 5 0x68656c6c6f) ∧
    AdmitsAll (helloCipher 0x4FFB#32).platform .write (helloCipher 0x4FFB#32).dstAddr.toNat (bytes 5 0x68656c6c6f).length :=
  ⟨Memory.writeRange_wf (by decide) _ _, ⟨rfl, .inl rfl⟩, by decide, by decide, windows rfl rfl (by decide) (by decide) (by decide),
    hello_unpads, launch_admits _ _ _ (by decide) (by decide)⟩

/-- O46: each clause at a boundary; the last with LEN = 16, whose padded plaintext is empty. -/
theorem witness_CbcDecryptReportsFirstError :
    ((15 < 16) ∧ (33 - 16) % 16 ≠ 0) ∧ (16 ≤ 32 ∧ (32 - 16) % 16 = 0) ∧
    4294967296 < (0xFFFFFFF1#32).toNat + (32 - 16) ∧
    (∃ x : Nat, (0x1000 ≤ x ∧ x < 0x1000 + 32) ∧ (0x1010 ≤ x ∧ x < 0x1010 + (32 - 16))) ∧
    ¬ AdmitsAll launch .read 0x4FF0 32 ∧ AdmitsAll launch .read 0x1000 16 ∧
    unpad (cbcDecCore scheduled.sched scheduled.nr.toNat (sourceBytes (cbc scheduled 0x1000#32 16#32 0x1000#32))) = none :=
  ⟨by decide, by decide, by decide, ⟨0x1010, by decide, by decide⟩,
    launch_refuses _ _ _ 0x5000 (by decide) (by decide) (by decide), launch_admits _ _ _ (by decide) (by decide), by decide⟩

/-- O47: a source byte refused; the write of CBC_ENCRYPT refused; the write of "hello" at 0x4FFC refused. -/
theorem witness_WriteBusErrorHavocsTheWindow :
    scheduled.mem.wf ∧ scheduled.HasSchedule ∧ ¬ AdmitsAll launch .read 0x0FFF 5 ∧
    (overlaps 0x1000 0 0x4FE1 32 = false ∧ AdmitsAll launch .read 0x1000 0 ∧ ¬ AdmitsAll launch .write 0x4FE1 32) ∧
    (overlaps 0x1000 32 0x4FFC 16 = false ∧ AdmitsAll launch .read 0x1000 32 ∧ ¬ AdmitsAll launch .write 0x4FFC 5) :=
  ⟨by decide, scheduled_hasSchedule, launch_refuses _ _ _ 0x0FFF (by decide) (by decide) (by decide),
    ⟨by decide, launch_admits _ _ _ (by decide) (by decide), launch_refuses _ _ _ 0x5000 (by decide) (by decide) (by decide)⟩,
    ⟨by decide, launch_admits _ _ _ (by decide) (by decide), launch_refuses _ _ _ 0x5000 (by decide) (by decide) (by decide)⟩⟩

/-- O48: an error with a changed byte (a write BUS_ERROR), and one without (OVERLAP). -/
theorem witness_NoPartialOutput :
    (∃ t, exec .cbcDecrypt (helloCipher 0x4FFC#32) = .next t ∧ t.errCode = 8#4) ∧
    ∃ t, exec .cbcEncrypt (cbc scheduled 0x1000#32 5#32 0x0FE1#32) = .next t ∧ t.errCode = 7#4 :=
  ⟨exists_of_after (f := fun t => t.errCode) (by decide +kernel), exists_of_after (f := fun t => t.errCode) (by decide +kernel)⟩

/-- O49: the empty plaintext of `scheduled`, then its output deciphered from 0x2000 to 0x3000. -/
theorem witness_CbcRoundTrip :
    ∃ t u : State, (cbc scheduled 0x1000#32 0#32 0x2000#32).mem.wf ∧
      exec .cbcEncrypt (cbc scheduled 0x1000#32 0#32 0x2000#32) = .next t ∧ t.errCode = 0#4 ∧ u.mem.wf ∧
      u.sched = scheduled.sched ∧ u.nr = scheduled.nr ∧ u.schedValid = scheduled.schedValid ∧ u.len = t.outLen ∧
      (∀ i : Nat, i < t.outLen.toNat → (sourceBytes u).getD i 0#8 = t.mem.read ((0x2000#32).toNat + i)) ∧
      u.WindowsOk u.len.toNat (u.len.toNat - 16) ∧ AdmitsAll u.platform .write u.dstAddr.toNat (0#32).toNat := by
  have hw : (cbc scheduled 0x1000#32 0#32 0x2000#32).WindowsOk 0 (cipherLen 0) :=
    windows rfl rfl (by decide) (by decide) (by decide)
  rcases storeOutput_cases (((cbc scheduled 0x1000#32 0#32 0x2000#32).setOutLen 0#32).takeDraw (Config.entropyDraw 0))
    (cipherLen 0) (cbcEncCore scheduled.sched 10 (Config.entropyDraw 0) []) with ⟨-, h⟩ | ⟨h, -⟩
  · have he : exec .cbcEncrypt (cbc scheduled 0x1000#32 0#32 0x2000#32) = _ :=
      (cbcEncryptWith_of_windows (s := cbc scheduled 0x1000#32 0#32 0x2000#32) (v := Config.entropyDraw 0)
        scheduled_hasSchedule hw).trans h
    refine ⟨_, { cbc scheduled 0x2000#32 32#32 0x3000#32 with
      mem := Memory.writeRange [] 0x2000 (cbcEncCore scheduled.sched 10 (Config.entropyDraw 0) []) }, by decide,
      he, rfl, Memory.writeRange_wf (by decide) _ _, rfl, rfl, rfl, rfl, fun i hi => ?_, ?_,
      fun x (h1 : 0x3000 ≤ x) (h2 : x < 0x3000) => by omega⟩
    · rw [sourceBytes_getD _ hi]; rfl
    exact {
      src_inRange := by decide
      dst_inRange := by decide
      apart := fun x _ h2 h3 _ => by
        change x < 0x2000 + 32 at h2
        change 0x3000 ≤ x at h3
        omega
      src_admitted := launch_admits .read 0x2000 32 (by decide) (by decide) }
  · exact absurd (launch_admits .write 0x2000 (cipherLen 0) (by decide) (by decide)) h

/-- O50: each of the three answers a next state, with and without an error. -/
theorem witness_RegisterCommandsFrame :
    (∃ t, exec .keyExpand start = .next t ∧ t.errCode = 1#4) ∧ (∃ t, exec .encBlock (keyed keyC1) = .next t ∧ t.errCode = 0#4) ∧
    (∃ t, exec .decBlock (keyed keyC1) = .next t ∧ t.errCode = 0#4) :=
  ⟨exists_of_after (f := fun t => t.errCode) (by decide +kernel), exists_of_after (f := fun t => t.errCode) (by decide +kernel),
    exists_of_after (f := fun t => t.errCode) (by decide +kernel)⟩

/-- O51. -/
theorem witness_CbcCommandsFrame :
    (∃ t, exec .cbcEncrypt (cbc scheduled 0x1000#32 5#32 0xFFFFFFE0#32) = .next t ∧ t.errCode = 8#4) ∧
    (∃ t, exec .cbcDecrypt (helloCipher 0x4FFB#32) = .next t ∧ t.errCode = 0#4) :=
  ⟨exists_of_after (f := fun t => t.errCode) (by decide +kernel), exists_of_after (f := fun t => t.errCode) (by decide +kernel)⟩

/-- O52. -/
theorem witness_EveryCommandEndsOnce : (running 5#32).Inv ∧ (running 5#32).busy = true := ⟨running_inv _ [], rfl⟩

/-- O54: a step that runs a command. -/
theorem witness_StepKeepsInvariant :
    (running 1#32).Inv ∧ (∃ t, step (running 1#32) = .next t ∧ t.errCode = 1#4) :=
  ⟨running_inv _ [], exists_of_after (f := fun t => t.errCode) (by decide +kernel)⟩

/-- O55: BUSY, two host turns before the engine's, no access pending. -/
theorem witness_BusyReachesItsEngineStep :
    ({ running 1#32 with turns := [.host, .host] } : State).busy = true ∧
    (∀ u ∈ ({ running 1#32 with turns := [.host, .host] } : State).turns, u = .host) ∧
    ({ running 1#32 with turns := [.host, .host] } : State).Inv ∧ (running 1#32).host.program = [] :=
  ⟨rfl, by decide, running_inv _ _, rfl⟩

/-- A duty whose destination ends where the window does. -/
def duty : DmaDuty := { src := 0x1000, srcLen := 5, dst := 0x2000, dstLen := 32 }

/-- "hello" about to be deciphered to 0x4FFB by the host's next access. -/
def helloHosted : State := hosting (helloCipher 0x4FFB#32) (.write .w32 (launch.base + 0x0C#32) 5#32)

/-- O56: the three clauses; the first with a CBC_DECRYPT whose output window is its 5 bytes; the first and the last byte of a
window. -/
theorem witness_DmaDutyIsEnforced :
    (helloHosted.nextTurn = .host ∧ helloHosted.fsm = .idle ∧
      helloHosted.host.program = .write .w32 (helloHosted.platform.base + 0x0C#32) 5#32 :: [] ∧
      after (step helloHosted) (fun t => (t.host.duties.map DmaDuty.dstLen, after (engineStep t) (fun u => u.errCode))) =
        some ([5], some 0#4)) ∧
    (duty ∈ [duty] ∧ duty.dst ≤ (0x2000#32).toNat ∧ (0x201F#32).toNat < duty.dst + duty.dstLen ∧
      duty.src ≤ (0x1004#32).toNat ∧ (0x1004#32).toNat < duty.src + duty.srcLen) ∧
    ∃ t, step (hosting { start with host := { HostSide.empty with duties := [duty] } } (.read .w32 (launch.base + 0x08#32))) =
      .next t ∧ t.host.duties = [] :=
  ⟨by decide +kernel, by decide, exists_of_after (f := fun t => t.host.duties) (by decide +kernel)⟩

/-- The same launch with DMA not coherent. -/
def apart : State := { start with platform := { launch with dmaCoherent := false } }

/-- O57: both kinds of platform, and later accesses that answer a next state. -/
theorem witness_StatusReadOrdersCompletion :
    (hosting start (.read .w32 (launch.base + 0x08#32))).nextTurn = .host ∧ start.fsm = .idle ∧
    (hosting start (.read .w32 (launch.base + 0x08#32))).host.program =
      .read .w32 (start.platform.base + 0x08#32) :: [] ∧ start.platform.dmaCoherent = true ∧ apart.host.stale = [] ∧
    0x2001#32 ≠ 0x2000#32 ∧
    ∃ v, hostOps [.read .w32 (launch.base + 0x10#32), .wait, .memRead 0x2000#32, .memWrite 0x2001#32 7#8,
      .cacheClean 0x2000#32 2] start = .next v ∧ v.host.responses.length = 5 :=
  ⟨by decide, by decide, by decide, by decide, by decide, by decide,
    exists_of_after (f := fun v => v.host.responses.length) (by decide +kernel)⟩

/-- O58: a CMD write with an uncleaned and a clean source byte (the ends of the window); a stale byte; the last byte DMA wrote,
invalidated alone; the last byte of a clean, and a byte that is not stale. -/
theorem witness_NonCoherentDmaNeedsMaintenance :
    (apart.mem.wf ∧ apart.platform.dmaCoherent = false ∧
      (hosting apart (.write .w32 (launch.base + 0x0C#32) 4#32)).nextTurn = .host ∧ apart.fsm = .idle ∧
      (hosting apart (.write .w32 (launch.base + 0x0C#32) 4#32)).host.program =
        .write .w32 (apart.platform.base + 0x0C#32) 4#32 :: []) ∧
    (0x1000#32 ∈ (apart.hostStore 0x1000#32 9#8).host.dirty ∧ (0x1000#32).toNat ≤ (0x1000#32).toNat ∧
      (0x1000#32).toNat < (0x1000#32).toNat + (1#32).toNat ∧ 0x1001#32 ∉ (apart.hostStore 0x1000#32 9#8).host.dirty) ∧
    ((apart.dmaWrite 0x2000 [1#8]).host.duties = [] ∧ (0x2000#32).toNat ∈ (apart.dmaWrite 0x2000 [1#8]).host.stale) ∧
    (apart.host.duties = [] ∧ 0x2000 ≤ (0x2001#32).toNat ∧ (0x2001#32).toNat < 0x2000 + [1#8, 2#8].length ∧
      (0x2001#32).toNat ≤ (0x2001#32).toNat ∧ (0x2001#32).toNat < (0x2001#32).toNat + 1) ∧
    ((0x1000#32).toNat ≤ (0x1001#32).toNat ∧ (0x1001#32).toNat < (0x1000#32).toNat + 2 ∧
      (0x2001#32).toNat ∉ (apart.hostStore 0x1000#32 9#8).host.stale) := by decide

/-- Of a Havoc window only the bytes that admit the write become stale; 0x5000 refuses it (00_scope.md R12, R17; log 24). -/
theorem test_havoc_stale : (apart.havoc 0x4FFF 2).host.stale = [0x4FFF] := by decide +kernel

/-- Where DMA is not coherent and the host did what 20_memory.md R68 lists, it sees DMA's byte, also where it had written that
byte before and never cleaned it (R67). -/
theorem test_invalidate_after_own_write :
    after (hostOps [.cacheInvalidate 0x2000#32 1, .memRead 0x2000#32] ((apart.hostStore 0x2000#32 9#8).dmaWrite 0x2000 [1#8]))
      (fun t => t.host.responses) = some [.byte 1#8, .ok] := by decide +kernel

/-- A CMD write starts the command whatever the host left uncleaned (10_state.md R54); with SCHED_VALID = 0 the command then ends in
NO_SCHEDULE (60_exceptions.md R192). -/
theorem test_cmd_with_uncleaned_source :
    after (step (hosting (cbc (apart.hostStore 0x1000#32 9#8) 0x1000#32 1#32 0x2000#32)
      (.write .w32 (launch.base + 0x0C#32) 4#32))) (fun t => (t.fsm, after (engineStep t) (fun u => u.errCode))) =
      some (.busy 4#32, some 4#4) := by decide +kernel

/-- O59: the three clauses. -/
theorem witness_WriteAndEngineStepInEitherOrder :
    (running 1#32).busy = true ∧ (0x18#8).toNat % 4 = 0 ∧
    (hosting (running 1#32) (.write .w32 (launch.base + (0x18#8).setWidth 32) 9#32)).host.program =
      .write .w32 (start.platform.base + (0x18#8).setWidth 32) 9#32 :: [] ∧ (0x18#8 ≠ 0x08#8 ∧ 0x18#8 ≠ 0x0C#8) ∧
    ((running 1#32).done = false ∧ (2#32).getLsbD 4 = false) ∧
    ∃ t, step { hosting (running 1#32) (.write .w32 (launch.base + (0x18#8).setWidth 32) 9#32) with
      turns := [.engine, .host] } = .next t ∧ t.errCode = 1#4 :=
  ⟨rfl, by decide, rfl, by decide, by decide, exists_of_after (f := fun t => t.errCode) (by decide +kernel)⟩

end Sys2Proof.Tests
end

/-!
The window map of 00_scope.md R11 and 30_encoding.md R86: which bus addresses select which offset of the
register window.
-/
namespace Sys2Proof.Machine

/-- BASE is basePage placed at bits [31:8] (00_scope.md R11). -/
theorem base_toNat (p : Platform) : p.base.toNat = p.basePage.toNat * 2 ^ 8 := by
  unfold Platform.base
  rw [BitVec.toNat_append, BitVec.toNat_ofNat, Nat.zero_mod, Nat.or_zero, Nat.shiftLeft_eq]

/-- An address that selects an offset is BASE's page followed by that offset. -/
theorem eq_append_of_windowOffset {p : Platform} {a : Addr} {off : BitVec 8} (h : p.windowOffset a = some off) :
    a = p.basePage ++ off := by
  unfold Platform.windowOffset at h
  split at h
  next hpage =>
    obtain rfl := Option.some.inj h
    rw [← hpage, BitVec.extractLsb'_append_extractLsb'_eq_extractLsb' (by rfl)]
    exact BitVec.extractLsb'_eq_self.symm
  next => contradiction

/-- Settles O3: the address of BASE + off selects off (R86), and an address that selects off is
basePage followed by off. -/
theorem windowOffsetIsBasePlusOffset : Obligations.WindowOffsetIsBasePlusOffset := by
  intro p a off
  refine ⟨?_, fun h => ?_, ?_⟩
  · rw [base_toNat]
    exact Nat.mul_mod_left _ _
  · rw [base_add_offset]
    exact eq_append_of_windowOffset h
  · rintro rfl
    exact windowOffset_regAddr p off

end Sys2Proof.Machine

/-!
The register port (10_state.md R34, R47, R53, R54): the bytes of a lane word, which register an offset names, what
a register reads as and what a write does.
-/
namespace Sys2Proof.Machine

/-! ### Lanes (10_state.md R34) -/

/-- Bit b of byte lane i of Word(X, j) is bit b of X[4j+i]. -/
theorem laneWord_getLsbD {n : Nat} (x : Vector Byte n) (j : Nat) (h : 4 * j + 3 < n) {i b : Nat} (hi : i < 4)
    (hb : b < 8) : (laneWord x j h).getLsbD (8 * i + b) = (x[4 * j + i]).getLsbD b := by
  simp only [laneWord, packWord, BitVec.getLsbD_or, BitVec.getLsbD_shiftLeft, BitVec.getLsbD_setWidth]
  interval_cases i <;> simp (disch := omega) [decide_eq_true]

/-- Byte lane i of Word(X, j) is X[4j+i]. -/
theorem laneWord_byte {n : Nat} (x : Vector Byte n) (j : Nat) (h : 4 * j + 3 < n) {i : Nat} (hi : i < 4) :
    (laneWord x j h).extractLsb' (8 * i) 8 = x[4 * j + i] := by
  refine BitVec.eq_of_getLsbD_eq fun b hb => ?_
  rw [BitVec.getLsbD_extractLsb', laneWord_getLsbD x j h hi hb]
  simp [hb]

/-- SetWord(X, j, v) byte by byte. -/
theorem setLaneWord_getElem {n : Nat} (x : Vector Byte n) (j : Nat) (v : Word) {k : Nat} (hk : k < n) :
    (setLaneWord x j v)[k] = if k / 4 = j then v.extractLsb' (8 * (k % 4)) 8 else x[k] := by
  rw [setLaneWord, Vector.getElem_ofFn]
  rfl

theorem setLaneWord_inside {n : Nat} (x : Vector Byte n) (j : Nat) (v : Word) {i : Nat} (hi : i < 4)
    (h : 4 * j + i < n) : (setLaneWord x j v)[4 * j + i] = v.extractLsb' (8 * i) 8 := by
  rw [setLaneWord_getElem, if_pos (by omega), show (4 * j + i) % 4 = i by omega]

/-- Word j after SetWord(X, j, v) is v. -/
theorem laneWord_setLaneWord {n : Nat} (x : Vector Byte n) (j : Nat) (h : 4 * j + 3 < n) (v : Word) :
    laneWord (setLaneWord x j v) j h = v := by
  refine BitVec.eq_of_getLsbD_eq fun k hk => ?_
  have hi : k / 8 < 4 := by omega
  have hb : k % 8 < 8 := by omega
  rw [← Nat.div_add_mod k 8, laneWord_getLsbD _ j h hi hb, setLaneWord_inside x j v hi (by omega),
    BitVec.getLsbD_extractLsb']
  simp [hb]

/-- Settles O17: reads and writes of a lane word are byte by byte. -/
theorem laneWordsHoldTheirBytes : Obligations.LaneWordsHoldTheirBytes := by
  intro n x j h v
  refine ⟨fun i hi => laneWord_byte x j h hi, laneWord_setLaneWord x j h v,
    fun i hi => setLaneWord_inside x j v hi (by omega), fun k hk hkj => ?_⟩
  rw [setLaneWord_getElem, if_neg hkj]

/-! ### Offsets (10_state.md R33) -/

/-- Each register's offset names it. -/
@[simp] theorem decodeOffset_offset (r : RegName) : decodeOffset r.offset = some r := by
  cases r with
  | rk j => revert j; decide
  | key j => revert j; decide
  | iv j => revert j; decide
  | din j => revert j; decide
  | dout j => revert j; decide
  | _ => rfl

/-- An offset names no register but the one whose offset it is. -/
theorem eq_offset_of_decodeOffset {off : BitVec 8} {r : RegName} (h : decodeOffset off = some r) : off = r.offset := by
  unfold decodeOffset at h
  split at h
  · contradiction
  · refine BitVec.eq_of_toNat_eq ?_
    split at h <;> cases h <;> simp [RegName.offset] <;> omega

/-- The offsets R33 lists as "(none)", and the unaligned ones, name no register. -/
theorem decodeOffset_eq_none {off : BitVec 8} (h : off.toNat % 4 ≠ 0 ∨ off = 0x2C#8 ∨ 0x90 ≤ off.toNat) :
    decodeOffset off = none := by
  rw [Option.eq_none_iff_forall_ne_some]
  rintro r hr
  obtain rfl := eq_offset_of_decodeOffset hr
  revert h
  cases r with
  | rk j => revert j; decide
  | key j => revert j; decide
  | iv j => revert j; decide
  | din j => revert j; decide
  | dout j => revert j; decide
  | _ => decide

/-! ### Register reads (10_state.md R53) -/

theorem regRead_offset (r : RegName) (s : State) : regRead r.offset s = readReg r s := by
  rw [regRead, decodeOffset_offset]

theorem regRead_of_none {off : BitVec 8} (h : decodeOffset off = none) (s : State) : regRead off s = 0#32 := by
  rw [regRead, h]

/-- BUSY, DONE, ERR, SCHED_VALID and WR_IGNORED stand in bits 0 to 4 of STATUS, ERR_CODE in bits [11:8]. -/
theorem statusWord_eq (s : State) : s.statusWord =
    (if s.fsm = .idle then 0x0#32 else 0x1#32) ||| (if s.done then 0x2#32 else 0#32)
      ||| (if s.errCode = 0#4 then 0#32 else 0x4#32) ||| (if s.schedValid then 0x8#32 else 0#32)
      ||| (if s.wrIgnored then 0x10#32 else 0#32) ||| (s.errCode.setWidth 32 <<< 8) := by
  have hbit (b : Bool) (k : Nat) : bitWord b <<< k = if b then 1#32 <<< k else 0#32 := by cases b <;> simp [bitWord]
  have hbusy : bitWord s.busy = if s.fsm = .idle then 0x0#32 else 0x1#32 := by
    cases hb : s.busy
    · rw [if_pos ((State.busy_eq_false s).1 hb)]; rfl
    · obtain ⟨w, hw⟩ := (State.busy_eq_true s).1 hb
      rw [hw]; rfl
  have herr : bitWord s.err <<< 2 = if s.errCode = 0#4 then 0#32 else 0x4#32 := by
    by_cases h : s.errCode = 0#4 <;> simp [hbit, State.err, h]
  rw [State.statusWord, hbusy, herr, hbit, hbit, hbit]
  rfl

/-- Settles O11: the offsets that name a register read as that register, the others as 0. -/
theorem regReadFollowsTheMap : Obligations.RegReadFollowsTheMap := by
  intro s
  refine ⟨regRead_offset .id s, regRead_offset .ctrl s, ?_, regRead_offset .cmd s, regRead_offset .keyLen s,
    regRead_offset .nr s, regRead_offset .len s, regRead_offset .outLen s, regRead_offset .srcAddr s,
    regRead_offset .dstAddr s, regRead_offset .rkSel s, fun j h => ?_, fun j h => regRead_offset (.key ⟨j, h⟩) s,
    fun j h => regRead_offset (.iv ⟨j, h⟩) s, fun j h => regRead_offset (.din ⟨j, h⟩) s,
    fun j h => regRead_offset (.dout ⟨j, h⟩) s, fun off h => regRead_of_none (decodeOffset_eq_none h) s⟩
  · exact (regRead_offset .status s).trans (statusWord_eq s)
  · rw [show BitVec.ofNat 8 (0x30 + 4 * j) = (RegName.rk ⟨j, h⟩).offset from rfl, regRead_offset]
    simp [readReg, State.rkVisible]

/-- Settles O8: every component of the reset state is written as 0 (R58). -/
theorem resetStateIsAllZero : Obligations.ResetStateIsAllZero :=
  ⟨rfl, rfl, regRead_offset .status State.reset, regRead_offset .id State.reset⟩

/-! ### Register writes (10_state.md R54) -/

theorem regWrite_status (v : Word) (s : State) : regWrite 0x08#8 v s = s.clearStatus v := if_pos rfl

theorem regWrite_busy {off : BitVec 8} (ho : off ≠ 0x08#8) {s : State} (hb : s.busy = true) (v : Word) :
    regWrite off v s = s.ignoreWrite := by
  rw [regWrite, if_neg ho, if_pos hb]

/-- While IDLE a write reaches the register its offset names. -/
theorem regWrite_offset {r : RegName} (hr : r ≠ .status) {s : State} (hs : s.fsm = .idle) (v : Word) :
    regWrite r.offset v s = writeReg r v s := by
  have ho : r.offset ≠ 0x08#8 := fun ho => hr (Option.some.inj (by
    rw [← decodeOffset_offset r, ho]
    rfl))
  rw [regWrite, if_neg ho, if_neg (by simp [(State.busy_eq_false s).2 hs]), decodeOffset_offset]

theorem regWrite_of_none {off : BitVec 8} (h : decodeOffset off = none) {s : State} (hs : s.fsm = .idle) (v : Word) :
    regWrite off v s = s := by
  have ho : off ≠ 0x08#8 := by
    rintro rfl
    contradiction
  rw [regWrite, if_neg ho, if_neg (by simp [(State.busy_eq_false s).2 hs]), h]

/-- A register the host cannot write ignores the write (R54: "a write to a RO register while IDLE has no effect"). -/
theorem regWrite_readOnly {off : BitVec 8} (h : off.toNat % 4 ≠ 0 ∨ off = 0x00#8 ∨ off = 0x14#8 ∨ off = 0x1C#8 ∨
      (0x2C ≤ off.toNat ∧ off.toNat < 0x40) ∨ (0x60 ≤ off.toNat ∧ off.toNat < 0x70) ∨ 0x80 ≤ off.toNat)
    {s : State} (hs : s.fsm = .idle) (v : Word) : regWrite off v s = s := by
  cases hd : decodeOffset off with
  | none => exact regWrite_of_none hd hs v
  | some r =>
    obtain rfl := eq_offset_of_decodeOffset hd
    clear hd
    cases r with
    | id | nr | outLen | rk | iv | dout => exact regWrite_offset (by simp) hs v
    | key j => exfalso; revert j; decide
    | din j => exfalso; revert j; decide
    | ctrl | status | cmd | keyLen | len | srcAddr | dstAddr | rkSel => exfalso; revert h; decide

/-- Settles O14: STATUS first, then the writes dropped while BUSY, then each register's own write. -/
theorem regWriteFollowsTheMap : Obligations.RegWriteFollowsTheMap := by
  intro s v
  refine ⟨?_, fun off w ho hw => ?_, fun hs => ?_⟩
  · rw [regWrite_status, State.clearStatus]
    congr 1 <;> split <;> simp_all
  · exact regWrite_busy ho ((State.busy_eq_true s).2 ⟨w, hw⟩) v
  · have hwrite {r : RegName} (hr : r ≠ .status) : regWrite r.offset v s = writeReg r v s := regWrite_offset hr hs v
    refine ⟨hwrite (r := .ctrl) (by simp), hwrite (r := .cmd) (by simp), hwrite (r := .keyLen) (by simp),
      hwrite (r := .len) (by simp), hwrite (r := .srcAddr) (by simp), hwrite (r := .dstAddr) (by simp),
      hwrite (r := .rkSel) (by simp), fun j hj => ?_, fun j hj => ?_, fun off h => regWrite_readOnly h hs v⟩
    · exact ⟨_, hwrite (r := .key ⟨j, hj⟩) (by simp), fun i h => setLaneWord_getElem s.key j v h⟩
    · exact ⟨_, hwrite (r := .din ⟨j, hj⟩) (by simp), fun i h => setLaneWord_getElem s.din j v h⟩

/-! ### The round-key readback (10_state.md R47) -/

/-- Byte i of word j of round key r is byte i of w[4r+j] (41_key_schedule.md R124). -/
theorem roundKey_getElem (w : Schedule) {r j i : Nat} (hj : j < 4) (hi : i < 4) (h : 4 * r + j < 60) :
    (roundKey w r)[4 * j + i] = (w[4 * r + j])[i] := by
  rw [roundKey, Vector.getElem_ofFn]
  simp only [show (4 * j + i) / 4 = j by omega, show (4 * j + i) % 4 = i by omega,
    Vector.getElem?_eq_getElem h, Option.getD_some]

/-- Settles O13: RKj is the lane word of the selected round key, or 0. -/
theorem roundKeyReadback : Obligations.RoundKeyReadback := by
  intro s j hj
  have hread : regRead (BitVec.ofNat 8 (0x30 + 4 * j)) s = readReg (.rk ⟨j, hj⟩) s := regRead_offset (.rk ⟨j, hj⟩) s
  refine ⟨fun i hs hi hv hle _ => ?_, fun h => ?_, fun v hs => regWrite_offset (r := .rk ⟨j, hj⟩) (by simp) hs v⟩
  · have hvis : s.rkVisible = true := by simp [State.rkVisible, hv, hle]
    rw [hread, readReg, if_pos hvis, laneWord_byte _ _ _ hi, roundKey_getElem _ hj hi hs]
  · have hvis : s.rkVisible = false := by
      rcases h with h | h <;> simp [State.rkVisible, h]
    rw [hread, readReg, if_neg (by simp [hvis])]

end Sys2Proof.Machine

/-!
The schedule and the invariant (10_state.md R52, R54): what a command, a register write, a host access and a
reset do to SCHED, to memory and to the outcome of a command, and from them what every step keeps.
-/
namespace Sys2Proof.Machine

/-! ### SCHED, SCHED_VALID and NR -/

/-- SCHED, SCHED_VALID and NR in `t` come from those in `s` as the rules let them: kept, the stored expansion of a
root key (41_key_schedule.md R125), or cleared (R125, 70_reset_and_hazards.md R210). -/
def ScheduleMove (s t : State) : Prop :=
  (t.sched = s.sched ∧ t.schedValid = s.schedValid ∧ t.nr = s.nr) ∨
  (∃ k : List Byte, validKeyLen k.length = true ∧ t.sched = storeSchedule (keyExpansion k) ∧ t.schedValid = true ∧
    t.nr = BitVec.ofNat 4 (roundsOfKeyLen k.length)) ∨
  (t.sched = zeroSchedule ∧ t.schedValid = false ∧ t.nr = 0#4)

theorem ScheduleMove.refl (s : State) : ScheduleMove s s := .inl ⟨rfl, rfl, rfl⟩

theorem ScheduleMove.of_block {s t : State} (h : t.block = s.block) : ScheduleMove s t :=
  .inl ⟨congrArg BlockState.sched h, congrArg BlockState.schedValid h, congrArg BlockState.nr h⟩

theorem ScheduleMove.expanded (s : State) {k : List Byte} (hk : validKeyLen k.length = true) :
    ScheduleMove s (s.setSchedule (storeSchedule (keyExpansion k)) true (BitVec.ofNat 4 (roundsOfKeyLen k.length))) :=
  .inr (.inl ⟨k, hk, s.setSchedule_sched .., s.setSchedule_schedValid .., s.setSchedule_nr ..⟩)

theorem ScheduleMove.cleared (s : State) : ScheduleMove s (s.setSchedule zeroSchedule false 0#4) :=
  .inr (.inr ⟨s.setSchedule_sched .., s.setSchedule_schedValid .., s.setSchedule_nr ..⟩)

/-- The move depends on the block of the state it leads to only. -/
theorem ScheduleMove.congr_right {s t u : State} (h : ScheduleMove s t) (hb : u.block = t.block) : ScheduleMove s u := by
  unfold ScheduleMove
  rwa [show u.sched = t.sched from congrArg BlockState.sched hb,
    show u.schedValid = t.schedValid from congrArg BlockState.schedValid hb,
    show u.nr = t.nr from congrArg BlockState.nr hb]

/-- NR of an expanded key is its round count, 10, 12 or 14 (41_key_schedule.md R120). -/
theorem roundsOfKeyLen_cases {n : Nat} (h : validKeyLen n = true) :
    (BitVec.ofNat 4 (roundsOfKeyLen n) = 10#4 ∨ BitVec.ofNat 4 (roundsOfKeyLen n) = 12#4 ∨
      BitVec.ofNat 4 (roundsOfKeyLen n) = 14#4) ∧ (BitVec.ofNat 4 (roundsOfKeyLen n)).toNat = n / 4 + 6 := by
  rcases (validKeyLen_iff n).1 h with rfl | rfl | rfl <;> decide

/-- A schedule in the form of R52 moves to one in that form. -/
theorem State.ScheduleForm.of_move {s t : State} (hs : s.ScheduleForm) (h : ScheduleMove s t) : t.ScheduleForm := by
  rcases h with ⟨hw, hv, hn⟩ | ⟨k, hk, hw, hv, hn⟩ | ⟨hw, hv, hn⟩
  · refine ⟨?_, ?_, ?_⟩ <;> simp only [hw, hv, hn]
    · exact hs.valid_rounds
    · exact hs.valid_tail
    · exact hs.invalid_zero
  · obtain ⟨hr, hnr⟩ := roundsOfKeyLen_cases hk
    refine ⟨fun _ => hn ▸ hr, fun _ i hi hle => ?_, fun hv' => ?_⟩
    · rw [hn, hnr] at hle
      simp only [hw]
      exact storeSchedule_tail k i hi (by omega)
    · rw [hv] at hv'
      contradiction
  · refine ⟨fun hv' => ?_, fun hv' => ?_, fun _ => ⟨hn, hw⟩⟩ <;>
    · rw [hv] at hv'
      contradiction

/-- A schedule that is an expansion moves to an expansion. -/
theorem State.ScheduleOfKey.of_move {s t : State} (hs : s.ScheduleOfKey) (h : ScheduleMove s t) : t.ScheduleOfKey := by
  intro hv'
  rcases h with ⟨hw, hv, hn⟩ | ⟨k, hk, hw, -, hn⟩ | ⟨-, hv, -⟩
  · rw [hw, hn]
    exact hs (hv ▸ hv')
  · exact ⟨k, hk, hw, hn⟩
  · rw [hv] at hv'
    contradiction

/-! ### What a command does -/

/-- What a command may have done to `s` when it ends from `u`, as far as IRQ_EN, memory and the schedule go. -/
structure CommandEffect (s u : State) : Prop where
  irqEn : u.irqEn = s.irqEn
  mem_wf : s.mem.wf → u.mem.wf
  mem_inSpace : s.mem.inSpace → u.mem.inSpace
  schedule : ScheduleMove s u

theorem CommandEffect.of_schedule {s u : State} (hi : u.irqEn = s.irqEn) (hm : u.mem = s.mem)
    (h : ScheduleMove s u) : CommandEffect s u :=
  ⟨hi, fun hs => hm ▸ hs, fun hs => hm ▸ hs, h⟩

theorem CommandEffect.refl (s : State) : CommandEffect s s := .of_schedule rfl rfl (.refl s)

theorem CommandEffect.setSchedule {s : State} {w : Schedule} {valid : Bool} {nr : BitVec 4}
    (h : ScheduleMove s (s.setSchedule w valid nr)) : CommandEffect s (s.setSchedule w valid nr) :=
  .of_schedule rfl rfl h

theorem CommandEffect.setOutLen (s : State) (v : Word) : CommandEffect s (s.setOutLen v) :=
  .of_schedule rfl rfl (.refl s)

theorem CommandEffect.dmaWrite {s u : State} (h : CommandEffect s u) {a : Nat} {b : List Byte}
    (hb : a + b.length ≤ Config.addrSpace) : CommandEffect s (u.dmaWrite a b) where
  irqEn := h.irqEn
  mem_wf hs := Memory.writeRange_wf (h.mem_wf hs) a b
  mem_inSpace hs := Memory.writeRange_inSpace (h.mem_inSpace hs) b hb
  schedule := h.schedule

theorem CommandEffect.havoc {s u : State} (h : CommandEffect s u) {a n : Nat}
    (hn : a + n ≤ Config.addrSpace) : CommandEffect s (u.havoc a n) where
  irqEn := h.irqEn
  mem_wf hs := Memory.havoc_wf _ _ (h.mem_wf hs) n a u.havocDraws
  mem_inSpace hs := Memory.havoc_inSpace _ _ (h.mem_inSpace hs) u.havocDraws hn
  schedule := h.schedule

/-- ERR_CODE takes a code of 60_exceptions.md R191. -/
theorem CommandError.code_le (e : CommandError) : e.code.toNat ≤ 8 := by
  cases e <;> decide

/-- Every end of a command: what it did, then its code, DONE and IDLE (10_state.md R31, 60_exceptions.md R193). -/
def EndsCommand (s t : State) : Prop :=
  ∃ (u : State) (c : BitVec 4), CommandEffect s u ∧ c.toNat ≤ 8 ∧ t = u.finish c

theorem EndsCommand.success {s u : State} (h : CommandEffect s u) : EndsCommand s (u.finish 0#4) :=
  ⟨u, 0#4, h, by decide, rfl⟩

theorem EndsCommand.error {s u : State} (h : CommandEffect s u) (e : CommandError) : EndsCommand s (u.finish e.code) :=
  ⟨u, e.code, h, e.code_le, rfl⟩

theorem storeOutput_endsCommand {s u t : State} {ol : Nat} {out : List Byte} (he : CommandEffect s u)
    (hl : out.length = ol) (hr : u.dstAddr.toNat + ol ≤ Config.addrSpace) (h : storeOutput u ol out = .next t) :
    EndsCommand s t := by
  rcases storeOutput_cases u ol out with ⟨-, h'⟩ | ⟨-, h'⟩
  · cases h'.symm.trans h
    obtain ⟨hi, hwf, hin, hs⟩ := he.dmaWrite (b := out) (hl ▸ hr)
    exact .success ⟨hi, hwf, hin, hs⟩
  · cases h'.symm.trans h
    exact .error (he.havoc hr) .busError

theorem keyBytes_length (s : State) {n : Nat} (h : n ≤ 32) : (keyBytes s n).length = n := by
  simpa [keyBytes] using h

theorem execKeyExpand_endsCommand {s t : State} (h : execKeyExpand s = .next t) : EndsCommand s t := by
  rcases execKeyExpand_cases s with ⟨hk, h'⟩ | ⟨-, h'⟩
  · cases h'.symm.trans h
    have hle : s.keyLen.toNat ≤ 32 := by
      rcases (validKeyLen_iff _).1 hk with h | h | h <;> omega
    have hlen := keyBytes_length s hle
    have hmove := ScheduleMove.expanded s (k := keyBytes s s.keyLen.toNat) (by rwa [hlen])
    rw [hlen] at hmove
    exact .success (.setSchedule hmove)
  · cases h'.symm.trans h
    exact .error (.setSchedule (.cleared s)) .invalidKeyLength

/-- CBC_DECRYPT's plaintext fits in the window it claims (44_cbc.md R175). -/
theorem unpad_cbcDecCore_length {w : Schedule} {nr : Nat} {c pt : List Byte}
    (h : unpad (cbcDecCore w nr c) = some pt) : pt.length ≤ c.length - 16 := by
  have hlt := (unpad_length h).1
  rw [cbcDecCore_length] at hlt
  omega

theorem cbcEncryptWith_endsCommand {v : Block} {s t : State} (h : cbcEncryptWith v s = .next t) : EndsCommand s t := by
  rcases cbcEncryptWith_next h with ⟨-, rfl⟩ | ⟨e, -, -, rfl⟩ | ⟨-, hw, h⟩
  · exact .error (.setOutLen s _) .noSchedule
  · exact .error (.setOutLen s _) e
  · have hdraw : CommandEffect s ((s.setOutLen 0#32).takeDraw v) := .of_schedule rfl rfl (.refl s)
    exact storeOutput_endsCommand hdraw (by rw [cbcEncCore_length, sourceBytes_length]) hw.dst_inRange h

theorem execCbcDecrypt_endsCommand {s t : State} (h : execCbcDecrypt s = .next t) : EndsCommand s t := by
  have hiv (b : Block) : CommandEffect s ((s.setOutLen 0#32).setIv b) := .of_schedule rfl rfl (.refl s)
  rcases execCbcDecrypt_next h with ⟨-, rfl⟩ | ⟨-, -, rfl⟩ | ⟨e, -, -, -, rfl⟩ | ⟨-, -, -, -, rfl⟩ | ⟨pt, -, -, hw, hu, h⟩
  · exact .error (.setOutLen s _) .noSchedule
  · exact .error (.setOutLen s _) .truncatedInput
  · exact .error (.setOutLen s _) e
  · exact .error (hiv _) .invalidPadding
  · have hl := unpad_cbcDecCore_length hu
    rw [sourceBytes_length] at hl
    exact storeOutput_endsCommand (hiv _) rfl (le_trans (Nat.add_le_add_left hl _) hw.dst_inRange) h

/-- Every command that answers a next state ends in one of its ends. -/
theorem exec_endsCommand {i : Instr} {s t : State} (h : exec i s = .next t) : EndsCommand s t := by
  have hdout (b : Block) : CommandEffect s (s.setDout b) := .of_schedule rfl rfl (.refl s)
  cases i with
  | keyExpand => exact execKeyExpand_endsCommand h
  | encBlock =>
    rcases execEncBlock_next h with ⟨-, rfl⟩ | ⟨-, rfl⟩
    · exact .error (.refl s) .noSchedule
    · exact .success (hdout _)
  | decBlock =>
    rcases execDecBlock_next h with ⟨-, rfl⟩ | ⟨-, rfl⟩
    · exact .error (.refl s) .noSchedule
    · exact .success (hdout _)
  | cbcEncrypt => exact cbcEncryptWith_endsCommand h
  | cbcDecrypt => exact execCbcDecrypt_endsCommand h

/-- The engine's turn changes nothing while IDLE and ends the command in progress otherwise (10_state.md R31). -/
theorem engineStep_idle_or_endsCommand {s t : State} (h : engineStep s = .next t) : t = s ∨ EndsCommand s t := by
  rcases engineStep_cases h with ⟨-, rfl⟩ | ⟨w, i, -, -, h⟩ | ⟨w, -, rfl⟩
  · exact .inl rfl
  · exact .inr (exec_endsCommand h)
  · exact .inr (.error (.refl s) .illegalCommand)

/-! ### What a register write, a turn of the host and a reset do -/

/-- Apart from CMD, a register write while IDLE leaves fsm and the outcome of the last command (10_state.md R54). -/
theorem writeReg_cases (r : RegName) (v : Word) (s : State) :
    writeReg r v s = s.startCommand v ∨
    ((writeReg r v s).fsm = s.fsm ∧ (writeReg r v s).done = s.done ∧ (writeReg r v s).errCode = s.errCode) := by
  cases r
  case cmd => exact .inl rfl
  all_goals
    right
    dsimp only [writeReg]
    exact ⟨rfl, rfl, rfl⟩

/-- What RegWrite can do to the flags and to fsm (10_state.md R54): STATUS clears flags; while BUSY another write is
recorded and dropped; while IDLE a command starts, or the outcome of the last one stays. -/
theorem regWrite_cases (off : BitVec 8) (v : Word) (s : State) :
    regWrite off v s = s.clearStatus v ∨
    (s.busy = true ∧ regWrite off v s = s.ignoreWrite) ∨
    (s.busy = false ∧ (regWrite off v s = s.startCommand v ∨
      ((regWrite off v s).fsm = s.fsm ∧ (regWrite off v s).done = s.done ∧
        (regWrite off v s).errCode = s.errCode))) := by
  by_cases ho : off = 0x08#8
  · exact .inl (ho ▸ regWrite_status v s)
  · right
    cases hb : s.busy with
    | true => exact .inl ⟨rfl, regWrite_busy ho hb v⟩
    | false =>
      refine .inr ⟨rfl, ?_⟩
      have hs := (State.busy_eq_false s).1 hb
      cases hd : decodeOffset off with
      | none =>
        rw [regWrite_of_none hd hs]
        exact .inr ⟨rfl, rfl, rfl⟩
      | some r =>
        obtain rfl := eq_offset_of_decodeOffset hd
        rw [regWrite_offset (fun hr => ho (congrArg RegName.offset hr)) hs]
        exact writeReg_cases r v s

/-- What the host's turn does to the block and to memory: it writes bytes of memory, or performs one RegWrite. -/
theorem hostStep_cases {s t : State} (h : hostStep s = .next t) :
    (t.block = s.block ∧ ∃ cs : List Host.Cell, (∀ c ∈ cs, c.1 < Config.addrSpace) ∧ t.mem = s.mem.writeCells cs) ∨
    ∃ off v, t.block = (regWrite off v s).block ∧ t.mem = s.mem := by
  cases hp : s.host.program with
  | nil =>
    cases (hostStep_nil hp).symm.trans h
    exact .inl ⟨rfl, [], by simp, rfl⟩
  | cons o rest =>
    rw [hostStep_cons hp] at h
    obtain ⟨-, -, ⟨hb, hm⟩ | ⟨off, v, hb, hm⟩⟩ := hostOp_cases h
    · exact .inl ⟨hb, hm⟩
    · exact .inr ⟨off, v, hb.trans (regWrite_block_congr (s.setProgram_block rest) off v), hm⟩

/-- A reset abandons nothing, or a DMA window inside the address space (70_reset_and_hazards.md R211). -/
theorem State.abandon_cases (s : State) :
    s.abandon = s ∨ ∃ n, s.dstAddr.toNat + n ≤ Config.addrSpace ∧ s.abandon = s.havoc s.dstAddr.toNat n := by
  unfold State.abandon
  split
  · exact .inl rfl
  · split
    · exact .inr ⟨_, (inRange_iff _ _).1 ‹_›, rfl⟩
    · exact .inl rfl

/-! ### What every step keeps -/

/-- Every step moves the schedule as `ScheduleMove` says. -/
theorem step_scheduleMove {s t : State} (h : step s = .next t) : ScheduleMove s t := by
  rcases step_cases h with ⟨-, h⟩ | ⟨-, h⟩ | ⟨-, rfl⟩
  · rcases hostStep_cases h with ⟨hb, -⟩ | ⟨off, v, hb, -⟩
    · exact .of_block hb
    · exact .congr_right (.inl (regWrite_schedule off v s.dropTurn)) hb
  · rcases engineStep_idle_or_endsCommand h with rfl | ⟨u, c, he, -, rfl⟩
    · exact .refl s
    · exact he.schedule
  · exact .inr (.inr ⟨rfl, rfl, rfl⟩)

/-- Inv speaks of the block and of memory only. -/
theorem State.Inv.of_block {s t : State} (hs : s.Inv) (hb : t.block = s.block) (hwf : t.mem.wf)
    (hin : t.mem.inSpace) : t.Inv where
  mem_wf := hwf
  mem_inSpace := hin
  errCode_produced := by
    rw [show t.errCode = s.errCode from congrArg BlockState.errCode hb]
    exact hs.errCode_produced
  busy_clear := by
    rw [State.busy_eq_true, show t.fsm = s.fsm from congrArg BlockState.fsm hb,
      show t.done = s.done from congrArg BlockState.done hb,
      show t.errCode = s.errCode from congrArg BlockState.errCode hb, ← State.busy_eq_true]
    exact hs.busy_clear
  schedule := hs.schedule.of_move (.of_block hb)

theorem State.Inv.after_regWrite {s : State} (hs : s.Inv) (off : BitVec 8) (v : Word) : (regWrite off v s).Inv := by
  have hm := (regWrite_frame off v s).1
  have hsched := hs.schedule.of_move (.inl (regWrite_schedule off v s))
  suffices (regWrite off v s).errCode.toNat ≤ 8 ∧ ((regWrite off v s).busy = true →
      (regWrite off v s).done = false ∧ (regWrite off v s).errCode = 0#4) from
    ⟨hm ▸ hs.mem_wf, hm ▸ hs.mem_inSpace, this.1, this.2, hsched⟩
  rcases regWrite_cases off v s with h | ⟨-, h⟩ | ⟨hidle, h | ⟨hf, -, hc⟩⟩
  · rw [h]
    refine ⟨hs.errCode_produced, fun hb => ?_⟩
    obtain ⟨hd, hc⟩ := hs.busy_clear hb
    exact ⟨by simp [State.clearStatus, hd], hc⟩
  · rw [h]
    exact ⟨hs.errCode_produced, hs.busy_clear⟩
  · rw [h]
    exact ⟨Nat.zero_le _, fun _ => ⟨rfl, rfl⟩⟩
  · have hb : (regWrite off v s).busy = false := (State.busy_eq_false _).2 (hf.trans ((State.busy_eq_false s).1 hidle))
    rw [hb, hc]
    exact ⟨hs.errCode_produced, fun hb' => by contradiction⟩

theorem State.Inv.after_hostStep {s t : State} (hs : s.Inv) (h : hostStep s = .next t) : t.Inv := by
  rcases hostStep_cases h with ⟨hb, cs, hcs, hm⟩ | ⟨off, v, hb, hm⟩
  · exact hs.of_block hb (hm ▸ Memory.writeCells_wf hs.mem_wf cs) (hm ▸ Memory.writeCells_inSpace hs.mem_inSpace hcs)
  · exact (hs.after_regWrite off v).of_block hb (hm ▸ hs.mem_wf) (hm ▸ hs.mem_inSpace)

theorem State.Inv.after_engineStep {s t : State} (hs : s.Inv) (h : engineStep s = .next t) : t.Inv := by
  rcases engineStep_idle_or_endsCommand h with rfl | ⟨u, c, he, hc, rfl⟩
  · exact hs
  · exact ⟨he.mem_wf hs.mem_wf, he.mem_inSpace hs.mem_inSpace, hc, fun hb => by contradiction,
      hs.schedule.of_move he.schedule⟩

/-- Settles O53: memory has no entries, no command is in progress, and the schedule is in its invalid form (R58). -/
theorem resetStateMeetsInvariant : Obligations.ResetStateMeetsInvariant where
  mem_wf := ⟨.nil, by simp [State.reset]⟩
  mem_inSpace := by simp [State.reset]
  errCode_produced := Nat.zero_le _
  busy_clear h := by contradiction
  schedule := ⟨fun h => by contradiction, fun h => by contradiction, fun _ => ⟨rfl, rfl⟩⟩

theorem State.Inv.after_assertReset {s : State} (hs : s.Inv) : s.assertReset.Inv := by
  suffices s.abandon.mem.wf ∧ s.abandon.mem.inSpace from
    resetStateMeetsInvariant.of_block (assertReset_block s) this.1 this.2
  rcases s.abandon_cases with h | ⟨n, hn, h⟩
  · rw [h]
    exact ⟨hs.mem_wf, hs.mem_inSpace⟩
  · rw [h]
    exact ⟨Memory.havoc_wf _ _ hs.mem_wf _ _ _, Memory.havoc_inSpace _ _ hs.mem_inSpace _ hn⟩

/-- Settles O54: each of the three agents' turns keeps the invariant, and using up a turn changes nothing it
speaks of. -/
theorem stepKeepsInvariant : Obligations.StepKeepsInvariant := by
  intro s t hs h
  have hs' : s.dropTurn.Inv := hs.of_block rfl hs.mem_wf hs.mem_inSpace
  rcases step_cases h with ⟨-, h⟩ | ⟨-, h⟩ | ⟨-, rfl⟩
  · exact hs'.after_hostStep h
  · exact hs'.after_engineStep h
  · exact hs'.after_assertReset

/-- Settles O24: at reset SCHED_VALID is 0, and every step keeps the schedule, expands a key, or clears it. -/
theorem scheduleIsAlwaysAnExpansion : Obligations.ScheduleIsAlwaysAnExpansion :=
  ⟨fun h => by contradiction, fun _ _ hs h => hs.of_move (step_scheduleMove h)⟩

end Sys2Proof.Machine

/-!
The turns of the host and the engine seen from the registers (10_state.md R31, R53, R54, R55): a register access is
answered in one step, a command in fsm is run by the engine's turn, and irq follows DONE and IRQ_EN.
-/
namespace Sys2Proof.Machine

/-! ### The host's register accesses -/

/-- On the host's turn its next access is performed, the turn and the access used up. -/
theorem step_of_hostOp {s : State} {o : HostOp} {rest : List HostOp} (hn : s.nextTurn = .host)
    (hp : s.host.program = o :: rest) : step s = hostOp o (s.dropTurn.setProgram rest) := by
  exact (step_of_host hn).trans (hostStep_cons hp)

@[simp] theorem State.endDuties_program (s : State) : s.endDuties.host.program = s.host.program := by
  unfold State.endDuties; split <;> rfl

@[simp] theorem State.endDuties_responses (s : State) : s.endDuties.host.responses = s.host.responses := by
  unfold State.endDuties; split <;> rfl

@[simp] theorem State.beginDuty_program (s : State) (i : Option Instr) :
    (s.beginDuty i).host.program = s.host.program := by
  unfold State.beginDuty; (repeat' split) <;> rfl

@[simp] theorem State.beginDuty_responses (s : State) (i : Option Instr) :
    (s.beginDuty i).host.responses = s.host.responses := by
  unfold State.beginDuty; (repeat' split) <;> rfl

/-- Settles O12: an accepted read only adds its answer, and a STATUS read may end duties. -/
theorem hostReadAnswersRegRead : Obligations.HostReadAnswersRegRead := by
  intro s off rest hn ho hp
  refine ⟨_, (step_of_hostOp hn hp).trans (hostRead_accepted (s.dropTurn.setProgram rest) ho), ?_⟩
  have hread : regRead off (s.dropTurn.setProgram rest) = regRead off s := regRead_congr (s' := s) rfl off
  rw [hread]
  split
  · simp [State.setProgram]
  · exact ⟨rfl, rfl, rfl, rfl, rfl, rfl⟩

/-- Settles O15: an accepted write performs RegWrite, and what a CMD write does besides is on the host's side. -/
theorem hostWritePerformsRegWrite : Obligations.HostWritePerformsRegWrite := by
  intro s off v rest hn ho hp
  refine ⟨_, (step_of_hostOp hn hp).trans (hostWrite_accepted (s.dropTurn.setProgram rest) v ho), ?_⟩
  have hblock : (regWrite off v (s.dropTurn.setProgram rest)).block = (regWrite off v s).block :=
    regWrite_block_congr (s := s.dropTurn.setProgram rest) (s' := s) rfl off v
  obtain ⟨hmem, hhost, -⟩ := regWrite_frame off v (s.dropTurn.setProgram rest)
  refine ⟨?_, ?_, ?_, ?_⟩
  · simpa using hblock
  · simp [hmem]
  · simp [hhost]
  · simp [hhost]

/-- While BUSY a register write reaches no component but WR_IGNORED and DONE, and sets DONE never (10_state.md R54). -/
theorem regWrite_block_of_busy {s : State} (hb : s.busy = true) (off : BitVec 8) (v : Word) :
    ∃ d i, (regWrite off v s).block = { s.block with done := d, wrIgnored := i } ∧ (d = true → s.done = true) := by
  rcases regWrite_cases off v s with h | ⟨-, h⟩ | ⟨hidle, -⟩
  · rw [h]
    exact ⟨_, _, rfl, fun hd => (Bool.and_eq_true_iff.1 hd).1⟩
  · rw [h]
    exact ⟨_, _, rfl, id⟩
  · rw [hb] at hidle
    contradiction

/-- Settles O19: the host's turn performs at most one RegWrite, which reaches only WR_IGNORED and DONE. -/
theorem hostTurnWhileBusyLeavesRegisters : Obligations.HostTurnWhileBusyLeavesRegisters := by
  intro s t hb hn h
  rw [step_of_host hn] at h
  suffices ∃ d i, t.block = { s.block with done := d, wrIgnored := i } ∧ (d = true → s.done = true) by
    obtain ⟨d, i, ht, hd⟩ := this
    obtain rfl : t.done = d := congrArg BlockState.done ht
    obtain rfl : t.wrIgnored = i := congrArg BlockState.wrIgnored ht
    exact ⟨ht, hd⟩
  rcases hostStep_cases h with ⟨ht, -⟩ | ⟨off, v, ht, -⟩
  · exact ⟨s.done, s.wrIgnored, ht, id⟩
  · obtain ⟨d, i, hr, hd⟩ := regWrite_block_of_busy (s := s.dropTurn) hb off v
    exact ⟨d, i, ht.trans hr, hd⟩

/-! ### The engine's turn -/

/-- The engine's turn with a legal word in fsm runs its command on the state with the turn used up. -/
theorem step_of_engine_ok {s : State} {w : Word} {i : Instr} (hn : s.nextTurn = .engine) (hw : s.fsm = .busy w)
    (hd : decode w = .ok i) : step s = exec i s.dropTurn :=
  (step_of_engine hn).trans (engineStep_ok hw hd)

/-- Settles O5: while BUSY the engine moves next when its turn heads the list or none is listed. -/
theorem stepRunsDecodedCommand : Obligations.StepRunsDecodedCommand := by
  intro s w i hw hd ht
  have hn : s.nextTurn = .engine := by
    rcases ht with ht | ⟨us, ht⟩
    · rw [nextTurn_nil ht, if_pos ((State.busy_eq_true s).2 ⟨w, hw⟩)]
    · exact nextTurn_cons ht
  exact step_of_engine_ok hn hw hd

/-- The decoder reads each command from its word (30_encoding.md R81). -/
theorem decode_encode (i : Instr) : decode (encode i) = .ok i := by
  cases i <;> rfl

/-- Settles O6: placing a word puts it in fsm and the engine's turn first. -/
theorem placedWordRunsNext : Obligations.PlacedWordRunsNext := by
  intro s i
  rw [State.withFetchWord, BitVec.ofNat_toNat, BitVec.setWidth_eq]
  exact step_of_engine_ok (nextTurn_cons rfl) rfl (decode_encode i)

/-! ### The interrupt output (10_state.md R55, 60_exceptions.md R196) -/

/-- Settles O18: a command ends with DONE = 1 and IRQ_EN as it was; a STATUS write of bit 1 and a start clear DONE. -/
theorem interruptFollowsDone : Obligations.InterruptFollowsDone := by
  refine ⟨fun s => rfl, fun i s t h => ?_, fun s v hv => ?_, fun s v hs => ?_⟩
  · obtain ⟨u, c, he, -, rfl⟩ := exec_endsCommand h
    exact (Bool.true_and _).trans he.irqEn
  · rw [regWrite_status]
    simp [State.irq, State.clearStatus, hv]
  · have hstart : regWrite 0x0C#8 v s = s.startCommand v := regWrite_offset (r := .cmd) (by simp) hs v
    rw [hstart]
    rfl

end Sys2Proof.Machine

/-!
Register accesses the port refuses (20_memory.md R61): the answer is a bus error and nothing else changes.
-/
namespace Sys2Proof.Machine

/-- The port refuses every width but 32 bits and every unaligned offset (20_memory.md R61). -/
theorem acceptedAt_eq_false {w : Width} {off : BitVec 8} :
    w.acceptedAt off = false ↔ w ≠ .w32 ∨ off.toNat % 4 ≠ 0 := by
  simp only [Width.acceptedAt, Bool.and_eq_false_iff, beq_eq_false_iff_ne]

theorem hostRead_rejected (s : State) {w : Width} {off : BitVec 8} (h : w.acceptedAt off = false) :
    hostRead w (s.platform.regAddr off) s = .next (s.respond .busError) := by
  unfold hostRead
  rw [windowOffset_regAddr]
  exact if_neg (by simp [h])

theorem hostWrite_rejected (s : State) {w : Width} {off : BitVec 8} (v : Word) (h : w.acceptedAt off = false) :
    hostWrite w (s.platform.regAddr off) v s = .next (s.respond .busError) := by
  unfold hostWrite
  rw [windowOffset_regAddr]
  exact if_neg (by simp [h])

/-- Settles O16: a refused access only adds its answer; an accepted one is a read of O12 or a write of O15. -/
theorem rejectedAccessGetsBusError : Obligations.RejectedAccessGetsBusError := by
  intro s w off v o rest hn ho hp
  refine ⟨fun hrej => ?_, ?_⟩
  · rw [← acceptedAt_eq_false] at hrej
    rw [step_of_hostOp hn hp]
    rcases ho with rfl | rfl
    · exact hostRead_rejected (s.dropTurn.setProgram rest) hrej
    · exact hostWrite_rejected (s.dropTurn.setProgram rest) v hrej
  · rintro rfl hoff t ht
    rcases ho with rfl | rfl
    · obtain ⟨u, hu, hresp, -, hblock, -⟩ := hostReadAnswersRegRead s off rest hn hoff hp
      cases hu.symm.trans ht
      rw [if_pos rfl, if_pos rfl]
      exact ⟨hresp, hblock⟩
    · obtain ⟨u, hu, hblock, -, -, hresp⟩ := hostWritePerformsRegWrite s off v rest hn hoff hp
      cases hu.symm.trans ht
      rw [if_neg (by simp), if_neg (by simp)]
      exact ⟨hresp, hblock⟩

end Sys2Proof.Machine

/-!
The CBC commands' effect on system memory (20_memory.md R62, R65; 44_cbc.md R174, R175): what a failed source read, a
refused write and a completed command leave.
-/
namespace Sys2Proof.Machine

/-! ### The window checks -/

/-- Windows in range with no byte in common and an admitted source pass the checks (20_memory.md R63). -/
theorem State.WindowsOk.of_not_overlaps {s : State} {l ol : Nat} (hsrc : s.srcAddr.toNat + l ≤ 4294967296)
    (hdst : s.dstAddr.toNat + ol ≤ 4294967296) (hov : overlaps s.srcAddr.toNat l s.dstAddr.toNat ol = false)
    (hread : AdmitsAll s.platform .read s.srcAddr.toNat l) : s.WindowsOk l ol where
  src_inRange := hsrc
  dst_inRange := hdst
  apart x h1 h2 h3 h4 := by
    rw [(overlaps_iff ..).2 ⟨x, ⟨h1, h2⟩, h3, h4⟩] at hov
    contradiction
  src_admitted := hread

/-- Windows in range with no byte in common whose source refuses a read end in BUS_ERROR (60_exceptions.md R192). -/
theorem dmaCheck_eq_busError {s : State} {l ol : Nat} (hsrc : s.srcAddr.toNat + l ≤ 4294967296)
    (hdst : s.dstAddr.toNat + ol ≤ 4294967296) (hov : overlaps s.srcAddr.toNat l s.dstAddr.toNat ol = false)
    (hread : ¬ AdmitsAll s.platform .read s.srcAddr.toNat l) : dmaCheck s l ol = some .busError := by
  have hok : readOk s.platform s.srcAddr.toNat l = false :=
    Bool.eq_false_iff.2 fun h => hread ((windowOk_iff ..).1 h)
  simp [dmaCheck, (inRange_iff ..).2 hsrc, (inRange_iff ..).2 hdst, hov, hok]

theorem truncated_eq_false {l : Nat} (h : 16 ≤ l) (hm : (l - 16) % 16 = 0) : truncated l = false :=
  Bool.eq_false_iff.2 fun ht => by
    rcases (truncated_iff l).1 ht with h' | h' <;> omega

/-! ### The output stage -/

/-- What Havoc leaves at each byte of memory (00_scope.md R17). -/
theorem Memory.read_havoc (allow : Nat → Bool) (fresh : Nat → Byte) {m : Memory} (hm : m.wf) (n a k x : Nat) :
    (m.havoc allow fresh n a k).read x =
      if (a ≤ x ∧ x < a + n) ∧ allow x = true then fresh (k + (x - a)) else m.read x := by
  split
  · next h => exact read_havoc_inside allow fresh hm n a k x h.1.1 h.1.2 h.2
  · next h =>
    refine read_havoc_other allow fresh m n a k x ?_
    rcases Classical.not_and_iff_not_or_not.1 h with h | h
    · exact .inl h
    · exact .inr (by simpa using h)

/-- DMA's writes reach the stale bytes only, on the host's side. -/
theorem HostSide.noteDmaWrite_eq (h : HostSide) (p : Platform) (l : List Nat) :
    h.noteDmaWrite p l = { h with stale := (h.noteDmaWrite p l).stale } := by
  unfold HostSide.noteDmaWrite
  split <;> rfl

/-- Of the state, Havoc reaches memory, the stale bytes and the count of free values only. -/
theorem State.havoc_eq (s : State) (a n : Nat) : s.havoc a n = { s with
    mem := (s.havoc a n).mem
    host := { s.host with stale := (s.havoc a n).host.stale }
    havocDraws := s.havocDraws + n } := by
  unfold State.havoc
  congr 1
  exact s.host.noteDmaWrite_eq ..

/-- An output stage that a byte of its window refuses ends in BUS_ERROR: what it leaves, component by component and
byte by byte (20_memory.md R65). -/
theorem storeOutput_refused {s : State} (hwf : s.mem.wf) {ol : Nat} (out : List Byte)
    (h : ¬ AdmitsAll s.platform .write s.dstAddr.toNat ol) :
    ∃ t, storeOutput s ol out = .next t ∧
      t = { s with
        mem := t.mem
        host := { s.host with stale := t.host.stale }
        errCode := 8#4
        done := true
        fsm := .idle
        havocDraws := t.havocDraws } ∧
      ∀ x : Nat, t.mem.read x =
        if (s.dstAddr.toNat ≤ x ∧ x < s.dstAddr.toNat + ol) ∧ memAdmit s.platform .write x = true
        then Config.havocByte (s.havocDraws + (x - s.dstAddr.toNat)) else s.mem.read x := by
  obtain ⟨h', -⟩ | ⟨-, h'⟩ := storeOutput_cases s ol out
  · exact absurd h' h
  · refine ⟨_, h', ?_, fun x => Memory.read_havoc _ _ hwf ..⟩
    rw [State.havoc_eq]
    rfl

/-- Settles O47: a refused source read is the checks' last failure; a refused write is the output stage's Havoc. -/
theorem writeBusErrorHavocsTheWindow : Obligations.WriteBusErrorHavocsTheWindow := by
  intro s i wl hwf hs hi hsrc hdst hov
  refine ⟨fun hread => ?_, fun n hread hn hwrite => ?_⟩
  · have hcheck := dmaCheck_eq_busError hsrc hdst hov hread
    rcases hi with ⟨rfl, rfl⟩ | ⟨rfl, h16, hmod, rfl⟩
    · exact cbcEncryptWith_of_error hs hcheck
    · exact execCbcDecrypt_of_error hs (truncated_eq_false h16 hmod) hcheck
  · have hw := State.WindowsOk.of_not_overlaps hsrc hdst hov hread
    rcases hi with ⟨rfl, rfl⟩ | ⟨rfl, h16, hmod, rfl⟩
    · obtain rfl : n = cipherLen s.len.toNat := by simpa [cipherLen] using hn
      have hexec := cbcEncryptWith_of_windows (v := Config.entropyDraw s.entropyDraws) hs hw
      obtain ⟨t, hstore, ht, hmem⟩ :=
        storeOutput_refused (s := (s.setOutLen 0#32).takeDraw (Config.entropyDraw s.entropyDraws)) hwf
          (cbcEncCore s.sched s.nr.toNat (Config.entropyDraw s.entropyDraws) (sourceBytes s)) hwrite
      refine ⟨t, hexec.trans hstore, ?_, fun _ => ?_, by simp, hmem⟩ <;> rw [ht] <;> rfl
    · obtain ⟨pt, rfl, hpt⟩ : ∃ pt : List Byte, n = pt.length ∧
          unpad (cbcDecCore s.sched s.nr.toNat (sourceBytes s)) = some pt := by simpa using hn
      have hexec := execCbcDecrypt_of_padded hs (truncated_eq_false h16 hmod) hw hpt
      obtain ⟨t, hstore, ht, hmem⟩ :=
        storeOutput_refused (s := (s.setOutLen 0#32).setIv (blockOfList (sourceBytes s))) hwf pt hwrite
      have hiv : t.iv = blockOfList (sourceBytes s) := by rw [ht]; rfl
      refine ⟨t, hexec.trans hstore, ?_, by simp, fun _ j hj => ?_, hmem⟩
      · rw [ht]
        rfl
      · simp [hiv, blockOfList]

end Sys2Proof.Machine

/-!
The host's duty on DMA windows (20_memory.md R66): where a CBC command's CMD write begins it, what it refuses, and
that only a STATUS read with BUSY = 0 ends it.
-/
namespace Sys2Proof.Machine

/-! ### The output window of a CBC command -/

/-- From `s` to `u` memory changed inside the output window [DST_ADDR, DST_ADDR + n) only, and a success wrote exactly
that window (44_cbc.md R174, R175). -/
def StaysInOutputWindow (n : Nat) (s u : State) : Prop :=
  (u.errCode = 0#4 → n = u.outLen.toNat) ∧
  ∀ x : Nat, u.mem.read x ≠ s.mem.read x → s.dstAddr.toNat ≤ x ∧ x < s.dstAddr.toNat + n

theorem CommandError.code_ne_zero (e : CommandError) : e.code ≠ 0#4 := by
  cases e <;> decide

/-- An error before the output stage changes no memory, so it stays in every window. -/
theorem StaysInOutputWindow.of_error (n : Nat) {s v : State} (hm : v.mem = s.mem) (e : CommandError) :
    StaysInOutputWindow n s (v.finish e.code) :=
  ⟨fun h => absurd h e.code_ne_zero, fun x hx => absurd (congrArg (Memory.read · x) hm) hx⟩

theorem storeOutput_staysInOutputWindow {s t : State} {ol : Nat} {out : List Byte} (hl : out.length = ol)
    (hol : ol < 4294967296) (h : storeOutput s ol out = .next t) : StaysInOutputWindow ol s t := by
  rcases storeOutput_cases s ol out with ⟨-, h'⟩ | ⟨-, h'⟩ <;> cases h'.symm.trans h
  · refine ⟨fun _ => (Nat.mod_eq_of_lt hol).symm, fun x => not_imp_comm.1 fun hx => ?_⟩
    exact Memory.read_writeRange_outside _ _ _ _ (hl ▸ hx)
  · refine ⟨fun h => absurd h CommandError.busError.code_ne_zero, fun x => not_imp_comm.1 fun hx => ?_⟩
    exact Memory.read_havoc_other _ _ _ _ _ _ _ (.inl hx)

/-- In windows in range and apart the output is shorter than the address space. -/
theorem State.WindowsOk.cipherLen_lt {s : State} {l : Nat} (h : s.WindowsOk l (cipherLen l)) :
    cipherLen l < 4294967296 := by
  obtain ⟨hsrc, hdst, hapart, -⟩ := h
  have hov : overlaps s.srcAddr.toNat l s.dstAddr.toNat (cipherLen l) = false :=
    Bool.eq_false_iff.2 fun ho => by
      obtain ⟨x, ⟨h1, h2⟩, h3, h4⟩ := (overlaps_iff ..).1 ho
      exact hapart x h1 h2 h3 h4
  simp only [overlaps, Bool.and_eq_false_iff, decide_eq_false_iff_not] at hov
  have hol : cipherLen l = 16 + 16 * (l / 16 + 1) := rfl
  omega

theorem execCbcEncrypt_staysInOutputWindow {s t : State} (h : execCbcEncrypt s = .next t) :
    StaysInOutputWindow (outputLen .cbcEncrypt s) s t := by
  rcases cbcEncryptWith_next h with ⟨-, rfl⟩ | ⟨e, -, -, rfl⟩ | ⟨-, hw, h⟩
  · exact .of_error _ rfl .noSchedule
  · exact .of_error _ rfl e
  · exact storeOutput_staysInOutputWindow (s := (s.setOutLen 0#32).takeDraw _)
      (by rw [cbcEncCore_length, sourceBytes_length]; rfl) hw.cipherLen_lt h

theorem execCbcDecrypt_staysInOutputWindow {s t : State} (h : execCbcDecrypt s = .next t) :
    StaysInOutputWindow (outputLen .cbcDecrypt s) s t := by
  rcases execCbcDecrypt_next h with ⟨-, rfl⟩ | ⟨-, -, rfl⟩ | ⟨e, -, -, -, rfl⟩ | ⟨-, -, -, -, rfl⟩ | ⟨pt, hs, ht, hw, hu, h⟩
  · exact .of_error _ rfl .noSchedule
  · exact .of_error _ rfl .truncatedInput
  · exact .of_error _ rfl e
  · exact .of_error _ rfl .invalidPadding
  · rw [outputLen_cbcDecrypt hs ht hw hu]
    have hl := unpad_cbcDecCore_length hu
    rw [sourceBytes_length] at hl
    exact storeOutput_staysInOutputWindow (s := (s.setOutLen 0#32).setIv _) rfl (by omega) h

/-- A CBC command writes inside its output window. -/
theorem exec_staysInOutputWindow {i : Instr} (hi : Instr.usesDma i = true) {s t : State} (h : exec i s = .next t) :
    StaysInOutputWindow (outputLen i s) s t := by
  cases i with
  | keyExpand | encBlock | decBlock => contradiction
  | cbcEncrypt => exact execCbcEncrypt_staysInOutputWindow h
  | cbcDecrypt => exact execCbcDecrypt_staysInOutputWindow h

/-! ### The CMD write of a CBC command -/

/-- The CMD words that start a CBC command (30_encoding.md R81). -/
theorem decode_cbcWord {w : Word} (h : w = 0x00000004#32 ∨ w = 0x00000005#32) :
    ∃ c, decode w = .ok c ∧ Instr.usesDma c = true ∧ (w = 0x00000004#32 → c = .cbcEncrypt) := by
  rcases h with rfl | rfl
  · exact ⟨.cbcEncrypt, rfl, rfl, fun _ => rfl⟩
  · exact ⟨.cbcDecrypt, rfl, rfl, by decide⟩

/-- The state after a CMD write that started the CBC command `c` from its word `w` (20_memory.md R66, R68). -/
def State.startDma (s : State) (w : Word) (c : Instr) : State :=
  ((s.startCommand w).recordUncleaned.addDuty c).respond .ok

/-- While IDLE a CMD write of a CBC command's word starts it, whatever the host left uncleaned (10_state.md R54). -/
theorem hostOp_cmdWrite {s : State} {w : Word} {c : Instr} (hs : s.fsm = .idle) (hd : decode w = .ok c)
    (hc : Instr.usesDma c = true) :
    hostOp (.write .w32 (s.platform.base + 0x0C#32) w) s = .next (s.startDma w c) := by
  have hstarted : startedCommand s 0x0C#8 w = some c := by
    simp [startedCommand, (State.busy_eq_false s).2 hs, hd, Except.toOption]
  have hreg : regWrite 0x0C#8 w s = s.startCommand w := regWrite_offset (r := .cmd) (by simp) hs w
  refine (hostWrite_accepted s (off := 0x0C#8) w (by decide)).trans ?_
  rw [hstarted, hreg, State.beginDuty_dma _ hc]
  rfl

/-- The same on the host's turn. -/
theorem step_cmdWrite {s : State} {w : Word} {rest : List HostOp} {c : Instr} (hn : s.nextTurn = .host)
    (hs : s.fsm = .idle) (hp : s.host.program = .write .w32 (s.platform.base + 0x0C#32) w :: rest)
    (hd : decode w = .ok c) (hc : Instr.usesDma c = true) :
    step s = .next ((s.dropTurn.setProgram rest).startDma w c) :=
  (step_of_hostOp hn hp).trans (hostOp_cmdWrite (s := s.dropTurn.setProgram rest) hs hd hc)

/-- The duty's output window is the one the command finds when it runs. -/
theorem outputLen_startDma (s : State) (w : Word) (c : Instr) :
    outputLen c (s.startDma w c) = outputLen c (s.startCommand w).recordUncleaned :=
  outputLen_congr rfl rfl rfl rfl c

/-! ### What a duty refuses -/

theorem HostSide.dutyDst_eq_true {h : HostSide} {d : DmaDuty} (hd : d ∈ h.duties) {x : Nat}
    (hx : d.dst ≤ x ∧ x < d.dst + d.dstLen) : h.dutyDst x = true :=
  List.any_eq_true.2 ⟨d, hd, (inWindow_iff ..).2 hx⟩

theorem HostSide.dutySrc_eq_true {h : HostSide} {d : DmaDuty} (hd : d ∈ h.duties) {x : Nat}
    (hx : d.src ≤ x ∧ x < d.src + d.srcLen) : h.dutySrc x = true :=
  List.any_eq_true.2 ⟨d, hd, (inWindow_iff ..).2 hx⟩

theorem hostMemRead_refused {s : State} {a : Addr} (h : s.host.dutyDst a.toNat = true) :
    hostMemRead a s = .refused .dmaDutyBroken := by
  simp [hostMemRead, h]

theorem hostMemWrite_refused {s : State} {a : Addr} (b : Byte)
    (h : s.host.dutyDst a.toNat = true ∨ s.host.dutySrc a.toNat = true) :
    hostMemWrite a b s = .refused .dmaDutyBroken :=
  if_pos (Bool.or_eq_true_iff.2 h)

/-! ### What keeps a duty -/

/-- From `s` to `t` every duty stands, or the host read STATUS with BUSY = 0 (20_memory.md R66). -/
def KeepsDuties (s t : State) : Prop :=
  (∀ d ∈ s.host.duties, d ∈ t.host.duties) ∨
  (s.busy = false ∧ t.host.responses = .data (regRead 0x08#8 s) :: s.host.responses)

theorem KeepsDuties.of_eq {s t : State} (h : t.host.duties = s.host.duties) : KeepsDuties s t :=
  .inl fun _ hd => h ▸ hd

/-- Using up the turn and the access moves no duty, no answer and no register. -/
theorem KeepsDuties.of_setProgram {s t : State} {rest : List HostOp}
    (h : KeepsDuties (s.dropTurn.setProgram rest) t) : KeepsDuties s t :=
  h.imp id fun ⟨hb, hresp⟩ => ⟨hb, by rw [hresp, regRead_congr (s' := s) rfl]; rfl⟩

/-- A STATUS read's answer, and the end of the duties if it shows BUSY = 0. -/
theorem keepsDuties_statusRead (s : State) :
    KeepsDuties s (s.respond (.data (regRead 0x08#8 s))).endDuties := by
  cases hb : s.busy with
  | true => exact .of_eq (by simp [State.endDuties, hb])
  | false => exact .inr ⟨hb, by simp⟩

theorem hostRead_keepsDuties {w : Width} {a : Addr} {s t : State} (h : hostRead w a s = .next t) :
    KeepsDuties s t := by
  unfold hostRead at h
  split at h
  · contradiction
  · next off _ =>
    split at h
    · cases h
      split
      · next hoff =>
        subst hoff
        exact keepsDuties_statusRead s
      · exact .of_eq rfl
    · cases h
      exact .of_eq rfl

/-- A register write adds a duty or none. -/
theorem State.duties_beginDuty (s : State) (i : Option Instr) : ∀ d ∈ s.host.duties, d ∈ (s.beginDuty i).host.duties := by
  intro d hd
  unfold State.beginDuty
  split
  · split
    · exact List.mem_cons_of_mem _ hd
    · exact hd
  · exact hd

theorem hostWrite_keepsDuties {w : Width} {a : Addr} {v : Word} {s t : State} (h : hostWrite w a v s = .next t) :
    KeepsDuties s t := by
  unfold hostWrite at h
  split at h
  · contradiction
  · next off _ =>
    split at h <;> cases h
    · obtain ⟨-, hhost, -⟩ := regWrite_frame off v s
      exact .inl fun d hd => State.duties_beginDuty _ _ d (hhost ▸ hd)
    · exact .of_eq rfl

theorem hostWait_keepsDuties {s t : State} (h : hostWait s = .next t) : KeepsDuties s t := by
  unfold hostWait at h
  rw [hostRead_accepted s (off := 0x08#8) (by decide), if_pos rfl] at h
  cases h
  split <;> exact keepsDuties_statusRead s

theorem HostSide.noteHostWrite_duties (h : HostSide) (p : Platform) (a : Addr) :
    (h.noteHostWrite p a).duties = h.duties := by
  unfold HostSide.noteHostWrite
  split <;> rfl

/-- Of the host's accesses only a read of STATUS with BUSY = 0 ends a duty. -/
theorem hostOp_keepsDuties {o : HostOp} {s t : State} (h : hostOp o s = .next t) : KeepsDuties s t := by
  cases o with
  | write w a v => exact hostWrite_keepsDuties h
  | read w a => exact hostRead_keepsDuties h
  | wait => exact hostWait_keepsDuties h
  | memWrite a b =>
    change hostMemWrite a b s = _ at h
    unfold hostMemWrite at h
    split at h <;> cases h
    exact .of_eq (s.host.noteHostWrite_duties s.platform a)
  | memRead a =>
    change hostMemRead a s = _ at h
    unfold hostMemRead at h
    (repeat' split at h) <;> cases h <;> exact .of_eq rfl
  | cacheClean a n =>
    cases h
    exact .of_eq rfl
  | cacheInvalidate a n =>
    cases h
    exact .of_eq rfl

theorem storeOutput_duties {s t : State} {ol : Nat} {out : List Byte} (h : storeOutput s ol out = .next t) :
    t.host.duties = s.host.duties := by
  rcases storeOutput_cases s ol out with ⟨-, h'⟩ | ⟨-, h'⟩ <;> cases h'.symm.trans h <;> simp

/-- No command ends a duty. -/
theorem exec_duties {i : Instr} {s t : State} (h : exec i s = .next t) : t.host.duties = s.host.duties := by
  cases i with
  | keyExpand => rcases execKeyExpand_cases s with ⟨-, h'⟩ | ⟨-, h'⟩ <;> cases h'.symm.trans h <;> rfl
  | encBlock => rcases execEncBlock_next h with ⟨-, rfl⟩ | ⟨-, rfl⟩ <;> rfl
  | decBlock => rcases execDecBlock_next h with ⟨-, rfl⟩ | ⟨-, rfl⟩ <;> rfl
  | cbcEncrypt =>
    rcases cbcEncryptWith_next h with ⟨-, rfl⟩ | ⟨e, -, -, rfl⟩ | ⟨-, -, h⟩
    · rfl
    · rfl
    · exact storeOutput_duties (s := (s.setOutLen 0#32).takeDraw _) h
  | cbcDecrypt =>
    rcases execCbcDecrypt_next h with ⟨-, rfl⟩ | ⟨-, -, rfl⟩ | ⟨e, -, -, -, rfl⟩ | ⟨-, -, -, -, rfl⟩ | ⟨pt, -, -, -, -, h⟩
    · rfl
    · rfl
    · rfl
    · rfl
    · exact storeOutput_duties (s := (s.setOutLen 0#32).setIv _) h

theorem engineStep_duties {s t : State} (h : engineStep s = .next t) : t.host.duties = s.host.duties := by
  rcases engineStep_cases h with ⟨-, rfl⟩ | ⟨w, i, -, -, h⟩ | ⟨w, -, rfl⟩
  · rfl
  · exact exec_duties h
  · rfl

/-- A reset does not end a duty (R66's own end; log 8). -/
theorem assertReset_duties (s : State) : s.assertReset.host.duties = s.host.duties := by
  change s.abandon.host.duties = s.host.duties
  rcases s.abandon_cases with h | ⟨n, -, h⟩ <;> rw [h]
  simp

/-- Only the host's turn ends a duty, by a STATUS read with BUSY = 0. -/
theorem step_keepsDuties {s t : State} (h : step s = .next t) :
    (∀ d ∈ s.host.duties, d ∈ t.host.duties) ∨ (s.nextTurn = .host ∧ KeepsDuties s t) := by
  rcases step_cases h with ⟨hn, h⟩ | ⟨-, h⟩ | ⟨-, rfl⟩
  · refine .inr ⟨hn, ?_⟩
    cases hp : s.host.program with
    | nil =>
      cases (hostStep_nil (s := s.dropTurn) hp).symm.trans h
      exact .of_eq rfl
    | cons o rest => exact (hostOp_keepsDuties ((hostStep_cons (s := s.dropTurn) hp).symm.trans h)).of_setProgram
  · exact .inl fun d hd => (engineStep_duties h).symm ▸ hd
  · exact .inl fun d hd => (assertReset_duties s.dropTurn).symm ▸ hd

/-- Settles O56: the CMD write's duty is the command's output window; accesses to it are refused; only a STATUS read
with BUSY = 0 ends it. -/
theorem dmaDutyIsEnforced : Obligations.DmaDutyIsEnforced := by
  refine ⟨fun s w rest hn hs hp hw => ?_, fun s d a b hd => ⟨fun hx => ?_, fun hx => ?_⟩, fun s t d hd h hnot => ?_⟩
  · obtain ⟨c, hdec, hc, henc⟩ := decode_cbcWord hw
    refine ⟨_, dutyOf ((s.dropTurn.setProgram rest).startCommand w).recordUncleaned c,
      step_cmdWrite hn hs hp hdec hc, rfl, rfl, rfl, rfl, rfl, fun h4 => ?_, fun u hu => ?_⟩
    · cases henc h4
      rfl
    · rw [engineStep_ok rfl hdec] at hu
      have hwin := exec_staysInOutputWindow hc hu
      rw [outputLen_startDma] at hwin
      exact hwin
  · have hdst := HostSide.dutyDst_eq_true hd hx
    exact ⟨hostMemRead_refused hdst, hostMemWrite_refused b (.inl hdst)⟩
  · exact hostMemWrite_refused b (.inr (HostSide.dutySrc_eq_true hd hx))
  · rcases step_keepsDuties h with hkeep | ⟨hn, hkeep | ⟨hb, hresp⟩⟩
    · exact absurd (hkeep d hd) hnot
    · exact absurd (hkeep d hd) hnot
    · exact ⟨hn, hb, hresp⟩

end Sys2Proof.Machine

/-!
What the host sees of memory after a STATUS read with BUSY = 0, and what cache maintenance does where DMA is not
coherent (20_memory.md R67, R68).
-/
namespace Sys2Proof.Machine

/-! ### With no duty standing -/

theorem HostSide.dutyDst_nil {h : HostSide} (hd : h.duties = []) (x : Nat) : h.dutyDst x = false := by
  rw [HostSide.dutyDst, hd]
  rfl

theorem HostSide.dutySrc_nil {h : HostSide} (hd : h.duties = []) (x : Nat) : h.dutySrc x = false := by
  rw [HostSide.dutySrc, hd]
  rfl

theorem hostMemWrite_settled {s : State} (hd : s.host.duties = []) (a : Addr) (b : Byte) :
    hostMemWrite a b s = .next ((s.hostStore a b).respond .ok) :=
  if_neg (by simp [HostSide.dutyDst_nil hd, HostSide.dutySrc_nil hd])

/-- While IDLE a STATUS read takes every duty away. -/
theorem State.endDuties_idle {s : State} (hs : s.fsm = .idle) :
    s.endDuties = s.setHost { s.host with duties := [] } :=
  if_neg (by simp [(State.busy_eq_false s).2 hs])

theorem State.endDuties_of_nil {s : State} (hd : s.host.duties = []) : s.endDuties = s := by
  unfold State.endDuties
  split
  · rfl
  · rw [← hd]
    rfl

/-! ### Later host reads (20_memory.md R67) -/

/-- No byte reads stale in the host's caches. -/
def State.NothingStale (s : State) : Prop := s.platform.dmaCoherent = true ∨ s.host.stale = []

theorem State.NothingStale.staleAt {s : State} (h : s.NothingStale) (x : Nat) : s.staleAt x = false := by
  rcases h with h | h <;> simp [State.staleAt, h]

theorem State.NothingStale.hostStore {s : State} (h : s.NothingStale) (a : Addr) (b : Byte) :
    (s.hostStore a b).NothingStale := by
  refine h.imp id fun hstale => ?_
  rw [State.hostStore_host, HostSide.noteHostWrite]
  split <;> simp [hstale]

/-- With nothing stale a clean only forgets uncleaned bytes: memory holds them already. -/
theorem hostClean_nothingStale {s : State} (h : s.NothingStale) (a : Addr) (n : Nat) :
    hostClean a n s = .next ((s.setHost
      { s.host with dirty := s.host.dirty.filter fun x => !inWindow a.toNat n x.toNat }).respond .ok) := by
  have hnil : (s.dirtyIn a.toNat n).filter (fun x => s.staleAt x.toNat) = [] := by simp [h.staleAt]
  unfold hostClean
  rw [hnil]
  rfl

/-- What a STATUS read with BUSY = 0 in `s` orders, as it stands in the later state `v`: the registers, byte `a` of
memory, and nothing that hides them from the host (20_memory.md R67). -/
structure Ordered (s : State) (a : Addr) (v : State) : Prop where
  block : v.block = s.block
  byte : v.mem.read a.toNat = s.mem.read a.toNat
  duties : v.host.duties = []
  nothingStale : v.NothingStale

/-- The host's accesses of O57 between the STATUS read and a read of byte `a`. -/
def LeavesByte (a : Addr) (o : HostOp) : Prop :=
  (∃ w b, o = .read w b) ∨ o = .wait ∨ (∃ b, o = .memRead b) ∨ (∃ b n, o = .cacheClean b n) ∨
    ∃ b y, b ≠ a ∧ o = .memWrite b y

theorem Ordered.respond {s v : State} {a : Addr} (h : Ordered s a v) (r : Response) : Ordered s a (v.respond r) :=
  ⟨h.block, h.byte, h.duties, h.nothingStale⟩

theorem Ordered.statusRead {s v : State} {a : Addr} (h : Ordered s a v) (r : Response) :
    Ordered s a (v.respond r).endDuties := by
  rw [State.endDuties_of_nil (s := v.respond r) h.duties]
  exact h.respond r

theorem Ordered.hostRead {s v v' : State} {a b : Addr} {w : Width} (h : Ordered s a v)
    (hv : hostRead w b v = .next v') : Ordered s a v' := by
  unfold Machine.hostRead at hv
  split at hv
  · contradiction
  · split at hv <;> cases hv
    · split
      · exact h.statusRead _
      · exact h.respond _
    · exact h.respond _

theorem Ordered.hostWait {s v v' : State} {a : Addr} (h : Ordered s a v) (hv : hostWait v = .next v') :
    Ordered s a v' := by
  unfold Machine.hostWait at hv
  rw [hostRead_accepted v (off := 0x08#8) (by decide), if_pos rfl] at hv
  cases hv
  obtain ⟨hblock, hbyte, hduties, hstale⟩ := h.statusRead (.data (regRead 0x08#8 v))
  split <;> exact ⟨hblock, hbyte, hduties, hstale⟩

theorem Ordered.hostMemRead {s v : State} {a : Addr} (h : Ordered s a v) (b : Addr) :
    hostMemRead b v = .next (v.respond (.byte (v.mem.read b.toNat))) :=
  hostMemRead_settled (HostSide.dutyDst_nil h.duties _) (h.nothingStale.staleAt _)

theorem Ordered.hostStore {s v : State} {a b : Addr} (h : Ordered s a v) (hb : b ≠ a) (y : Byte) :
    Ordered s a (v.hostStore b y) where
  block := h.block
  byte := (Memory.read_write_other _ _ fun hab => hb (BitVec.eq_of_toNat_eq hab.symm)).trans h.byte
  duties := (HostSide.noteHostWrite_duties ..).trans h.duties
  nothingStale := h.nothingStale.hostStore b y

theorem Ordered.hostOp {s v v' : State} {a : Addr} {o : HostOp} (h : Ordered s a v) (ho : LeavesByte a o)
    (hv : hostOp o v = .next v') : Ordered s a v' := by
  rcases ho with ⟨w, b, rfl⟩ | rfl | ⟨b, rfl⟩ | ⟨b, n, rfl⟩ | ⟨b, y, hb, rfl⟩
  · exact h.hostRead hv
  · exact h.hostWait hv
  · cases (h.hostMemRead b).symm.trans hv
    exact h.respond _
  · cases (hostClean_nothingStale h.nothingStale b n).symm.trans hv
    exact ⟨h.block, h.byte, h.duties, h.nothingStale⟩
  · cases (hostMemWrite_settled h.duties b y).symm.trans hv
    exact (h.hostStore hb y).respond _

theorem hostOps_cons {o : HostOp} {s u : State} (h : hostOp o s = .next u) (ops : List HostOp) :
    hostOps (o :: ops) s = hostOps ops u := by
  rw [Machine.hostOps, h]

theorem hostOps_cons_next {o : HostOp} {ops : List HostOp} {s t : State} (h : hostOps (o :: ops) s = .next t) :
    ∃ u, hostOp o s = .next u ∧ hostOps ops u = .next t := by
  unfold hostOps at h
  split at h
  · exact ⟨_, ‹_›, h⟩
  · contradiction
  · contradiction

theorem Ordered.hostOps {s v v' : State} {a : Addr} {ops : List HostOp} (h : Ordered s a v)
    (hops : ∀ o ∈ ops, LeavesByte a o) (hv : hostOps ops v = .next v') : Ordered s a v' := by
  induction ops generalizing v with
  | nil =>
    cases hv
    exact h
  | cons o ops ih =>
    obtain ⟨u, hu, hv⟩ := hostOps_cons_next hv
    exact ih (h.hostOp (hops o List.mem_cons_self) hu) (fun o' ho' => hops o' (List.mem_cons_of_mem _ ho')) hv

/-- Settles O57: the STATUS read ends the duties, and the later accesses keep the registers, the byte, and that
neither a duty nor a stale byte hides it. -/
theorem statusReadOrdersCompletion : Obligations.StatusReadOrdersCompletion := by
  intro s rest hn hs hp hsettled
  have hstep := (step_of_hostOp hn hp).trans
    (hostRead_accepted (s.dropTurn.setProgram rest) (off := 0x08#8) (by decide))
  rw [if_pos rfl, State.endDuties_idle (by exact hs)] at hstep
  refine ⟨_, hstep, rfl, rfl, by simp, fun a ops v hops hv => ?_⟩
  have hordered : Ordered s a v := by
    refine Ordered.hostOps ?_ hops hv
    exact ⟨by simp, rfl, rfl, hsettled⟩
  refine ⟨regRead_congr hordered.block, _, hordered.hostMemRead a, ?_⟩
  rw [hordered.byte]
  rfl

/-! ### Cache maintenance (20_memory.md R68) -/

/-- DMA's view once a CBC command is started: memory, with a free value at each uncleaned source byte. -/
theorem State.dmaView_startDma {s : State} (hc : s.platform.dmaCoherent = false) (w : Word) (c : Instr) :
    (s.startDma w c).dmaView =
      s.mem.writeCells (freshCells s.cacheDraws (s.dirtyIn s.srcAddr.toNat s.len.toNat)) :=
  if_neg (by simp [State.startDma, hc])

/-- DMA reads memory's byte at a byte that is clean. -/
theorem State.dmaView_startDma_clean {s : State} (hc : s.platform.dmaCoherent = false) (w : Word) (c : Instr) {x : Addr}
    (hx : x ∉ s.host.dirty) : (s.startDma w c).dmaView.read x.toNat = s.mem.read x.toNat := by
  rw [State.dmaView_startDma hc]
  exact read_freshCells_outside _ _ fun h => hx ((State.mem_dirtyIn hc _ _ x).1 h).1

/-- The host sees its own write, which needs cleaning. -/
theorem State.hostStore_caches {s : State} (hc : s.platform.dmaCoherent = false) (x : Addr) (b : Byte) :
    x ∈ (s.hostStore x b).host.dirty ∧ x.toNat ∉ (s.hostStore x b).host.stale := by
  simp [HostSide.noteHostWrite, hc]

/-- A clean over a byte that is not both stale and uncleaned in its window keeps the byte. -/
theorem hostClean_keeps {s : State} (hc : s.platform.dmaCoherent = false) (base : Addr) (n : Nat) :
    ∃ t, hostClean base n s = .next t ∧ t.block = s.block ∧ t.platform = s.platform ∧ t.host.stale = s.host.stale ∧
      (∀ x : Addr, x ∈ t.host.dirty ↔ x ∈ s.host.dirty ∧ ¬ (base.toNat ≤ x.toNat ∧ x.toNat < base.toNat + n)) ∧
      ∀ x : Addr, x.toNat ∉ s.host.stale ∨ x ∉ s.host.dirty ∨ ¬ (base.toNat ≤ x.toNat ∧ x.toNat < base.toNat + n) →
        t.mem.read x.toNat = s.mem.read x.toNat := by
  refine ⟨_, rfl, rfl, rfl, rfl, fun x => ?_, fun x hx => ?_⟩
  · simp [inWindow_eq_false]
  · refine read_freshCells_outside _ _ fun hmem => ?_
    obtain ⟨hdirty, hstale⟩ := List.mem_filter.1 hmem
    obtain ⟨hd, hwin⟩ := (State.mem_dirtyIn hc _ _ x).1 hdirty
    rcases hx with h | h | h
    · exact h ((State.staleAt_iff hc _).1 hstale)
    · exact h hd
    · exact h hwin

/-- With no duty standing, an invalidate over a byte DMA wrote shows memory's byte to the host, also where the host had
written it before. -/
theorem hostInvalidate_settles {s : State} (hc : s.platform.dmaCoherent = false) (hd : s.host.duties = [])
    {x : Addr} (hx : x.toNat ∈ s.host.stale) {base : Addr} {n : Nat}
    (hwin : base.toNat ≤ x.toNat ∧ x.toNat < base.toNat + n) :
    ∃ t, hostInvalidate base n s = .next t ∧ t.host.duties = [] ∧ t.staleAt x.toNat = false ∧
      t.mem.read x.toNat = s.mem.read x.toNat := by
  refine ⟨_, rfl, hd, ?_, ?_⟩
  · simp [State.staleAt, HostSide.settledBy, HostSide.dutyDst_nil hd, (inWindow_iff ..).2 hwin]
  · refine read_freshCells_outside _ _ fun hmem => ?_
    have hstale := (List.mem_filter.1 hmem).2
    simp [(State.staleAt_iff hc _).2 hx] at hstale

/-- The bytes DMA wrote are stale in the host's caches. -/
theorem State.stale_dmaWrite {s : State} (hc : s.platform.dmaCoherent = false) {a x : Nat} {b : List Byte}
    (h1 : a ≤ x) (h2 : x < a + b.length) : x ∈ (s.dmaWrite a b).host.stale :=
  (HostSide.mem_noteDmaWrite hc ..).2 (.inl (by simp [h1, h2]))

/-- After a write and a clean of a byte, a CBC command's DMA reads the byte written. -/
theorem write_clean_start {s : State} (hwf : s.mem.wf) (hc : s.platform.dmaCoherent = false) (hd : s.host.duties = [])
    (hs : s.fsm = .idle) {x base : Addr} {n : Nat} (hwin : base.toNat ≤ x.toNat ∧ x.toNat < base.toNat + n) (b : Byte)
    {w : Word} {c : Instr} (hdec : decode w = .ok c) (hcbc : Instr.usesDma c = true) :
    ∃ t, hostOps [.memWrite x b, .cacheClean base n, .write .w32 (s.platform.base + 0x0C#32) w] s = .next t ∧
      t.fsm = .busy w ∧ t.dmaView.read x.toNat = b := by
  have hwrite : hostOp (.memWrite x b) s = .next ((s.hostStore x b).respond .ok) := hostMemWrite_settled hd x b
  have hstale := (State.hostStore_caches hc x b).2
  obtain ⟨u, hclean, hblock, hplat, -, hdirty, hkeep⟩ :=
    hostClean_keeps (s := (s.hostStore x b).respond .ok) hc base n
  have hidle : u.fsm = .idle := (congrArg BlockState.fsm hblock).trans hs
  have hstart := hostOp_cmdWrite hidle hdec hcbc
  rw [hplat] at hstart
  refine ⟨u.startDma w c, ?_, rfl, ?_⟩
  · exact (hostOps_cons hwrite _).trans ((hostOps_cons (o := .cacheClean base n) hclean _).trans (hostOps_cons hstart _))
  · rw [State.dmaView_startDma_clean (hplat ▸ hc) w c fun hx => ((hdirty x).1 hx).2 hwin, hkeep x (.inl hstale)]
    exact Memory.read_write_same hwf _ _

/-- Settles O58: each clause is one access's rule, and the last is a write, a clean and a CMD write in turn. -/
theorem nonCoherentDmaNeedsMaintenance : Obligations.NonCoherentDmaNeedsMaintenance := by
  refine ⟨fun s => ⟨sourceBytes_length s, fun i hi => sourceBytes_getD s hi, State.dmaView_coherent⟩,
    fun s w rest hwf hc hn hs hp hw => ?_, fun s x hc hd hx => ?_,
    fun s a b x base n hwf hc hd h1 h2 h3 h4 => ?_, fun s x b hwf hc hd => ?_, fun s base n hc hd => ?_,
    fun s x base b n w hwf hc hd hs h1 h2 hw => ?_⟩
  · obtain ⟨c, hdec, hcbc, -⟩ := decode_cbcWord hw
    refine ⟨_, step_cmdWrite hn hs hp hdec hcbc, rfl, rfl, fun x => ⟨fun hx => ?_, fun hx => ?_⟩⟩
    · rw [State.dmaView_startDma (s := s.dropTurn.setProgram rest) hc]
      obtain ⟨k, hk, hk', hread⟩ := read_freshCells_inside hwf s.cacheDraws ((State.mem_dirtyIn hc _ _ x).2 hx)
      exact ⟨k, hk, hk', hread⟩
    · exact State.dmaView_startDma_clean (s := s.dropTurn.setProgram rest) hc w c hx
  · exact ⟨_, hostMemRead_stale (HostSide.dutyDst_nil hd _) ((State.staleAt_iff hc _).2 hx), rfl, rfl, rfl⟩
  · obtain ⟨t, ht, hduties, hfresh, hread⟩ :=
      hostInvalidate_settles (s := s.dmaWrite a b) hc (by simpa using hd) (State.stale_dmaWrite hc h1 h2) ⟨h3, h4⟩
    refine ⟨t, _, ht, hostMemRead_settled (HostSide.dutyDst_nil hduties _) hfresh, ?_⟩
    have hin := Memory.read_writeRange_inside hwf a (x.toNat - a) b (by omega)
    rw [Nat.add_sub_cancel' h1] at hin
    have hbyte : t.mem.read x.toNat = b.getD (x.toNat - a) 0#8 :=
      (hread.trans hin).trans (List.getD_eq_getElem _ _ _).symm
    rw [hbyte]
    rfl
  · obtain ⟨hdirty, hstale⟩ := State.hostStore_caches hc x b
    exact ⟨_, hostMemWrite_settled hd x b, rfl, hdirty, hstale, fun y => Memory.read_write hwf ..⟩
  · obtain ⟨t, ht, hblock, -, hstale, hdirty, hread⟩ := hostClean_keeps hc base n
    exact ⟨t, ht, hblock, hstale, hdirty, hread⟩
  · obtain ⟨c, hdec, hcbc, -⟩ := decode_cbcWord hw
    exact write_clean_start hwf hc hd hs ⟨h1, h2⟩ b hdec hcbc

end Sys2Proof.Machine

/-!
Command words (30_encoding.md R80, R81, R84): which words the decoder reads as commands, and what the engine's turn
does with every other word.
-/
namespace Sys2Proof.Machine

/-- A command word is RSVD followed by OP (30_encoding.md R80). -/
theorem word_toNat_eq_fields (w : Word) : w.toNat = 16 * (rsvdField w).toNat + (opField w).toNat := by
  simp only [rsvdField, opField, BitVec.extractLsb'_toNat, Nat.shiftRight_eq_div_pow]
  omega

/-- The decoder reads a command from its own word and from no other (30_encoding.md R81). -/
theorem decode_eq_ok_iff {w : Word} {i : Instr} : decode w = .ok i ↔ encode i = w := by
  refine ⟨fun h => ?_, fun h => h ▸ decode_encode i⟩
  unfold decode at h
  split at h
  · contradiction
  · next hrsvd =>
    have hw : w.toNat = (opField w).toNat := by simpa [not_not.1 hrsvd] using word_toNat_eq_fields w
    refine BitVec.eq_of_toNat_eq (Eq.trans ?_ hw.symm)
    split at h <;> cases h
    all_goals next hop => exact hop.symm

/-- Settles O1: five words are the commands' own, and the others have a reserved bit or no command's opcode. -/
theorem decodeSampleWords : Obligations.DecodeSampleWords :=
  ⟨decode_encode .keyExpand, decode_encode .encBlock, decode_encode .decBlock, decode_encode .cbcEncrypt,
    decode_encode .cbcDecrypt, rfl, rfl, rfl, rfl⟩

/-- Settles O2: a word decodes to a command exactly when the encoder gives it, and R81's words are the encoder's. -/
theorem decodeReadsExactlyTheTableWords : Obligations.DecodeReadsExactlyTheTableWords := by
  intro w i
  refine ⟨?_, decode_eq_ok_iff⟩
  rw [decode_eq_ok_iff, eq_comm]
  cases i <;> rfl

/-- A command's word has no reserved bit and an opcode from 1 to 5 (30_encoding.md R81). -/
theorem encode_fields (i : Instr) :
    rsvdField (encode i) = 0#28 ∧ opField (encode i) ≠ 0#4 ∧ (opField (encode i)).toNat < 6 := by
  cases i <;> decide

/-- A word with a reserved bit or an opcode outside 1 .. 5 decodes to no command (30_encoding.md R84). -/
theorem decode_eq_error {w : Word} (h : rsvdField w ≠ 0#28 ∨ opField w = 0#4 ∨ 6 ≤ (opField w).toNat) :
    ∃ e, decode w = .error e := by
  cases hd : decode w with
  | error e => exact ⟨e, rfl⟩
  | ok i =>
    obtain rfl := decode_eq_ok_iff.1 hd
    obtain ⟨hrsvd, hzero, hlt⟩ := encode_fields i
    rcases h with h | h | h
    · exact absurd hrsvd h
    · exact absurd h hzero
    · exact absurd hlt (Nat.not_lt.2 h)

/-- Settles O7: an illegal word decodes to no command, and the engine's turn then raises ILLEGAL_COMMAND. -/
theorem illegalWordOnlyReports : Obligations.IllegalWordOnlyReports := by
  intro s w hw h
  obtain ⟨e, he⟩ := decode_eq_error (w := w) h
  exact engineStep_illegal hw he

end Sys2Proof.Machine

/-!
The host's lines (30_encoding.md R86, R87): the accesses they stand for, and one poll of WAIT.
-/
namespace Sys2Proof.Machine

/-- One poll of WAIT answers STATUS as a STATUS read does, and stays in the program while BUSY reads 1
(30_encoding.md R87). -/
theorem hostWait_eq (s : State) : hostWait s = .next
    (if (regRead 0x08#8 s).getLsbD 0
      then (s.respond (.data (regRead 0x08#8 s))).endDuties.setProgram (.wait :: s.host.program)
      else (s.respond (.data (regRead 0x08#8 s))).endDuties) := by
  have hstatus : regRead 0x08#8 s = s.statusWord := regRead_offset .status s
  unfold hostWait
  rw [hostRead_accepted s (off := 0x08#8) (by decide), if_pos rfl]
  simp [hstatus]

/-- A poll of WAIT leaves the block and memory alone and adds its answer; the program keeps WAIT at its head exactly
while BUSY reads 1. -/
theorem hostWait_polls_status (s : State) :
    ∃ t, hostWait s = .next t ∧ t.block = s.block ∧ t.mem = s.mem ∧
      t.host.responses = .data (regRead 0x08#8 s) :: s.host.responses ∧
      t.host.program = if (regRead 0x08#8 s).getLsbD 0 then .wait :: s.host.program else s.host.program := by
  refine ⟨_, hostWait_eq s, ?_⟩
  split <;> simp [State.setProgram]

/-- Settles O4: a line's expansion is the access at BASE and its offset, each register's offset names it, and WAIT
polls STATUS. -/
theorem hostNotationExpands : Obligations.HostNotationExpands :=
  ⟨decodeOffset_offset, fun _ _ _ _ => ⟨rfl, rfl, rfl, rfl⟩,
    fun _ s => ⟨rfl, rfl, rfl, rfl, rfl, rfl, rfl, hostWait_polls_status s⟩⟩

end Sys2Proof.Machine

/-!
The commands' frames (30_encoding.md R83): what each command that answers a next state leaves unchanged.
-/
namespace Sys2Proof.Machine

/-! ### The register commands -/

/-- KEY_EXPAND sets the schedule and ends, in success and in failure (41_key_schedule.md R125). -/
theorem execKeyExpand_next {s t : State} (h : execKeyExpand s = .next t) :
    ∃ w valid nr c, t = (s.setSchedule w valid nr).finish c := by
  rcases execKeyExpand_cases s with ⟨-, h'⟩ | ⟨-, h'⟩ <;> cases h'.symm.trans h <;> exact ⟨_, _, _, _, rfl⟩

/-- A block command ends in an error with nothing written, or sets DOUT and succeeds (42_block_cipher.md R151, R152). -/
theorem exec_blockCommand_next {i : Instr} (hi : i = .encBlock ∨ i = .decBlock) {s t : State} (h : exec i s = .next t) :
    (∃ e : CommandError, t = s.finish e.code) ∨ ∃ b, t = (s.setDout b).finish 0#4 := by
  rcases hi with rfl | rfl
  · rcases execEncBlock_next h with ⟨-, ht⟩ | ⟨-, ht⟩
    · exact .inl ⟨_, ht⟩
    · exact .inr ⟨_, ht⟩
  · rcases execDecBlock_next h with ⟨-, ht⟩ | ⟨-, ht⟩
    · exact .inl ⟨_, ht⟩
    · exact .inr ⟨_, ht⟩

/-- Settles O50: KEY_EXPAND writes the schedule, a successful block command DOUT, and then the command ends. -/
theorem registerCommandsFrame : Obligations.RegisterCommandsFrame := by
  intro s t i hi h
  rcases hi with rfl | hi
  · obtain ⟨w, valid, nr, c, rfl⟩ := execKeyExpand_next h
    exact ⟨rfl, fun hk => absurd rfl hk, fun _ => rfl, fun _ => rfl⟩
  · rcases exec_blockCommand_next hi h with ⟨e, rfl⟩ | ⟨b, rfl⟩
    · exact ⟨rfl, fun _ => ⟨rfl, rfl, rfl⟩, fun _ => rfl, fun _ => rfl⟩
    · refine ⟨rfl, fun _ => ⟨rfl, rfl, rfl⟩, fun hc => ?_, fun _ => rfl⟩
      rcases hc with rfl | hc
      · exact absurd hi (by decide)
      · exact absurd rfl hc

/-! ### The CBC commands -/

/-- From `s` to `t` only memory, the host's stale bytes, IV, OUT_LEN, ERR_CODE, DONE, fsm and the counters of the free
values have changed. -/
def ChangesOnlyCbcResults (s t : State) : Prop :=
  t = { s with
    mem := t.mem
    host := { s.host with stale := t.host.stale }
    iv := t.iv
    outLen := t.outLen
    errCode := t.errCode
    done := t.done
    fsm := t.fsm
    entropyDraws := t.entropyDraws
    havocDraws := t.havocDraws }

/-- Of the state, a DMA write reaches memory and the stale bytes only. -/
theorem State.dmaWrite_eq (s : State) (a : Nat) (b : List Byte) : s.dmaWrite a b = { s with
    mem := (s.dmaWrite a b).mem
    host := { s.host with stale := (s.dmaWrite a b).host.stale } } := by
  unfold State.dmaWrite
  congr 1
  exact s.host.noteDmaWrite_eq ..

theorem storeOutput_changesOnlyCbcResults {s t : State} {ol : Nat} {out : List Byte}
    (h : storeOutput s ol out = .next t) : ChangesOnlyCbcResults s t := by
  rcases storeOutput_cases s ol out with ⟨-, h'⟩ | ⟨-, h'⟩ <;> cases h'.symm.trans h
  · rw [State.dmaWrite_eq]
    rfl
  · rw [State.havoc_eq]
    rfl

theorem execCbcEncrypt_changesOnlyCbcResults {s t : State} (h : execCbcEncrypt s = .next t) :
    ChangesOnlyCbcResults s t := by
  rcases cbcEncryptWith_next h with ⟨-, rfl⟩ | ⟨e, -, -, rfl⟩ | ⟨-, -, h⟩
  · rfl
  · rfl
  · have ht : ChangesOnlyCbcResults ((s.setOutLen 0#32).takeDraw _) t := storeOutput_changesOnlyCbcResults h
    exact ht

theorem execCbcDecrypt_changesOnlyCbcResults {s t : State} (h : execCbcDecrypt s = .next t) :
    ChangesOnlyCbcResults s t := by
  rcases execCbcDecrypt_next h with ⟨-, rfl⟩ | ⟨-, -, rfl⟩ | ⟨e, -, -, -, rfl⟩ | ⟨-, -, -, -, rfl⟩ | ⟨pt, -, -, -, -, h⟩
  · rfl
  · rfl
  · rfl
  · rfl
  · have ht : ChangesOnlyCbcResults ((s.setOutLen 0#32).setIv _) t := storeOutput_changesOnlyCbcResults h
    exact ht

/-- CBC_DECRYPT's output window is no longer than the unpadded plaintext: it is empty where a check fails. -/
theorem outputLen_cbcDecrypt_le (s : State) :
    outputLen .cbcDecrypt s ≤ ((unpad (cbcDecCore s.sched s.nr.toNat (sourceBytes s))).getD []).length := by
  unfold outputLen
  dsimp only
  split
  · exact le_rfl
  · exact Nat.zero_le _

/-- A byte outside a window at least as long as the output window reads as before. -/
theorem StaysInOutputWindow.read_outside {m n : Nat} {s t : State} (h : StaysInOutputWindow m s t) (hmn : m ≤ n)
    {x : Nat} (hx : ¬ (s.dstAddr.toNat ≤ x ∧ x < s.dstAddr.toNat + n)) : t.mem.read x = s.mem.read x := by
  by_contra hne
  obtain ⟨hle, hlt⟩ := h.2 x hne
  exact hx ⟨hle, by omega⟩

/-- Settles O51: each end of a CBC command changes its results only, and writes in its output window only. -/
theorem cbcCommandsFrame : Obligations.CbcCommandsFrame := by
  intro s t i hi h
  obtain ⟨hdone, hfsm⟩ := exec_done h
  rcases hi with rfl | rfl
  · have hframe := execCbcEncrypt_changesOnlyCbcResults h
    rw [ChangesOnlyCbcResults, hdone, hfsm] at hframe
    exact ⟨hframe, fun _ x => (execCbcEncrypt_staysInOutputWindow h).read_outside le_rfl, fun hne => by contradiction⟩
  · have hframe := execCbcDecrypt_changesOnlyCbcResults h
    rw [ChangesOnlyCbcResults, hdone, hfsm] at hframe
    exact ⟨hframe, fun hne => by contradiction,
      fun _ x => (execCbcDecrypt_staysInOutputWindow h).read_outside (outputLen_cbcDecrypt_le s)⟩

end Sys2Proof.Machine

/-!
The field and the S-box (40_field_and_sbox.md R104-R109): gmul's laws, the inverse, and what the tables say of them.
-/
namespace Sys2Proof.Machine

/-! ### Multiplication (R104) -/

/-- A map of bytes that respects xor and multiplication by x. -/
structure XLinear (f : Byte → Byte) : Prop where
  map_xor : ∀ a b, f (a ^^^ b) = f a ^^^ f b
  map_xtime : ∀ a, f (xtime a) = xtime (f a)

theorem XLinear.map_zero {f : Byte → Byte} (hf : XLinear f) : f 0#8 = 0#8 := by
  simpa using hf.map_xor 0#8 0#8

theorem XLinear.map_gmulLoop {f : Byte → Byte} (hf : XLinear f) (b : Byte) (n i : Nat) (a r : Byte) :
    f (gmulLoop b n i a r) = gmulLoop b n i (f a) (f r) := by
  induction n generalizing i a r with
  | zero => rfl
  | succ n ih => rw [gmulLoop, ih, gmulLoop, hf.map_xtime, apply_ite f, hf.map_xor]

/-- gmul uses its left factor only through xor and xtime, so a map that respects both passes into it. The laws of R104
follow from this for two such maps: xtime, and multiplication by a fixed byte. -/
theorem XLinear.map_gmul {f : Byte → Byte} (hf : XLinear f) (a b : Byte) : f (gmul a b) = gmul (f a) b := by
  rw [gmul, hf.map_gmulLoop, hf.map_zero, gmul]

theorem xLinear_xtime : XLinear xtime := ⟨xtime_xor, fun _ => rfl⟩

theorem xLinear_gmul_left (b : Byte) : XLinear (gmul · b) :=
  ⟨fun a a' => gmul_xor_left a a' b, fun a => (xLinear_xtime.map_gmul a b).symm⟩

@[simp] theorem gmul_zero_left (b : Byte) : gmul 0#8 b = 0#8 := (xLinear_gmul_left b).map_zero

@[simp] theorem gmul_one_left : ∀ b : Byte, gmul 1#8 b = b := by decide +kernel

theorem gmul_right_comm (a b c : Byte) : gmul (gmul a b) c = gmul (gmul a c) b :=
  (xLinear_gmul_left c).map_gmul a b

theorem gmul_comm (a b : Byte) : gmul a b = gmul b a := by
  simpa using gmul_right_comm 1#8 a b

theorem gmul_assoc (a b c : Byte) : gmul (gmul a b) c = gmul a (gmul b c) :=
  calc gmul (gmul a b) c = gmul (gmul b a) c := by rw [gmul_comm a b]
    _ = gmul (gmul b c) a := gmul_right_comm b a c
    _ = gmul a (gmul b c) := gmul_comm _ _

theorem gmul_xor_right (a b c : Byte) : gmul a (b ^^^ c) = gmul a b ^^^ gmul a c := by
  rw [gmul_comm, gmul_xor_left, gmul_comm b, gmul_comm c]

@[simp] theorem gmul_one_right (a : Byte) : gmul a 1#8 = a := by rw [gmul_comm, gmul_one_left]

@[simp] theorem gmul_zero_right (a : Byte) : gmul a 0#8 = 0#8 := by rw [gmul_comm, gmul_zero_left]

/-- Settles O30: products by one byte pass into products by another, and from that all the laws. -/
theorem fieldMultiplicationLaws : Obligations.FieldMultiplicationLaws := fun a b c =>
  ⟨gmul_comm a b, gmul_assoc a b c, gmul_xor_right a b c, gmul_one_right a, gmul_zero_right a⟩

/-! ### The tables (R107-R109) -/

/-- Settles O27, entry by entry: it says of two tables of 256 bytes that they agree. -/
theorem sboxTablesInvertEachOther : Obligations.SboxTablesInvertEachOther := by
  unfold Obligations.SboxTablesInvertEachOther
  decide +kernel

/-- R106's affine map backwards: bit i is s[i+2] xor s[i+5] xor s[i+7] xor bit i of 0x05, indices mod 8. -/
def affinePreimage (s : Byte) : Byte := s.rotateLeft 1 ^^^ s.rotateLeft 3 ^^^ s.rotateLeft 6 ^^^ 0x05#8

theorem affineBit_affinePreimage : ∀ s : Byte, ∀ i < 8, affineBit (affinePreimage s) i = s.getLsbD i := by
  decide +kernel

/-- The SBOX table holds an inverse of each nonzero byte, under the affine map. -/
theorem gmul_affinePreimage_sbox : ∀ x : Byte, x ≠ 0#8 → gmul x (affinePreimage (sbox x)) = 1#8 := by
  decide +kernel

/-! ### The inverse (R105, R106) -/

theorem mem_allBytes (c : Byte) : c ∈ (List.range 256).map (BitVec.ofNat 8) :=
  List.mem_map.2 ⟨c.toNat, List.mem_range.2 c.isLt, by simp⟩

theorem eq_of_gmul_eq_one {a c d : Byte} (hc : gmul a c = 1#8) (hd : gmul a d = 1#8) : c = d :=
  calc c = gmul (gmul a d) c := by rw [hd, gmul_one_left]
    _ = gmul (gmul a c) d := gmul_right_comm a d c
    _ = d := by rw [hc, gmul_one_left]

theorem gfInv_zero : gfInv 0#8 = 0#8 := by
  unfold gfInv
  rw [List.find?_eq_none.2 (by simp), Option.getD_none]

/-- gfInv's search ends at some inverse, and there is only one. -/
theorem gfInv_eq_of_gmul_eq_one {a c : Byte} (h : gmul a c = 1#8) : gfInv a = c := by
  unfold gfInv
  cases hfind : ((List.range 256).map (BitVec.ofNat 8)).find? fun c => gmul a c == 1#8 with
  | none => exact absurd (List.find?_eq_none.1 hfind c (mem_allBytes c)) (by simp [h])
  | some d => exact eq_of_gmul_eq_one (by simpa using List.find?_some hfind) h

theorem gfInv_eq_affinePreimage_sbox (x : Byte) : gfInv x = affinePreimage (sbox x) := by
  by_cases hx : x = 0#8
  · subst hx
    exact gfInv_zero.trans (by decide)
  · exact gfInv_eq_of_gmul_eq_one (gmul_affinePreimage_sbox x hx)

/-- Settles O29: an inverse exists, as the SBOX table holds it, and associativity makes it the only one. -/
theorem fieldInverseIsUnique : Obligations.FieldInverseIsUnique := by
  refine ⟨gfInv_zero, fun a ha => ⟨?_, fun c hc => (gfInv_eq_of_gmul_eq_one hc).symm⟩⟩
  rw [gfInv_eq_affinePreimage_sbox]
  exact gmul_affinePreimage_sbox a ha

theorem affineBit_gfInv (x : Byte) {i : Nat} (hi : i < 8) : affineBit (gfInv x) i = (sbox x).getLsbD i := by
  rw [gfInv_eq_affinePreimage_sbox]
  exact affineBit_affinePreimage _ i hi

/-- Settles O28: inv(x) is what R106's map takes to SBOX(x). -/
theorem sboxIsAffineOfInverse : Obligations.SboxIsAffineOfInverse := by
  intro x i hi b
  rw [← affineBit_gfInv x hi, affineBit]
  simp only [b, Bool.xor_assoc]

end Sys2Proof.Machine

/-!
The key schedule (41_key_schedule.md R121-R127): the words' recurrence, what KEY_EXPAND stores, what it reads, and which
steps touch the schedule.
-/
namespace Sys2Proof.Machine

/-! ### The round constants and the round keys (R122, R124) -/

theorem rcByte_eq_xtime {j : Nat} (h : 2 ≤ j) : rcByte j = xtime (rcByte (j - 1)) := by
  obtain ⟨n, rfl⟩ := Nat.exists_eq_add_of_le' h
  rfl

/-- Settles O26: the table's ten constants by evaluation, the recurrence from rcByte's own. -/
theorem roundConstants : Obligations.RoundConstants :=
  ⟨by decide, fun _ => rcByte_eq_xtime⟩

/-- Settles O25: up to r = 14 every word of a round key lies inside the storage. -/
theorem roundKeyIsFourWords : Obligations.RoundKeyIsFourWords :=
  fun w _ _ _ _ hc hi => roundKey_getElem w hc hi (by omega)

/-! ### The expanded words (R121, R123) -/

/-- The word that one step of the expansion appends (R123). -/
def nextScheduleWord (nk : Nat) (w : List SWord) : SWord :=
  xorWord (w.getD (w.length - nk) zeroWord) (scheduleMix nk w.length (w.getD (w.length - 1) zeroWord))

theorem extendSchedule_succ (nk n : Nat) (w : List SWord) :
    extendSchedule nk (n + 1) w = extendSchedule nk n (w ++ [nextScheduleWord nk w]) := rfl

/-- The first word an extension appends stays in its place. -/
theorem extendSchedule_succ_getD_length (nk n : Nat) (w : List SWord) :
    (extendSchedule nk (n + 1) w).getD w.length zeroWord = nextScheduleWord nk w := by
  rw [extendSchedule_succ, extendSchedule_prefix _ _ _ _ (by simp)]
  simp

/-- Every word an extension appends follows R123's recurrence within the extended schedule. -/
theorem extendSchedule_getD {nk i : Nat} (hnk : 0 < nk) (n : Nat) (w : List SWord) (hw : nk ≤ w.length)
    (hi : w.length ≤ i) (hlt : i < w.length + n) :
    (extendSchedule nk n w).getD i zeroWord = xorWord ((extendSchedule nk n w).getD (i - nk) zeroWord)
      (scheduleMix nk i ((extendSchedule nk n w).getD (i - 1) zeroWord)) := by
  induction n generalizing w with
  | zero => omega
  | succ n ih =>
    rcases hi.eq_or_lt with rfl | hi
    · have hprefix {j : Nat} (hj : j < w.length) :
          (extendSchedule nk (n + 1) w).getD j zeroWord = w.getD j zeroWord := extendSchedule_prefix nk (n + 1) w j hj
      rw [extendSchedule_succ_getD_length, hprefix (by omega), hprefix (by omega), nextScheduleWord]
    · rw [extendSchedule_succ]
      exact ih _ (by simp; omega) (by simpa using hi) (by simp; omega)

/-- Byte b of word i of the root key is byte 4i+b of the key (R123). -/
theorem keyWords_getD_getElem (k : List Byte) {nk i b : Nat} (hi : i < nk) (hb : b < 4) :
    ((keyWords k nk).getD i zeroWord)[b] = k.getD (4 * i + b) 0#8 := by
  have hword : (keyWords k nk).getD i zeroWord =
      #v[k.getD (4 * i) 0#8, k.getD (4 * i + 1) 0#8, k.getD (4 * i + 2) 0#8, k.getD (4 * i + 3) 0#8] := by
    simp [keyWords, hi]
  rw [hword]
  interval_cases b <;> rfl

/-- The expansion begins with the root key (R123). -/
theorem keyExpansion_getD_of_lt (k : List Byte) {i : Nat} (hi : i < k.length / 4) :
    (keyExpansion k).getD i zeroWord = (keyWords k (k.length / 4)).getD i zeroWord := by
  rw [keyExpansion_eq, extendSchedule_prefix _ _ _ _ (by simpa using hi)]

/-- Past the root key the expansion follows the recurrence (R123). -/
theorem keyExpansion_getD_of_le (k : List Byte) {i : Nat} (hk : 0 < k.length / 4) (hi : k.length / 4 ≤ i)
    (hlt : i < 4 * (k.length / 4 + 7)) :
    (keyExpansion k).getD i zeroWord = xorWord ((keyExpansion k).getD (i - k.length / 4) zeroWord)
      (scheduleMix (k.length / 4) i ((keyExpansion k).getD (i - 1) zeroWord)) := by
  simp only [keyExpansion_eq]
  exact extendSchedule_getD hk _ _ (by simp) (by simpa using hi) (by rw [keyWords_length]; omega)

/-- Settles O21: the words' operations byte by byte, then the expansion's length, its first words and its recurrence. -/
theorem keyExpansionFollowsRecurrence : Obligations.KeyExpansionFollowsRecurrence := by
  refine ⟨fun a b => ⟨⟨rfl, rfl, rfl, rfl⟩, fun i h => ?_⟩, fun k hk => ?_⟩
  · simp [subWord, xorWord]
  · refine ⟨keyExpansion_length k, fun i b hb hi => ?_, fun i => ?_⟩
    · dsimp only
      rw [keyExpansion_getD_of_lt k hi]
      exact keyWords_getD_getElem k hi hb
    · exact keyExpansion_getD_of_le k (by omega)

/-! ### The command KEY_EXPAND (R125, R127) -/

theorem execKeyExpand_of_validKeyLen {s : State} (h : validKeyLen s.keyLen.toNat = true) : execKeyExpand s = .next
    ((s.setSchedule (storeSchedule (keyExpansion (keyBytes s s.keyLen.toNat))) true
      (BitVec.ofNat 4 (roundsOfKeyLen s.keyLen.toNat))).finish 0#4) := by
  rcases execKeyExpand_cases s with ⟨-, h'⟩ | ⟨hf, -⟩
  · exact h'
  · simp [h] at hf

theorem execKeyExpand_of_invalidKeyLen {s : State} (h : ¬ validKeyLen s.keyLen.toNat = true) : execKeyExpand s = .next
    ((s.setSchedule zeroSchedule false 0#4).finish CommandError.invalidKeyLength.code) := by
  rcases execKeyExpand_cases s with ⟨ht, -⟩ | ⟨-, h'⟩
  · exact absurd ht h
  · exact h'

/-- KEY_EXPAND's end changes the schedule, ERR_CODE, DONE and fsm only. -/
theorem State.finish_setSchedule_eq (s : State) (w : Schedule) (valid : Bool) (nr c : BitVec 4) :
    (s.setSchedule w valid nr).finish c = { s with
      sched := ((s.setSchedule w valid nr).finish c).sched
      schedValid := valid
      nr := ((s.setSchedule w valid nr).finish c).nr
      errCode := c
      done := true
      fsm := .idle } := rfl

theorem validKeyLen_le {n : Nat} (h : validKeyLen n = true) : n ≤ 32 := by
  rcases (validKeyLen_iff n).1 h with rfl | rfl | rfl <;> decide

/-- The stored schedule: the expanded words, then zero words (10_state.md R52). -/
theorem storeSchedule_keyExpansion_getElem (k : List Byte) {i : Nat} (hi : i < 60) :
    (storeSchedule (keyExpansion k))[i] =
      if i < 4 * (k.length / 4 + 7) then (keyExpansion k).getD i zeroWord else zeroWord := by
  split
  · exact storeSchedule_getElem _ i hi
  · exact storeSchedule_tail k i hi (by omega)

/-- Settles O20: an accepted length stores the expansion with its round count, every other length clears the schedule. -/
theorem keyExpandOutcome : Obligations.KeyExpandOutcome := by
  intro s
  rw [← validKeyLen_iff]
  refine ⟨fun h => ⟨_, execKeyExpand_of_validKeyLen h, State.finish_setSchedule_eq .., (roundsOfKeyLen_cases h).2,
      fun i hi => ?_⟩,
    fun h => ⟨_, execKeyExpand_of_invalidKeyLen h, State.finish_setSchedule_eq .., zeroSchedule_getElem⟩⟩
  have hstored := storeSchedule_keyExpansion_getElem (keyBytes s s.keyLen.toNat) hi
  rwa [keyBytes_length s (validKeyLen_le h)] at hstored

/-- KEY[0 .. n) is determined by its bytes (10_state.md R48). -/
theorem keyBytes_congr {s s' : State} {n : Nat} (h : ∀ (i : Nat) (hi : i < 32), i < n → s.key[i] = s'.key[i]) :
    keyBytes s n = keyBytes s' n := by
  refine List.ext_getElem (by simp [keyBytes]) fun i hi _ => ?_
  obtain ⟨hn, h32⟩ : i < n ∧ i < 32 := by simpa [keyBytes] using hi
  simpa [keyBytes] using h i h32 hn

/-- Settles O22: KEY_EXPAND's result is a function of KEY_LEN and, where that is accepted, of the key bytes it counts. -/
theorem keyExpandDependsOnKeyBytesOnly : Obligations.KeyExpandDependsOnKeyBytesOnly := by
  intro s s' hlen hkey
  by_cases h : validKeyLen s.keyLen.toNat = true
  · refine ⟨_, _, execKeyExpand_of_validKeyLen h, execKeyExpand_of_validKeyLen (hlen ▸ h), ?_, rfl, ?_, rfl⟩
    · simp [← hlen, keyBytes_congr hkey]
    · simp [hlen]
  · exact ⟨_, _, execKeyExpand_of_invalidKeyLen h, execKeyExpand_of_invalidKeyLen (hlen ▸ h), rfl, rfl, rfl, rfl⟩

/-! ### The steps that leave the schedule alone (R126) -/

/-- SCHED, SCHED_VALID and NR in `t` are those in `s`. -/
def SameSchedule (s t : State) : Prop := t.sched = s.sched ∧ t.schedValid = s.schedValid ∧ t.nr = s.nr

theorem SameSchedule.of_block_eq {s t u : State} (h : SameSchedule s t) (hb : u.block = t.block) : SameSchedule s u := by
  obtain ⟨hs, hv, hn⟩ := h
  exact ⟨(congrArg BlockState.sched hb).trans hs, (congrArg BlockState.schedValid hb).trans hv,
    (congrArg BlockState.nr hb).trans hn⟩

theorem ChangesOnlyCbcResults.sameSchedule {s t : State} (h : ChangesOnlyCbcResults s t) : SameSchedule s t :=
  ⟨(congrArg State.sched h :), (congrArg State.schedValid h :), (congrArg State.nr h :)⟩

/-- No command but KEY_EXPAND touches the schedule. -/
theorem exec_sameSchedule {i : Instr} (hi : i ≠ .keyExpand) {s t : State} (h : exec i s = .next t) :
    SameSchedule s t := by
  cases i with
  | keyExpand => contradiction
  | encBlock | decBlock =>
    rcases exec_blockCommand_next (by simp) h with ⟨_, rfl⟩ | ⟨_, rfl⟩ <;> exact ⟨rfl, rfl, rfl⟩
  | cbcEncrypt => exact (execCbcEncrypt_changesOnlyCbcResults h).sameSchedule
  | cbcDecrypt => exact (execCbcDecrypt_changesOnlyCbcResults h).sameSchedule

theorem hostStep_sameSchedule {s t : State} (h : hostStep s = .next t) : SameSchedule s t := by
  rcases hostStep_cases h with ⟨hb, -⟩ | ⟨off, v, hb, -⟩
  · exact .of_block_eq ⟨rfl, rfl, rfl⟩ hb
  · exact .of_block_eq (regWrite_schedule off v s) hb

/-- The engine's turn touches the schedule only for KEY_EXPAND's word (30_encoding.md R81). -/
theorem engineStep_sameSchedule {s t : State} (h : engineStep s = .next t) (hw : s.fsm ≠ .busy (encode .keyExpand)) :
    SameSchedule s t := by
  rcases engineStep_cases h with ⟨-, rfl⟩ | ⟨w, i, hf, hd, h⟩ | ⟨w, -, rfl⟩
  · exact ⟨rfl, rfl, rfl⟩
  · obtain rfl := decode_eq_ok_iff.1 hd
    exact exec_sameSchedule (fun hi => hw (hi ▸ hf)) h
  · exact ⟨rfl, rfl, rfl⟩

/-- Settles O23: the host's turn and every other engine's turn leave the schedule, and the rest are resets. -/
theorem scheduleChangesOnlyAtKeyExpandOrReset : Obligations.ScheduleChangesOnlyAtKeyExpandOrReset := by
  intro s t h hchange
  have hne : ¬ SameSchedule s.dropTurn t := by
    rintro ⟨hs, hv, hn⟩
    rcases hchange with hc | hc | hc
    · exact hc hs
    · exact hc hv
    · exact hc hn
  rcases step_cases h with ⟨-, h⟩ | ⟨hn, h⟩ | ⟨hn | hn, -⟩
  · exact absurd (hostStep_sameSchedule h) hne
  · exact .inr (.inr ⟨hn, not_not.1 fun hw => hne (engineStep_sameSchedule h hw)⟩)
  · exact .inl hn
  · exact .inr (.inl hn)

end Sys2Proof.Machine

/-!
The block cipher (42_block_cipher.md R141-R152): the round transforms on the state's rows and columns, the rounds and
their inverses, and the two block commands.
-/
namespace Sys2Proof.Machine

/-! ### The state's rows and columns (R140, R142, R146) -/

/-- The byte in row r and column c of the state (R140). Rows and columns are counted mod 4, which is what ShiftRows and
the columns' matrices need. -/
def cell (s : Block) (r c : Fin 4) : Byte := s[r.val + 4 * c.val]

theorem block_eq_of_cell_eq {s t : Block} (h : ∀ r c, cell s r c = cell t r c) : s = t := by
  refine Vector.ext fun i hi => ?_
  have hc := h ⟨i % 4, by omega⟩ ⟨i / 4, by omega⟩
  simpa only [cell, Nat.mod_add_div] using hc

theorem cell_shiftRows (s : Block) (r c : Fin 4) : cell (shiftRows s) r c = cell s r (c + r) := by
  simp only [cell, shiftRows, Vector.getElem_ofFn, Fin.val_add, show (r.val + 4 * c.val) % 4 = r.val by omega,
    show (r.val + 4 * c.val) / 4 = c.val by omega]

theorem cell_invShiftRows (s : Block) (r c : Fin 4) : cell (invShiftRows s) r c = cell s r (c - r) := by
  simp only [cell, invShiftRows, Vector.getElem_ofFn, Fin.val_sub, show (r.val + 4 * c.val) % 4 = r.val by omega,
    show (r.val + 4 * c.val) / 4 + 4 - r.val = 4 - r.val + c.val by omega]

/-- Settles O33: column d with (d + r) mod 4 = c is column c - r. -/
theorem shiftRowsRotateRows : Obligations.ShiftRowsRotateRows := by
  intro s r c hr hc
  refine ⟨cell_shiftRows s ⟨r, hr⟩ ⟨c, hc⟩, fun d hd h => ?_⟩
  have hsub : (⟨c, hc⟩ - ⟨r, hr⟩ : Fin 4) = ⟨d, hd⟩ := sub_eq_of_eq_add (Fin.ext h.symm)
  exact (cell_invShiftRows s ⟨r, hr⟩ ⟨c, hc⟩).trans (by rw [hsub]; rfl)

@[simp] theorem invShiftRows_shiftRows (s : Block) : invShiftRows (shiftRows s) = s :=
  block_eq_of_cell_eq fun r c => by rw [cell_invShiftRows, cell_shiftRows, sub_add_cancel]

@[simp] theorem shiftRows_invShiftRows (s : Block) : shiftRows (invShiftRows s) = s :=
  block_eq_of_cell_eq fun r c => by rw [cell_shiftRows, cell_invShiftRows, add_sub_cancel_right]

/-! ### The columns' matrices (R143, R147) -/

/-- Each column times the circulant matrix with first row m0 m1 m2 m3. -/
def mixBlock (m0 m1 m2 m3 : Byte) (s : Block) : Block := Vector.ofFn (mixRow m0 m1 m2 m3 s)

theorem mixColumns_eq (s : Block) : mixColumns s = mixBlock 0x02#8 0x03#8 0x01#8 0x01#8 s := rfl

theorem invMixColumns_eq (s : Block) : invMixColumns s = mixBlock 0x0e#8 0x0b#8 0x0d#8 0x09#8 s := rfl

theorem cell_mixBlock (m0 m1 m2 m3 : Byte) (s : Block) (r c : Fin 4) : cell (mixBlock m0 m1 m2 m3 s) r c =
    gmul m0 (cell s r c) ^^^ gmul m1 (cell s (r + 1) c) ^^^ gmul m2 (cell s (r + 2) c) ^^^ gmul m3 (cell s (r + 3) c) := by
  simp only [cell, mixBlock, mixRow, Vector.getElem_ofFn, Fin.val_add, show (r.val + 4 * c.val) % 4 = r.val by omega,
    show (r.val + 4 * c.val) / 4 = c.val by omega, Nat.add_comm (4 * c.val)]
  rfl

/-- The four rows of a column, byte by byte. -/
theorem mixBlock_column (m0 m1 m2 m3 : Byte) (s : Block) {c : Nat} (hc : c < 4) :
    let a0 := s[4 * c]
    let a1 := s[1 + 4 * c]
    let a2 := s[2 + 4 * c]
    let a3 := s[3 + 4 * c]
    (mixBlock m0 m1 m2 m3 s)[4 * c] = gmul m0 a0 ^^^ gmul m1 a1 ^^^ gmul m2 a2 ^^^ gmul m3 a3 ∧
    (mixBlock m0 m1 m2 m3 s)[1 + 4 * c] = gmul m3 a0 ^^^ gmul m0 a1 ^^^ gmul m1 a2 ^^^ gmul m2 a3 ∧
    (mixBlock m0 m1 m2 m3 s)[2 + 4 * c] = gmul m2 a0 ^^^ gmul m3 a1 ^^^ gmul m0 a2 ^^^ gmul m1 a3 ∧
    (mixBlock m0 m1 m2 m3 s)[3 + 4 * c] = gmul m1 a0 ^^^ gmul m2 a1 ^^^ gmul m3 a2 ^^^ gmul m0 a3 := by
  have hrow (r : Fin 4) := cell_mixBlock m0 m1 m2 m3 s r ⟨c, hc⟩
  have hzero (t : Block) : cell t 0 ⟨c, hc⟩ = t[4 * c] := by simp [cell]
  refine ⟨?_, (hrow 1).trans ?_, (hrow 2).trans ?_, (hrow 3).trans ?_⟩
  · rw [← hzero, hrow 0, ← hzero]
    rfl
  all_goals
    rw [← hzero]
    simp only [Fin.reduceAdd, cell]
    ac_rfl

/-- Settles O31: the rows of mixBlock, where a coefficient 1 is the byte itself. -/
theorem mixColumnsMultipliesByTheMatrix : Obligations.MixColumnsMultipliesByTheMatrix := fun s c hc => by
  simpa only [mixColumns_eq, gmul_one_left] using mixBlock_column 0x02#8 0x03#8 0x01#8 0x01#8 s hc

/-- Settles O32: the rows of mixBlock. -/
theorem invMixColumnsMultipliesByTheMatrix : Obligations.InvMixColumnsMultipliesByTheMatrix := fun s _ hc =>
  mixBlock_column 0x0e#8 0x0b#8 0x0d#8 0x09#8 s hc

/-- The product of two circulant matrices is circulant, with the cyclic convolution of their first rows. -/
theorem mixBlock_mixBlock (n0 n1 n2 n3 m0 m1 m2 m3 : Byte) (s : Block) :
    mixBlock n0 n1 n2 n3 (mixBlock m0 m1 m2 m3 s) = mixBlock
      (gmul n0 m0 ^^^ gmul n1 m3 ^^^ gmul n2 m2 ^^^ gmul n3 m1) (gmul n0 m1 ^^^ gmul n1 m0 ^^^ gmul n2 m3 ^^^ gmul n3 m2)
      (gmul n0 m2 ^^^ gmul n1 m1 ^^^ gmul n2 m0 ^^^ gmul n3 m3) (gmul n0 m3 ^^^ gmul n1 m2 ^^^ gmul n2 m1 ^^^ gmul n3 m0)
      s := by
  refine block_eq_of_cell_eq fun r c => ?_
  simp only [cell_mixBlock, add_assoc, Fin.reduceAdd, add_zero, gmul_xor_right, gmul_xor_left, gmul_assoc]
  ac_rfl

/-- The identity matrix. -/
theorem mixBlock_one (s : Block) : mixBlock 1#8 0#8 0#8 0#8 s = s :=
  block_eq_of_cell_eq fun r c => by simp [cell_mixBlock]

@[simp] theorem invMixColumns_mixColumns (s : Block) : invMixColumns (mixColumns s) = s :=
  calc invMixColumns (mixColumns s) = mixBlock 1#8 0#8 0#8 0#8 s := mixBlock_mixBlock _ _ _ _ _ _ _ _ s
    _ = s := mixBlock_one s

@[simp] theorem mixColumns_invMixColumns (s : Block) : mixColumns (invMixColumns s) = s :=
  calc mixColumns (invMixColumns s) = mixBlock 1#8 0#8 0#8 0#8 s := mixBlock_mixBlock _ _ _ _ _ _ _ _ s
    _ = s := mixBlock_one s

/-! ### The transforms of single bytes (R141, R144, R145) -/

@[simp] theorem invSubBytes_subBytes (s : Block) : invSubBytes (subBytes s) = s :=
  Vector.ext fun i hi => by simp [subBytes, invSubBytes, (sboxTablesInvertEachOther _).1]

@[simp] theorem subBytes_invSubBytes (s : Block) : subBytes (invSubBytes s) = s :=
  Vector.ext fun i hi => by simp [subBytes, invSubBytes, (sboxTablesInvertEachOther _).2]

@[simp] theorem xorBlock_xorBlock_cancel (s k : Block) : xorBlock (xorBlock s k) k = s :=
  Vector.ext fun i hi => by simp [xorBlock]

@[simp] theorem addRoundKey_addRoundKey (s k : Block) : addRoundKey (addRoundKey s k) k = s :=
  xorBlock_xorBlock_cancel s k

/-! ### The rounds (R148, R149) -/

theorem encRounds_eq_foldl (w : Schedule) (n : Nat) (s : Block) :
    encRounds w n s = (List.range n).foldl (fun s r => encRound w (r + 1) s) s := by
  induction n with
  | zero => rfl
  | succ n ih => rw [encRounds, ih, List.range_succ, List.foldl_concat]

theorem decRounds_eq_foldl (w : Schedule) (n : Nat) (s : Block) :
    decRounds w n s = (List.range n).reverse.foldl (fun s r => decRound w (r + 1) s) s := by
  induction n generalizing s with
  | zero => rfl
  | succ n ih => rw [decRounds, ih, List.range_succ, List.reverse_concat, List.foldl_cons]

/-- Settles O60: the ciphers' middle rounds are folds over the round numbers. -/
theorem ciphersFollowTheirRounds : Obligations.CiphersFollowTheirRounds := by
  refine ⟨fun s k i h => ⟨Vector.getElem_map _ h, Vector.getElem_map _ h, Vector.getElem_zipWith h⟩, fun b w nr => ⟨?_, ?_⟩⟩
  · rw [cipher, encRounds_eq_foldl]
    rfl
  · rw [invCipher, decRounds_eq_foldl]
    rfl

/-- A round of InvCipher undoes that round of Cipher, shifted by the SubBytes and ShiftRows that begin the next one. -/
theorem decRound_encRound (w : Schedule) (r : Nat) (s : Block) :
    decRound w r (shiftRows (subBytes (encRound w r s))) = shiftRows (subBytes s) := by
  simp [encRound, decRound]

theorem encRound_decRound (w : Schedule) (r : Nat) (s : Block) :
    encRound w r (invSubBytes (invShiftRows (decRound w r s))) = invSubBytes (invShiftRows s) := by
  simp [encRound, decRound]

theorem decRounds_encRounds (w : Schedule) (n : Nat) (s : Block) :
    decRounds w n (shiftRows (subBytes (encRounds w n s))) = shiftRows (subBytes s) := by
  induction n with
  | zero => rfl
  | succ n ih => rw [encRounds, decRounds, decRound_encRound, ih]

theorem encRounds_decRounds (w : Schedule) (n : Nat) (s : Block) :
    encRounds w n (invSubBytes (invShiftRows (decRounds w n s))) = invSubBytes (invShiftRows s) := by
  induction n generalizing s with
  | zero => rfl
  | succ n ih => rw [encRounds, decRounds, ih, encRound_decRound]

@[simp] theorem invCipher_cipher (b : Block) (w : Schedule) (nr : Nat) : invCipher (cipher b w nr) w nr = b := by
  simp [invCipher, cipher, decRounds_encRounds]

@[simp] theorem cipher_invCipher (b : Block) (w : Schedule) (nr : Nat) : cipher (invCipher b w nr) w nr = b := by
  simp [invCipher, cipher, encRounds_decRounds]

/-- Settles O34: transform by transform, and for the ciphers round by round from the middle outwards. -/
theorem cipherAndInvCipherInvert : Obligations.CipherAndInvCipherInvert :=
  ⟨fun s k => ⟨invSubBytes_subBytes s, invShiftRows_shiftRows s, invMixColumns_mixColumns s, addRoundKey_addRoundKey s k,
    subBytes_invSubBytes s, shiftRows_invShiftRows s, mixColumns_invMixColumns s⟩,
   fun b w nr => ⟨invCipher_cipher b w nr, cipher_invCipher b w nr⟩⟩

/-! ### ENC_BLOCK and DEC_BLOCK (R151, R152) -/

theorem exec_encBlock_eq (s : State) :
    exec .encBlock s = withSchedule s fun nr => complete (s.setDout (cipher s.din s.sched nr)) := rfl

theorem exec_decBlock_eq (s : State) :
    exec .decBlock s = withSchedule s fun nr => complete (s.setDout (invCipher s.din s.sched nr)) := rfl

theorem exec_encBlock_of_hasSchedule {s : State} (h : s.HasSchedule) :
    exec .encBlock s = .next ((s.setDout (cipher s.din s.sched s.nr.toNat)).finish 0#4) := by
  rw [exec_encBlock_eq, withSchedule_of_hasSchedule h, complete_eq]

theorem exec_decBlock_of_hasSchedule {s : State} (h : s.HasSchedule) :
    exec .decBlock s = .next ((s.setDout (invCipher s.din s.sched s.nr.toNat)).finish 0#4) := by
  rw [exec_decBlock_eq, withSchedule_of_hasSchedule h, complete_eq]

/-- Settles O35: the check of the schedule decides between ENC_BLOCK's two ends. -/
theorem encBlockOutcome : Obligations.EncBlockOutcome := fun s =>
  ⟨exec_encBlock_of_hasSchedule, fun h => (exec_encBlock_eq s).trans (withSchedule_of_invalid h _)⟩

/-- Settles O36: the check of the schedule decides between DEC_BLOCK's two ends. -/
theorem decBlockOutcome : Obligations.DecBlockOutcome := fun s =>
  ⟨exec_decBlock_of_hasSchedule, fun h => (exec_decBlock_eq s).trans (withSchedule_of_invalid h _)⟩

/-- Settles O37: ENC_BLOCK leaves the schedule, so DEC_BLOCK runs InvCipher with the words and rounds Cipher had. -/
theorem decryptingTheOutputReturnsTheInput : Obligations.DecryptingTheOutputReturnsTheInput := fun s hs =>
  ⟨_, _, exec_encBlock_of_hasSchedule hs, exec_decBlock_of_hasSchedule hs, invCipher_cipher s.din s.sched s.nr.toNat, rfl⟩

end Sys2Proof.Machine

/-!
The padding codec (43_padding.md R160-R164): Unpad accepts exactly the sequences that end in N bytes of value N, and
Pad's are among them.
-/
namespace Sys2Proof.Machine

theorem padCount_pos (n : Nat) : 1 ≤ padCount n := by
  unfold padCount
  omega

theorem padCount_le (n : Nat) : padCount n ≤ 16 :=
  Nat.sub_le 16 (n % 16)

/-- Unpad reads N back from the last byte, since N ≤ 16 fits a byte, and finds N bytes of it at the end (R162). -/
theorem unpad_append_replicate (r : List Byte) {n : Nat} (hpos : 1 ≤ n) (hle : n ≤ 16) :
    unpad (r ++ List.replicate n (BitVec.ofNat 8 n)) = some r := by
  have hval : (BitVec.ofNat 8 n).toNat = n := by
    rw [BitVec.toNat_ofNat]
    omega
  have hlast : (r ++ List.replicate n (BitVec.ofNat 8 n)).getLast? = some (BitVec.ofNat 8 n) := by
    rw [List.getLast?_append, List.getLast?_replicate, if_neg (by omega), Option.some_or]
  simp [unpad, hlast, hval, hle, Nat.ne_of_gt hpos]

/-- Of Unpad's branches only the last succeeds: there N is the last byte's value and the bytes cut off all equal it. -/
theorem eq_append_replicate_of_unpad {d r : List Byte} (h : unpad d = some r) :
    ∃ n : Nat, 1 ≤ n ∧ n ≤ 16 ∧ d = r ++ List.replicate n (BitVec.ofNat 8 n) := by
  unfold unpad at h
  split at h
  · cases h
  next b hlast =>
    split_ifs at h with hrange hshort hall
    cases h
    have htail : d.drop (d.length - b.toNat) = List.replicate b.toNat b := by
      refine List.eq_replicate_iff.mpr ⟨?_, ?_⟩
      · rw [List.length_drop]
        omega
      · simpa only [List.all_eq_true, beq_iff_eq] using hall
    refine ⟨b.toNat, by omega, by omega, ?_⟩
    rw [BitVec.ofNat_toNat, BitVec.setWidth_eq, ← htail, List.take_append_drop]

/-- Settles O38: N is `padCount`, and the bounds on the length follow from the length and N's range. -/
theorem padLengthLaw : Obligations.PadLengthLaw := by
  intro d
  refine ⟨⟨padCount d.length, rfl, padCount_pos _, padCount_le _, rfl⟩, ?_⟩
  have hlen := pad_length d
  omega

/-- Settles O39: one direction inverts Unpad, the other runs it on padded data. -/
theorem unpadAcceptsExactlyPaddedData : Obligations.UnpadAcceptsExactlyPaddedData := by
  refine fun d r => ⟨⟨eq_append_replicate_of_unpad, ?_⟩, rfl⟩
  rintro ⟨n, hpos, hle, rfl⟩
  exact unpad_append_replicate r hpos hle

/-- Settles O40: Pad appends `padCount` bytes of that value, which Unpad accepts. -/
theorem unpadUndoesPad : Obligations.UnpadUndoesPad := fun d =>
  unpad_append_replicate d (padCount_pos _) (padCount_le _)

end Sys2Proof.Machine

/-!
The CBC functions (44_cbc.md R170-R172): their blocks one by one, and that decryption gives back what was encrypted.
-/
namespace Sys2Proof.Machine

/-! ### Blocks in a joined sequence -/

/-- The 16 bytes at 16·i of blocks joined are block i. -/
theorem joinBlocks_take (l : List Block) {i : Nat} (h : i < l.length) :
    ((l.flatMap Vector.toList).drop (16 * i)).take 16 = l[i].toList := by
  rw [joinBlocks_drop, List.drop_eq_getElem_cons h, List.flatMap_cons, take_block_append]

theorem blockOfList_joinBlocks (l : List Block) {i : Nat} (h : i < l.length) :
    blockOfList ((l.flatMap Vector.toList).drop (16 * i)) = l[i] := by
  rw [joinBlocks_drop, List.drop_eq_getElem_cons h, List.flatMap_cons, blockOfList_append]

theorem blockOfList_toList {l : List Byte} (h : 16 ≤ l.length) : (blockOfList l).toList = l.take 16 := by
  refine List.ext_getElem (by simp [h]) fun i hi _ => ?_
  have hi' : i < l.length := lt_of_lt_of_le (by simpa using hi) h
  simp [blockOfList, hi']

theorem drop_block (l : List Byte) (i : Nat) : (l.drop 16).drop (16 * i) = l.drop (16 * (i + 1)) := by
  rw [List.drop_drop, Nat.mul_succ, Nat.add_comm]

/-! ### CBC encryption (R170) -/

/-- Each block of R170 after the IV is Cipher of its plaintext block xor the block before it. -/
theorem cbcEncBlocks_getElem (w : Schedule) (nr n : Nat) (v : Block) (pp : List Byte) {i : Nat}
    (h : i < (cbcEncBlocks w nr n v pp).length) :
    (cbcEncBlocks w nr n v pp)[i] =
      cipher (xorBlock (blockOfList (pp.drop (16 * i))) ((v :: cbcEncBlocks w nr n v pp)[i]'(Nat.lt_succ_of_lt h)))
        w nr := by
  induction n generalizing v pp i with
  | zero => cases h
  | succ n ih =>
    cases i with
    | zero => rfl
    | succ i =>
      rw [← drop_block]
      exact ih _ (pp.drop 16) (Nat.lt_of_succ_lt_succ h)

/-- Settles O41: the output is the IV and the chained blocks joined, so the chaining is that of the blocks. -/
theorem cbcEncCoreChains : Obligations.CbcEncCoreChains := by
  intro w nr v p
  refine ⟨cbcEncCore_length w nr v p, take_block_append v _, fun i hi => ?_⟩
  have hblocks : i < (cbcEncBlocks w nr ((pad p).length / 16) v (pad p)).length := by
    rw [cbcEncBlocks_length, pad_length]
    omega
  rw [cbcEncCore, joinBlocks_take _ (Nat.succ_lt_succ hblocks), blockOfList_joinBlocks _ (Nat.lt_succ_of_lt hblocks),
    List.getElem_cons_succ, cbcEncBlocks_getElem]

/-! ### CBC decryption (R171) -/

/-- Each block of R171 is InvCipher of its ciphertext block xor the block before it in the buffer. -/
theorem cbcDecBlocks_getElem (w : Schedule) (nr n : Nat) (c : List Byte) {i : Nat}
    (h : i < (cbcDecBlocks w nr n (blockOfList c) (c.drop 16)).length) :
    (cbcDecBlocks w nr n (blockOfList c) (c.drop 16))[i] =
      xorBlock (invCipher (blockOfList (c.drop (16 * (i + 1)))) w nr) (blockOfList (c.drop (16 * i))) := by
  induction n generalizing c i with
  | zero => cases h
  | succ n ih =>
    cases i with
    | zero => rfl
    | succ i =>
      rw [← drop_block c (i + 1), ← drop_block c i]
      exact ih (c.drop 16) (Nat.lt_of_succ_lt_succ h)

/-- Settles O42: the padded plaintext is the deciphered blocks joined. -/
theorem cbcDecCoreChains : Obligations.CbcDecCoreChains := by
  intro w nr n c hc
  have hn : (c.length - 16) / 16 = n := by omega
  refine ⟨by rw [cbcDecCore_length, hn], fun i hi => ?_⟩
  rw [cbcDecCore, hn, joinBlocks_take _ (by rwa [cbcDecBlocks_length]), cbcDecBlocks_getElem]

/-! ### Decryption after encryption -/

/-- Deciphering the chained blocks of whole blocks of plaintext gives them back, block by block. -/
theorem cbcDecBlocks_cbcEncBlocks (w : Schedule) (nr n : Nat) (v : Block) (pp : List Byte) (h : pp.length = 16 * n) :
    (cbcDecBlocks w nr n v ((cbcEncBlocks w nr n v pp).flatMap Vector.toList)).flatMap Vector.toList = pp := by
  induction n generalizing v pp with
  | zero => exact (List.eq_nil_of_length_eq_zero h).symm
  | succ n ih =>
    have hrest : (pp.drop 16).length = 16 * n := by
      rw [List.length_drop]
      omega
    rw [cbcEncBlocks, List.flatMap_cons, cbcDecBlocks, List.flatMap_cons, blockOfList_append, List.drop_left' (by simp),
      ih _ _ hrest, invCipher_cipher, xorBlock_xorBlock_cancel, blockOfList_toList (by omega), List.take_append_drop]

theorem cbcDecCore_cbcEncCore (w : Schedule) (nr : Nat) (v : Block) (p : List Byte) :
    cbcDecCore w nr (cbcEncCore w nr v p) = pad p := by
  have hn : ((cbcEncCore w nr v p).length - 16) / 16 = (pad p).length / 16 := by
    rw [cbcEncCore_length, pad_length, cipherLen]
    omega
  rw [cbcDecCore, hn, cbcEncCore, List.flatMap_cons, blockOfList_append, List.drop_left' (by simp)]
  refine cbcDecBlocks_cbcEncBlocks w nr _ v _ ?_
  rw [pad_length]
  omega

end Sys2Proof.Machine

/-!
The CBC commands (44_cbc.md R174-R178): the first error in the order of 60_exceptions.md R192, what a completed command
leaves, that an error leaves no partial output, and the round trip.
-/
namespace Sys2Proof.Machine

/-! ### The checks in the order of 60_exceptions.md R192 -/

/-- A window past the address space is RANGE, whatever else fails. -/
theorem dmaCheck_eq_range {s : State} {l ol : Nat}
    (h : 4294967296 < s.srcAddr.toNat + l ∨ 4294967296 < s.dstAddr.toNat + ol) : dmaCheck s l ol = some .range := by
  refine if_pos ?_
  simpa only [Bool.or_eq_true, Bool.not_eq_true', ← Bool.not_eq_true, inRange_iff, not_le] using h

/-- Windows in range with a byte in common are OVERLAP, whether or not the source admits the read. -/
theorem dmaCheck_eq_overlap {s : State} {l ol : Nat} (hsrc : s.srcAddr.toNat + l ≤ 4294967296)
    (hdst : s.dstAddr.toNat + ol ≤ 4294967296) (hov : overlaps s.srcAddr.toNat l s.dstAddr.toNat ol = true) :
    dmaCheck s l ol = some .overlap := by
  simp [dmaCheck, (inRange_iff ..).2 hsrc, (inRange_iff ..).2 hdst, hov]

theorem overlaps_eq_false {a n b m : Nat} (h : ¬ ∃ x, (a ≤ x ∧ x < a + n) ∧ (b ≤ x ∧ x < b + m)) :
    overlaps a n b m = false :=
  Bool.eq_false_iff.2 fun ho => h ((overlaps_iff ..).1 ho)

theorem cbcEncryptWith_of_invalid {s : State} (v : Block) (h : s.schedValid = false) :
    cbcEncryptWith v s = .next ((s.setOutLen 0#32).finish CommandError.noSchedule.code) :=
  withSchedule_of_invalid (s := s.setOutLen 0#32) h _

theorem execCbcDecrypt_of_invalid {s : State} (h : s.schedValid = false) :
    execCbcDecrypt s = .next ((s.setOutLen 0#32).finish CommandError.noSchedule.code) :=
  withSchedule_of_invalid (s := s.setOutLen 0#32) h _

/-- Settles O44: each failing check is the first that NO_SCHEDULE or `dmaCheck` reports. -/
theorem cbcEncryptReportsFirstError : Obligations.CbcEncryptReportsFirstError := by
  intro s
  refine ⟨cbcEncryptWith_of_invalid _, fun hs => ?_⟩
  refine ⟨fun h => cbcEncryptWith_of_error hs (dmaCheck_eq_range h),
    fun hsrc hdst => ⟨fun hov => ?_, fun hov hread => ?_⟩⟩
  · exact cbcEncryptWith_of_error hs (dmaCheck_eq_overlap hsrc hdst ((overlaps_iff ..).2 hov))
  · exact cbcEncryptWith_of_error hs (dmaCheck_eq_busError hsrc hdst (overlaps_eq_false hov) hread)

theorem blockOfList_getElem (l : List Byte) {i : Nat} (h : i < 16) : (blockOfList l)[i] = l.getD i 0#8 :=
  Vector.getElem_ofFn h

/-- Settles O46: NO_SCHEDULE, TRUNCATED_INPUT and `dmaCheck`'s errors come before the source read, INVALID_PADDING after. -/
theorem cbcDecryptReportsFirstError : Obligations.CbcDecryptReportsFirstError := by
  intro s
  refine ⟨execCbcDecrypt_of_invalid, fun hs => ?_⟩
  refine ⟨fun h => execCbcDecrypt_of_truncated hs ((truncated_iff _).2 h), fun h16 hmod => ?_⟩
  have ht := truncated_eq_false h16 hmod
  refine ⟨fun h => execCbcDecrypt_of_error hs ht (dmaCheck_eq_range h),
    fun hsrc hdst => ⟨fun hov => ?_, fun hov => ?_⟩⟩
  · exact execCbcDecrypt_of_error hs ht (dmaCheck_eq_overlap hsrc hdst ((overlaps_iff ..).2 hov))
  · refine ⟨fun hread => ?_, fun hread hu => ?_⟩
    · exact execCbcDecrypt_of_error hs ht (dmaCheck_eq_busError hsrc hdst (overlaps_eq_false hov) hread)
    · have hw := State.WindowsOk.of_not_overlaps hsrc hdst (overlaps_eq_false hov) hread
      exact ⟨_, execCbcDecrypt_of_badPadding hs ht hw hu, rfl, fun i hi => blockOfList_getElem _ hi⟩

/-! ### The completed commands -/

/-- An output stage whose window admits every write completes: what it leaves, component by component and byte by byte
(20_memory.md R62). -/
theorem storeOutput_admitted {s : State} (hwf : s.mem.wf) {ol : Nat} {out : List Byte} (hl : out.length = ol)
    (hol : ol < 4294967296) (h : AdmitsAll s.platform .write s.dstAddr.toNat ol) :
    ∃ t, storeOutput s ol out = .next t ∧
      t = { s with
        mem := t.mem
        host := { s.host with stale := t.host.stale }
        outLen := t.outLen
        errCode := 0#4
        done := true
        fsm := .idle } ∧
      t.outLen.toNat = ol ∧
      (∀ i : Nat, i < ol → t.mem.read (s.dstAddr.toNat + i) = out.getD i 0#8) ∧
      ∀ x : Nat, ¬ (s.dstAddr.toNat ≤ x ∧ x < s.dstAddr.toNat + ol) → t.mem.read x = s.mem.read x := by
  subst hl
  obtain ⟨-, h'⟩ | ⟨h', -⟩ := storeOutput_cases s out.length out
  · refine ⟨_, h', ?_, Nat.mod_eq_of_lt hol, fun i hi => ?_, fun x => Memory.read_writeRange_outside _ _ _ _⟩
    · rw [State.dmaWrite_eq]
      rfl
    · exact (Memory.read_writeRange_inside hwf _ i out hi).trans (List.getD_eq_getElem _ _ hi).symm
  · exact absurd h h'

/-- Settles O43: the checks pass, so the command is the draw and then an output stage that its window admits. -/
theorem cbcEncryptCompletes : Obligations.CbcEncryptCompletes := by
  intro s hwf hs hw hwrite
  have hlen := cbcEncCore_length s.sched s.nr.toNat (Config.entropyDraw s.entropyDraws) (sourceBytes s)
  rw [sourceBytes_length] at hlen
  obtain ⟨t, hstore, ht, hout, hin, hother⟩ :=
    storeOutput_admitted (s := (s.setOutLen 0#32).takeDraw (Config.entropyDraw s.entropyDraws)) hwf hlen hw.cipherLen_lt
      hwrite
  have hiv : t.iv = Config.entropyDraw s.entropyDraws := by rw [ht]; rfl
  refine ⟨t, (cbcEncryptWith_of_windows hs hw).trans hstore, hout, hiv, hin, hother, ?_⟩
  rw [ht]
  rfl

/-- Settles O45: the checks pass and the padding is good, so the command ends in an output stage that its window admits. -/
theorem cbcDecryptCompletes : Obligations.CbcDecryptCompletes := by
  intro s pt hwf hs h16 hmod hw hu hwrite
  have hle := unpad_cbcDecCore_length hu
  rw [sourceBytes_length] at hle
  obtain ⟨t, hstore, ht, hout, hin, hother⟩ :=
    storeOutput_admitted (s := (s.setOutLen 0#32).setIv (blockOfList (sourceBytes s))) hwf rfl (by omega) hwrite
  have hiv : t.iv = blockOfList (sourceBytes s) := by rw [ht]; rfl
  refine ⟨t, (execCbcDecrypt_of_padded hs (truncated_eq_false h16 hmod) hw hu).trans hstore, hout, fun i hi => ?_, hin,
    hother, ?_⟩
  · simp only [hiv, blockOfList_getElem]
  · rw [ht]
    rfl

/-! ### No partial output (R178) -/

/-- A CBC command that took `s` to `t` left no partial output: OUT_LEN = 0, and memory as it was or, after a write
BUS_ERROR, changed in write-admitted bytes of the output window [DST_ADDR, DST_ADDR + n) only. -/
def NoPartial (n : Nat) (s t : State) : Prop :=
  t.outLen = 0#32 ∧
  (t.errCode ≠ 8#4 ∨ ¬ AdmitsAll s.platform .read s.srcAddr.toNat s.len.toNat → t.mem = s.mem) ∧
  ∀ x : Nat, t.mem.read x ≠ s.mem.read x →
    t.errCode = 8#4 ∧ memAdmit s.platform .write x = true ∧ s.dstAddr.toNat ≤ x ∧ x < s.dstAddr.toNat + n

/-- An error before the output stage leaves memory as it was. -/
theorem NoPartial.of_mem_eq (n : Nat) {s t : State} (ho : t.outLen = 0#32) (hm : t.mem = s.mem) : NoPartial n s t :=
  ⟨ho, fun _ => hm, fun _ hx => absurd (congrArg (Memory.read · _) hm) hx⟩

/-- An error of the output stage is the write BUS_ERROR, after Havoc of the output window. -/
theorem storeOutput_noPartial {s t : State} {ol : Nat} {out : List Byte} (ho : s.outLen = 0#32)
    (hread : AdmitsAll s.platform .read s.srcAddr.toNat s.len.toNat) (h : storeOutput s ol out = .next t)
    (herr : t.errCode ≠ 0#4) : NoPartial ol s t := by
  rcases storeOutput_cases s ol out with ⟨-, h'⟩ | ⟨-, h'⟩ <;> cases h'.symm.trans h
  · exact absurd rfl herr
  · refine ⟨ho, fun hor => ?_, fun x hx => ?_⟩
    · rcases hor with hne | hne
      · exact absurd rfl hne
      · exact absurd hread hne
    · by_contra hout
      refine hx (Memory.read_havoc_other _ _ _ _ _ _ _ ?_)
      by_cases hwin : s.dstAddr.toNat ≤ x ∧ x < s.dstAddr.toNat + ol
      · exact .inr (Bool.eq_false_iff.2 fun hadmit => hout ⟨rfl, hadmit, hwin⟩)
      · exact .inl hwin

/-- Settles O48: of each command's ends only the output stage reaches memory. -/
theorem noPartialOutput : Obligations.NoPartialOutput := by
  intro s t i hi h herr
  rcases hi with rfl | rfl
  · suffices NoPartial (cipherLen s.len.toNat) s t from this
    rcases cbcEncryptWith_next h with ⟨-, rfl⟩ | ⟨e, -, -, rfl⟩ | ⟨-, hw, hstore⟩
    · exact .of_mem_eq _ rfl rfl
    · exact .of_mem_eq _ rfl rfl
    · exact storeOutput_noPartial (s := (s.setOutLen 0#32).takeDraw _) rfl hw.src_admitted hstore herr
  · suffices NoPartial ((unpad (cbcDecCore s.sched s.nr.toNat (sourceBytes s))).getD []).length s t from this
    rcases execCbcDecrypt_next h with
      ⟨-, rfl⟩ | ⟨-, -, rfl⟩ | ⟨e, -, -, -, rfl⟩ | ⟨-, -, -, -, rfl⟩ | ⟨pt, -, -, hw, hu, hstore⟩
    · exact .of_mem_eq _ rfl rfl
    · exact .of_mem_eq _ rfl rfl
    · exact .of_mem_eq _ rfl rfl
    · exact .of_mem_eq _ rfl rfl
    · rw [hu]
      exact storeOutput_noPartial (s := (s.setOutLen 0#32).setIv _) rfl hw.src_admitted hstore herr

/-! ### Round trip (R176) -/

/-- CBC_ENCRYPT ends with ERR_CODE = 0 only when its checks pass and its output window admits every write. -/
theorem execCbcEncrypt_success {s t : State} (h : execCbcEncrypt s = .next t) (h0 : t.errCode = 0#4) :
    s.HasSchedule ∧ s.WindowsOk s.len.toNat (cipherLen s.len.toNat) ∧
      AdmitsAll s.platform .write s.dstAddr.toNat (cipherLen s.len.toNat) := by
  rcases cbcEncryptWith_next h with ⟨-, rfl⟩ | ⟨e, -, -, rfl⟩ | ⟨hs, hw, hstore⟩
  · exact absurd h0 CommandError.noSchedule.code_ne_zero
  · exact absurd h0 e.code_ne_zero
  · refine ⟨hs, hw, ?_⟩
    obtain ⟨hadm, -⟩ | ⟨-, h'⟩ := storeOutput_cases ((s.setOutLen 0#32).takeDraw (Config.entropyDraw s.entropyDraws))
      (cipherLen s.len.toNat) (cbcEncCore s.sched s.nr.toNat (Config.entropyDraw s.entropyDraws) (sourceBytes s))
    · exact hadm
    · cases h'.symm.trans hstore
      exact absurd h0 CommandError.busError.code_ne_zero

/-- Settles O49: the source bytes of `u` are CbcEncCore's output, which deciphers to the padded plaintext. -/
theorem cbcRoundTrip : Obligations.CbcRoundTrip := by
  intro s t u hwf hexec h0 huwf hsched hnr hvalid hulen hcopy hw hwrite
  obtain ⟨hs, hsw, hswrite⟩ := execCbcEncrypt_success hexec h0
  obtain ⟨t', hexec', hout, -, hin, -⟩ := cbcEncryptCompletes s hwf hs hsw hswrite
  cases hexec.symm.trans hexec'
  have hsource : sourceBytes u = cbcEncCore s.sched s.nr.toNat (Config.entropyDraw s.entropyDraws) (sourceBytes s) := by
    refine List.ext_getElem ?_ fun i hi hi' => ?_
    · rw [cbcEncCore_length, sourceBytes_length, sourceBytes_length, hulen, hout, cipherLen]
    · have hi_lt : i < t.outLen.toNat := by rwa [sourceBytes_length, hulen] at hi
      rw [← List.getD_eq_getElem _ 0#8 hi, ← List.getD_eq_getElem _ 0#8 hi', hcopy i hi_lt, hin i (hout ▸ hi_lt)]
  have hunpad : unpad (cbcDecCore u.sched u.nr.toNat (sourceBytes u)) = some (sourceBytes s) := by
    rw [hsource, hsched, hnr, cbcDecCore_cbcEncCore, unpadUndoesPad]
  have hus : u.HasSchedule := ⟨hvalid.trans hs.1, hnr ▸ hs.2⟩
  have hlen : u.len.toNat = 16 + 16 * (s.len.toNat / 16 + 1) := by rw [hulen, hout]
  obtain ⟨v, hdec, hvout, -, hvin, -, hv⟩ := cbcDecryptCompletes u (sourceBytes s) huwf hus (by omega) (by omega) hw
    hunpad (by rwa [sourceBytes_length])
  rw [sourceBytes_length] at hvout hvin
  exact ⟨v, hdec, by rw [hv], BitVec.eq_of_toNat_eq hvout, hvin⟩

end Sys2Proof.Machine

/-!
How a command ends (60_exceptions.md R190, R197): the engine's step always answers, and a host write in the same clock
counts as ordered before it or after it.
-/
namespace Sys2Proof.Machine

/-! ### The engine's step answers (60_exceptions.md R190, R191) -/

/-- A schedule in form is valid with NR 10, 12 or 14, or invalid: no cipher command is outside Cipher's domain
(10_state.md R41, R52). -/
theorem State.ScheduleForm.invalid_or_hasSchedule {s : State} (hs : s.ScheduleForm) :
    s.schedValid = false ∨ s.HasSchedule := by
  cases hv : s.schedValid with
  | false => exact .inl rfl
  | true => exact .inr ⟨hv, hs.valid_rounds hv⟩

/-- The output stage answers, whether or not its window admits the writes. -/
theorem storeOutput_answers (s : State) (ol : Nat) (out : List Byte) : ∃ t, storeOutput s ol out = .next t := by
  rcases storeOutput_cases s ol out with ⟨-, h⟩ | ⟨-, h⟩ <;> exact ⟨_, h⟩

theorem cbcEncryptWith_answers (v : Block) {s : State} (hs : s.ScheduleForm) : ∃ t, cbcEncryptWith v s = .next t := by
  rcases hs.invalid_or_hasSchedule with hv | hs
  · exact ⟨_, cbcEncryptWith_of_invalid v hv⟩
  · cases hd : dmaCheck s s.len.toNat (cipherLen s.len.toNat) with
    | some e => exact ⟨_, cbcEncryptWith_of_error hs hd⟩
    | none =>
      rw [cbcEncryptWith_of_windows hs ((dmaCheck_eq_none_iff ..).1 hd)]
      exact storeOutput_answers ..

theorem execCbcDecrypt_answers {s : State} (hs : s.ScheduleForm) : ∃ t, execCbcDecrypt s = .next t := by
  rcases hs.invalid_or_hasSchedule with hv | hs
  · exact ⟨_, execCbcDecrypt_of_invalid hv⟩
  · cases ht : truncated s.len.toNat with
    | true => exact ⟨_, execCbcDecrypt_of_truncated hs ht⟩
    | false =>
      cases hd : dmaCheck s s.len.toNat (s.len.toNat - 16) with
      | some e => exact ⟨_, execCbcDecrypt_of_error hs ht hd⟩
      | none =>
        have hw := (dmaCheck_eq_none_iff ..).1 hd
        cases hu : unpad (cbcDecCore s.sched s.nr.toNat (sourceBytes s)) with
        | none => exact ⟨_, execCbcDecrypt_of_badPadding hs ht hw hu⟩
        | some pt =>
          rw [execCbcDecrypt_of_padded hs ht hw hu]
          exact storeOutput_answers ..

/-- Every command answers a next state where the schedule is in form (60_exceptions.md R190). -/
theorem exec_answers (i : Instr) {s : State} (hs : s.ScheduleForm) : ∃ t, exec i s = .next t := by
  cases i with
  | keyExpand => rcases execKeyExpand_cases s with ⟨-, h⟩ | ⟨-, h⟩ <;> exact ⟨_, h⟩
  | encBlock =>
    rcases hs.invalid_or_hasSchedule with hv | hs
    · exact ⟨_, (encBlockOutcome s).2 hv⟩
    · exact ⟨_, exec_encBlock_of_hasSchedule hs⟩
  | decBlock =>
    rcases hs.invalid_or_hasSchedule with hv | hs
    · exact ⟨_, (decBlockOutcome s).2 hv⟩
    · exact ⟨_, exec_decBlock_of_hasSchedule hs⟩
  | cbcEncrypt => exact cbcEncryptWith_answers _ hs
  | cbcDecrypt => exact execCbcDecrypt_answers hs

/-- The engine's step answers whatever the word: a legal one runs its command, any other is reported
(30_encoding.md R84). -/
theorem engineStep_answers {s : State} (hs : s.ScheduleForm) : ∃ t, engineStep s = .next t := by
  cases hf : s.fsm with
  | idle => exact ⟨s, engineStep_idle hf⟩
  | busy w =>
    cases hd : decode w with
    | error e => exact ⟨_, engineStep_illegal hf hd⟩
    | ok i =>
      rw [engineStep_ok hf hd]
      exact exec_answers i hs

/-- While BUSY the engine's step, if it answers, ends the command in progress (10_state.md R31). -/
theorem engineStep_endsCommand {s t : State} (hb : s.busy = true) (h : engineStep s = .next t) : EndsCommand s t := by
  rcases engineStep_cases h with ⟨hf, -⟩ | ⟨w, i, -, -, h⟩ | ⟨w, -, rfl⟩
  · rw [(State.busy_eq_false s).2 hf] at hb
    contradiction
  · exact exec_endsCommand h
  · exact .error (.refl s) .illegalCommand

/-- Settles O52: Inv keeps the schedule in form, so the engine's step answers, and while BUSY its answer ends the
command. -/
theorem everyCommandEndsOnce : Obligations.EveryCommandEndsOnce := by
  intro s hs hb
  obtain ⟨t, h⟩ := engineStep_answers hs.schedule
  obtain ⟨u, c, -, hc, rfl⟩ := engineStep_endsCommand hb h
  exact ⟨_, h, rfl, rfl, hc⟩

/-! ### A host write beside the engine's step (60_exceptions.md R197) -/

/-- A command leaves the turns, the platform and the host's accesses to come (30_encoding.md R83). -/
theorem exec_leaves_pending {i : Instr} {s t : State} (h : exec i s = .next t) :
    t.turns = s.turns ∧ t.platform = s.platform ∧ t.host.program = s.host.program := by
  cases i with
  | keyExpand | encBlock | decBlock =>
    rw [(registerCommandsFrame s t _ (by decide) h).1]
    exact ⟨rfl, rfl, rfl⟩
  | cbcEncrypt | cbcDecrypt =>
    rw [(cbcCommandsFrame s t _ (by decide) h).1]
    exact ⟨rfl, rfl, rfl⟩

theorem engineStep_leaves_pending {s t : State} (h : engineStep s = .next t) :
    t.turns = s.turns ∧ t.platform = s.platform ∧ t.host.program = s.host.program := by
  rcases engineStep_cases h with ⟨-, rfl⟩ | ⟨w, i, -, -, h⟩ | ⟨w, -, rfl⟩
  · exact ⟨rfl, rfl, rfl⟩
  · exact exec_leaves_pending h
  · exact ⟨rfl, rfl, rfl⟩

/-- With DONE = 0, a STATUS write that does not clear WR_IGNORED reaches no component (10_state.md R54). -/
theorem State.clearStatus_block_of_nothing_to_clear {s : State} {v : Word} (hd : s.done = false)
    (hv : v.getLsbD 4 = false) : (s.clearStatus v).block = s.block := by
  simp only [State.clearStatus, hd, hv, Bool.false_and, Bool.not_false, Bool.and_true, State.block]

/-- Settles O59: ordered first, the write meets a BUSY block; ordered second, the engine's step has ended the command
and left the write to come. -/
theorem writeAndEngineStepInEitherOrder : Obligations.WriteAndEngineStepInEitherOrder := by
  intro s off v us rest hb ho hp
  refine ⟨fun hoff hturns => ?_, fun hoff hd hv hturns => ?_, fun hturns t ht => ?_⟩
  · obtain ⟨t, ht, hblock, hmem, -⟩ := hostWritePerformsRegWrite s off v rest (nextTurn_cons hturns) ho hp
    rw [regWrite_busy hoff hb] at hblock
    exact ⟨t, ht, hblock, hmem⟩
  · subst hoff
    obtain ⟨t, ht, hblock, hmem, -⟩ := hostWritePerformsRegWrite s 0x08#8 v rest (nextTurn_cons hturns) ho hp
    rw [regWrite_status, State.clearStatus_block_of_nothing_to_clear hd hv] at hblock
    exact ⟨t, ht, hblock, hmem⟩
  · rw [step_of_engine (nextTurn_cons hturns)] at ht
    obtain ⟨u, c, -, -, hfinish⟩ := engineStep_endsCommand (s := s.dropTurn) hb ht
    obtain ⟨htu, htp, hth⟩ := engineStep_leaves_pending ht
    have hturns' : t.turns = .host :: us := htu.trans (congrArg List.tail hturns)
    have hp' : t.host.program = .write .w32 (t.platform.base + off.setWidth 32) v :: rest := by
      rw [hth, htp]
      exact hp
    obtain ⟨t', ht', hblock, hmem, -⟩ := hostWritePerformsRegWrite t off v rest (nextTurn_cons hturns') ho hp'
    exact ⟨congrArg State.fsm hfinish, t', ht', hblock, hmem⟩

end Sys2Proof.Machine

/-!
Reset and hazards: the reset event and the command it abandons (70_reset_and_hazards.md R210, R211), and the engine's
step that a command in progress reaches (R219).
-/
namespace Sys2Proof.Machine

/-! ### The reset event (70_reset_and_hazards.md R210, 93_implementation_defined.md row 9) -/

theorem step_of_resetWithAccess {s : State} (h : s.nextTurn = .resetWithAccess) :
    step s = resetWithAccess s.dropTurn := by
  unfold step takeTurn; rw [h]

theorem resetWithAccess_refused {s : State} {o : HostOp} {rest : List HostOp} (hp : s.host.program = o :: rest)
    (ho : HostOp.isRegisterAccess o = true) : resetWithAccess s = .refused .accessDuringReset := by
  unfold resetWithAccess; rw [hp]; exact if_pos ho

/-- Settles O9: a reset leaves the block zero, so irq is low; a read, a write and a WAIT poll are register accesses. -/
theorem resetEventZeroesTheBlock : Obligations.ResetEventZeroesTheBlock := by
  refine fun s => ⟨fun hn => ⟨_, step_of_reset hn, assertReset_block _, rfl⟩, fun w a v rest hn hp => ?_⟩
  rw [step_of_resetWithAccess hn]
  rcases hp with hp | hp | hp <;> exact resetWithAccess_refused (s := s.dropTurn) hp rfl

/-! ### The command a reset abandons (70_reset_and_hazards.md R211) -/

/-- The command in progress is the one whose word is in fsm. -/
theorem State.running_eq_some_iff {s : State} {w : Word} {i : Instr} (hw : s.fsm = .busy w) :
    s.running = some i ↔ w = encode i := by
  have hrun : s.running = (decode w).toOption := by simp only [State.running, hw]
  rw [hrun, eq_comm (a := w), ← decode_eq_ok_iff]
  cases decode w <;> simp [Except.toOption]

/-- A claimed window in range is left to Havoc. -/
theorem State.abandon_inRange {s : State} {i : Instr} (hi : s.running = some i)
    (h : s.dstAddr.toNat + claimedLen i s.len.toNat ≤ 4294967296) :
    s.abandon = s.havoc s.dstAddr.toNat (claimedLen i s.len.toNat) := by
  unfold State.abandon; rw [hi]; exact if_pos ((inRange_iff ..).2 h)

/-- Memory stays where the command in progress, if there is one, claims no byte or a window out of range. -/
theorem State.abandon_mem_unchanged {s : State} (h : ∀ i, s.running = some i →
    claimedLen i s.len.toNat = 0 ∨ 4294967296 < s.dstAddr.toNat + claimedLen i s.len.toNat) :
    s.abandon.mem = s.mem := by
  unfold State.abandon
  split
  · rfl
  · next i hi =>
    split
    · next hr =>
      obtain hn | hn := h i hi
      · rw [hn]; rfl
      · exact absurd ((inRange_iff ..).1 hr) (by omega)
    · rfl

/-- What a reset leaves at each byte of memory where the command in progress claims a window in range. -/
theorem read_assertReset_inRange {s : State} (hwf : s.mem.wf) {i : Instr} (hi : s.running = some i)
    (h : s.dstAddr.toNat + claimedLen i s.len.toNat ≤ 4294967296) (x : Nat) : s.assertReset.mem.read x =
      if (s.dstAddr.toNat ≤ x ∧ x < s.dstAddr.toNat + claimedLen i s.len.toNat) ∧ memAdmit s.platform .write x = true
      then Config.havocByte (s.havocDraws + (x - s.dstAddr.toNat)) else s.mem.read x := by
  rw [State.assertReset, State.abandon_inRange hi h]
  exact Memory.read_havoc _ _ hwf ..

/-- Settles O10: CBC_ENCRYPT and CBC_DECRYPT claim the stated windows, which Havoc fills where they are in range; an
illegal word is no command, and the register commands and a CBC_DECRYPT with LEN < 16 claim no byte. -/
theorem resetAbandonsRunningCommand : Obligations.ResetAbandonsRunningCommand := by
  intro s w hwf hw hn
  have hrun {i : Instr} : s.dropTurn.running = some i ↔ w = encode i := State.running_eq_some_iff hw
  refine ⟨_, step_of_reset hn, rfl, rfl, fun n hclaim hr => ?_, fun henc hdec => ?_⟩
  · rcases hclaim with ⟨hi, rfl⟩ | ⟨hi, -, rfl⟩
    · exact read_assertReset_inRange (s := s.dropTurn) (i := .cbcEncrypt) hwf (hrun.2 hi) hr
    · exact read_assertReset_inRange (s := s.dropTurn) (i := .cbcDecrypt) hwf (hrun.2 hi) hr
  · refine s.dropTurn.abandon_mem_unchanged fun i hi => ?_
    cases i with
    | keyExpand | encBlock | decBlock => exact .inl rfl
    | cbcEncrypt => exact .inr (henc (hrun.1 hi))
    | cbcDecrypt => exact (hdec (hrun.1 hi)).imp_left fun hl => Nat.sub_eq_zero_of_le hl.le

/-! ### The engine's step is reached (70_reset_and_hazards.md R219) -/

theorem stepTimes_succ {s t : State} (h : step s = .next t) (n : Nat) : stepTimes (n + 1) s = stepTimes n t := by
  rw [stepTimes, h]

theorem stepTimes_succ_next {n : Nat} {s u : State} (h : stepTimes (n + 1) s = .next u) :
    ∃ t, step s = .next t ∧ stepTimes n t = .next u := by
  unfold stepTimes at h
  split at h
  · exact ⟨_, ‹_›, h⟩
  · contradiction
  · contradiction

theorem hostStep_turns {s t : State} (h : hostStep s = .next t) : t.turns = s.turns := by
  cases hp : s.host.program with
  | nil =>
    cases (hostStep_nil hp).symm.trans h
    rfl
  | cons o rest =>
    rw [hostStep_cons hp] at h
    exact (hostOp_cases h).1

/-- While BUSY the host's turn leaves the command in progress (10_state.md R31). -/
theorem busy_of_hostTurn {s t : State} (hb : s.busy = true) (hn : s.nextTurn = .host) (h : step s = .next t) :
    t.busy = true := by
  have hfsm : t.fsm = s.fsm := congrArg BlockState.fsm (hostTurnWhileBusyLeavesRegisters s t hb hn h).1
  rwa [State.busy, hfsm]

/-- While BUSY with no turn listed the engine moves. -/
theorem step_of_busy_no_turns {s : State} (hb : s.busy = true) (hts : s.turns = []) :
    step s = engineStep s.dropTurn :=
  step_of_engine (by rw [nextTurn_nil hts, if_pos hb])

/-- The listed host turns leave the block BUSY, and the step after them is the engine's. -/
theorem stepTimes_completes {s t : State} (hb : s.busy = true) (hh : ∀ u ∈ s.turns, u = .host)
    (h : stepTimes (s.turns.length + 1) s = .next t) : t.fsm = .idle ∧ t.done = true := by
  induction hts : s.turns generalizing s with
  | nil =>
    rw [hts] at h
    obtain ⟨t', ht', h⟩ := stepTimes_succ_next h
    cases h
    rw [step_of_busy_no_turns hb hts] at ht'
    obtain ⟨u, c, -, -, rfl⟩ := engineStep_endsCommand (s := s.dropTurn) hb ht'
    exact ⟨rfl, rfl⟩
  | cons u us ih =>
    obtain rfl : u = .host := hh u (by simp [hts])
    have hn : s.nextTurn = .host := nextTurn_cons hts
    rw [hts] at h
    obtain ⟨t', ht', h⟩ := stepTimes_succ_next h
    have hts' : t'.turns = us := by
      rw [hostStep_turns ((step_of_host hn).symm.trans ht'), State.dropTurn_turns, hts, List.tail_cons]
    refine ih (busy_of_hostTurn hb hn ht') (fun v hv => hh v ?_) (hts' ▸ h) hts'
    rw [hts, ← hts']
    exact List.mem_cons_of_mem _ hv

/-- With no host access to make, each listed host turn answers with the turn used up, and the engine's step answers
under Inv. -/
theorem stepTimes_answers {s : State} (hb : s.busy = true) (hh : ∀ u ∈ s.turns, u = .host) (hs : s.Inv)
    (hp : s.host.program = []) : ∃ t, stepTimes (s.turns.length + 1) s = .next t := by
  induction hts : s.turns generalizing s with
  | nil =>
    obtain ⟨t, ht⟩ := engineStep_answers (s := s.dropTurn) (hs.schedule.of_move (.of_block rfl))
    exact ⟨t, stepTimes_succ ((step_of_busy_no_turns hb hts).trans ht) 0⟩
  | cons u us ih =>
    obtain rfl : u = .host := hh u (by simp [hts])
    have hstep : step s = .next s.dropTurn :=
      (step_of_host (nextTurn_cons hts)).trans (hostStep_nil (s := s.dropTurn) hp)
    have hts' : s.dropTurn.turns = us := congrArg List.tail hts
    rw [List.length_cons, stepTimes_succ hstep]
    exact ih hb (fun v hv => hh v (List.mem_of_mem_tail hv)) (stepKeepsInvariant _ _ hs hstep) hp hts'

/-- Settles O55: the listed host turns are used up one by one, and then the engine moves. -/
theorem busyReachesItsEngineStep : Obligations.BusyReachesItsEngineStep :=
  fun _ hb hh => ⟨fun _ => stepTimes_completes hb hh, stepTimes_answers hb hh⟩

end Sys2Proof.Machine
